-- ==== Sys2Proof/Word.lean ====
section
/-! DEFINITION. The word types of the block: bytes, packed colours (spec/00_scope.md R14) and command words
(spec/30_encoding.md R122). -/

namespace Sys2Proof

/-- A byte, `u8` (00_scope.md R12). -/
abbrev Byte := BitVec 8

/-- A colour in the packing `A[31:24] R[23:16] G[15:8] B[7:0]` (00_scope.md R14). -/
abbrev Colour := BitVec 32

/-- A colour is opaque: its bits 31:24 are 0xFF (00_scope.md R14). -/
abbrev Opaque (c : Colour) : Prop := c.extractLsb' 24 8 = 0xFF

/-- A command word, `OP A B D` (30_encoding.md R122). -/
abbrev CmdWord := BitVec 64

/-- `WHITE` (00_scope.md R14). -/
def white : Colour := 0xFFFFFFFF

/-- `OPACITY_MASK` (00_scope.md R14). -/
def opacityMask : Colour := 0xFF000000

end Sys2Proof
end

