-- ==== Sys2Proof/Config.lean ====
section
/-! DEFINITION. The configuration of spec/00_scope.md R10: a record of its parameters, the defaults the spec recommends
(PRESUMED where the spec takes them from general knowledge, notes/assumptions/10.md), the constraints a configuration must
meet, and the two free values, which have no body: the noise table (45_apu_render.md R364) and the draw that stands on the
input port at reset (44_apu_registers.md R321). Which configuration a machine has is an input of its run (R8 c); every
operation reads it from `State.config` (notes/assumptions/25.md). -/

namespace Sys2Proof

/-- The named parameters of 00_scope.md R10, `NOISE_TABLE` apart. -/
structure Config where
  /-- `ROM_BANK_SIZE`: bytes per ROM bank. -/
  romBankSize : Nat
  /-- `RAM_BANK_SIZE`: bytes per RAM bank. -/
  ramBankSize : Nat
  /-- `HDR_COLOUR`: offset of the colour-flag byte in the ROM image. -/
  hdrColour : Nat
  /-- `HDR_TYPE`: offset of the cartridge type byte. -/
  hdrType : Nat
  /-- `HDR_ROMSIZE`: offset of the ROM size byte. -/
  hdrRomSize : Nat
  /-- `HDR_RAMSIZE`: offset of the RAM size byte. -/
  hdrRamSize : Nat
  /-- `BATTERY_TYPES`: the set of type codes that have a battery. -/
  batteryTypes : List Byte
  /-- `MONO_SHADES[0..3]`: the four colours of the non-colour table, lightest first. -/
  monoShades : Vector Colour 4
  /-- `SAMPLE_RATE`: PCM sample frames per second. -/
  sampleRate : Nat
  /-- `STEREO`: two byte lanes per sample frame, or one. -/
  stereo : Bool
  /-- `SQ_BASE`: square-channel frequency numerator. -/
  sqBase : Nat
  /-- `WV_BASE`: wave-channel frequency numerator. -/
  wvBase : Nat
  /-- `NZ_BASE`: noise-channel base. -/
  nzBase : Nat
  /-- `PHASE_ONE`: phase units per sample. -/
  phaseOne : Nat
  /-- `SAFE_CYCLE_LENGTH`: the "safe default cycle length". -/
  safeCycleLength : Nat
  /-- `NOISE_TABLE_LEN`: number of bits in the noise table. -/
  noiseTableLen : Nat
  /-- `NOISE_SHORT_LEN`: entries per cycle in 7-step mode. -/
  noiseShortLen : Nat
deriving DecidableEq, Repr

namespace Config

/-- The defaults of the table of 00_scope.md R10 (notes/assumptions/10.md). -/
def default : Config :=
  { romBankSize := 0x4000
    ramBankSize := 0x2000
    hdrColour := 0x143
    hdrType := 0x147
    hdrRomSize := 0x148
    hdrRamSize := 0x149
    batteryTypes := [0x03, 0x06, 0x09, 0x0D, 0x0F, 0x10, 0x13, 0x1B, 0x1E, 0x22, 0xFF]
    monoShades := #v[0xFFFFFFFF, 0xFFAAAAAA, 0xFF555555, 0xFF000000]
    sampleRate := 44100
    stereo := true
    sqBase := 131072
    wvBase := 65536
    nzBase := 524288
    phaseOne := 256
    safeCycleLength := 65535
    noiseTableLen := 32767
    noiseShortLen := 127 }

/-- `MONO_SHADES[i]`. -/
def monoShade (cfg : Config) (i : Fin 4) : Colour := cfg.monoShades[i.val]

/-- The constraints a configuration must meet (00_scope.md R10). -/
structure Valid (cfg : Config) : Prop where
  romBank : cfg.hdrRamSize < cfg.romBankSize
  noiseShort : 0 < cfg.noiseShortLen
  noiseTable : cfg.noiseShortLen < cfg.noiseTableLen
  sampleRate : 0 < cfg.sampleRate
  phaseOne : 0 < cfg.phaseOne
  safeCycle : 1 ≤ cfg.safeCycleLength
  white : cfg.monoShade 0 = 0xFFFFFFFF
  shadesOpaque : ∀ i : Fin 4, Opaque (cfg.monoShade i)

/-- `NOISE_TABLE`: "an uninterpreted function"; no proof may depend on a bit of it (45_apu_render.md R364;
notes/assumptions/9.md). FREE VALUE. -/
opaque noiseTable : Nat → Bool

/-- The draw on the input port where no caller has put one: FREE VALUE (44_apu_registers.md R321; notes/assumptions/8.md). -/
opaque freeDraw : Nat → Nat

end Config
end Sys2Proof
end

