-- ==== Sys2Proof/Syntax.lean ====
section
/-! DEFINITION. The operations of the dispatch surface (spec/30_encoding.md R121): one constructor per row of
spec/opcode_table.json. An operand is the field of the command word that carries it, at the field's full width
(R122, R123); whether it lies in the operation's domain is WellFormed.lean's question and is checked again by the operation
itself. Out-of-band operands and draws are not here: they accompany the word as inputs of the step (R122). -/

namespace Sys2Proof

/-- One call of the dispatch surface, as its command word gives it. -/
inductive Instr where
  /-- `writeControlRegister` (R202). -/
  | writeControlRegister (d : Byte)
  /-- `writeVram` (R203). -/
  | writeVram (a : BitVec 32) (d : Byte)
  /-- `setVramBank` (R204). -/
  | setVramBank (b : Byte)
  /-- `setColorPalette` (R205). -/
  | setColorPalette (i : BitVec 32) (d : Byte)
  /-- `setMonoPalette` (R206). -/
  | setMonoPalette (s : BitVec 32) (d : Byte)
  /-- `writeOam` (R207). -/
  | writeOam (a : BitVec 32) (d : Byte)
  /-- `notifyScanline` (R251). -/
  | notifyScanline (line : BitVec 32)
  /-- `endFrame` (R267). -/
  | endFrame
  /-- `mirrorWrite` (R405). -/
  | mirrorWrite (r : BitVec 32) (d : Byte)
  /-- `tick` (R401). -/
  | tick
  /-- `setSpeed` (R402). -/
  | setSpeed (n : BitVec 32)
  /-- `ioWrite(0x10, d)`: channel 1 sweep (R303). -/
  | ioWriteR10 (d : Byte)
  /-- `ioWrite(0x11, d)`: channel 1 duty and length (R304). -/
  | ioWriteR11 (d : Byte)
  /-- `ioWrite(0x12, d)`: channel 1 envelope (R305). -/
  | ioWriteR12 (d : Byte)
  /-- `ioWrite(0x13, d)`: channel 1 frequency low (R306). -/
  | ioWriteR13 (d : Byte)
  /-- `ioWrite(0x14, d)`: channel 1 frequency high and control (R307). -/
  | ioWriteR14 (d : Byte)
  /-- `ioWrite(0x15, d)`: unused register (R308). -/
  | ioWriteR15 (d : Byte)
  /-- `ioWrite(0x16, d)`: channel 2 duty and length (R309). -/
  | ioWriteR16 (d : Byte)
  /-- `ioWrite(0x17, d)`: channel 2 envelope (R310). -/
  | ioWriteR17 (d : Byte)
  /-- `ioWrite(0x18, d)`: channel 2 frequency low (R311). -/
  | ioWriteR18 (d : Byte)
  /-- `ioWrite(0x19, d)`: channel 2 frequency high and control (R312). -/
  | ioWriteR19 (d : Byte)
  /-- `ioWrite(0x1A, d)`: channel 3 on/off (R314). -/
  | ioWriteR1A (d : Byte)
  /-- `ioWrite(0x1B, d)`: channel 3 length (R315). -/
  | ioWriteR1B (d : Byte)
  /-- `ioWrite(0x1C, d)`: channel 3 volume (R316). -/
  | ioWriteR1C (d : Byte)
  /-- `ioWrite(0x1D, d)`: channel 3 frequency low (R317). -/
  | ioWriteR1D (d : Byte)
  /-- `ioWrite(0x1E, d)`: channel 3 frequency high and control (R318). -/
  | ioWriteR1E (d : Byte)
  /-- `ioWrite(0x1F, d)`: unused register (R319). -/
  | ioWriteR1F (d : Byte)
  /-- `ioWrite(0x20, d)`: channel 4 length (R322). -/
  | ioWriteR20 (d : Byte)
  /-- `ioWrite(0x21, d)`: channel 4 envelope (R323). -/
  | ioWriteR21 (d : Byte)
  /-- `ioWrite(0x22, d)`: channel 4 polynomial (R324). -/
  | ioWriteR22 (d : Byte)
  /-- `ioWrite(0x23, d)`: channel 4 control (R325). -/
  | ioWriteR23 (d : Byte)
  /-- `ioWrite(0x24, d)`: master volume (stored only) (R326). -/
  | ioWriteR24 (d : Byte)
  /-- `ioWrite(0x25, d)`: routing (R327). -/
  | ioWriteR25 (d : Byte)
  /-- `setChannelEnable` (R328). -/
  | setChannelEnable (n : BitVec 32) (e : Bool)
  /-- `setSoundEnabled` (R329). -/
  | setSoundEnabled (e : Bool)
  /-- `render` (R352). -/
  | render (count : BitVec 32)
  /-- `load` (R152); out of band: bytes. -/
  | load
  /-- `hasBattery` (R163). -/
  | hasBattery
  /-- `tickRtc` (R170); out of band: now. -/
  | tickRtc
  /-- `skipRtc` (R173); out of band: seconds. -/
  | skipRtc
  /-- `dumpSave` (R175); out of band: now. -/
  | dumpSave
  /-- `loadSave` (R176); out of band: bytes, now. -/
  | loadSave
  /-- `romRead` (R164). -/
  | romRead (b : BitVec 16) (o : BitVec 32)
  /-- `ramRead` (R165). -/
  | ramRead (b : BitVec 16) (o : BitVec 32)
  /-- `ramWrite` (R166). -/
  | ramWrite (b : BitVec 16) (o : BitVec 32) (d : Byte)
  /-- `rtcRead` (R167). -/
  | rtcRead (i : BitVec 32)
  /-- `rtcWrite` (R168). -/
  | rtcWrite (i : BitVec 32) (d : Byte)
deriving DecidableEq, Repr

end Sys2Proof
end

