-- ==== Sys2Proof/Decode.lean ====
section
/-! DEFINITION. Decoding of command words (spec/30_encoding.md R122 to R124), total, with the rejections of R123 by name,
and the encoder written from the same tables. A word with OP 0x20 whose B is no register number of `ioWrite` decodes too
(R124): its verdict is `ioWriteOutside`, which is no row of the opcode table and so no `Instr` (notes/assumptions/6.md). -/

namespace Sys2Proof

/-- Why a word is no command (30_encoding.md R123). -/
inductive Reject where
  /-- `OP` is not in R121. -/
  | unknownOp (op : Byte)
  /-- A field the operation does not use is not zero. -/
  | unusedFieldNotZero
deriving DecidableEq, Repr

/-- What a command word is. -/
inductive Verdict where
  /-- A call of a row of the opcode table. -/
  | instr (i : Instr)
  /-- `ioWrite(r, d)` with `r` outside 0x10..0x25 (R124). -/
  | ioWriteOutside (r : BitVec 32) (d : Byte)
  /-- Not a command. -/
  | invalid (why : Reject)
deriving DecidableEq, Repr

/-- The four fields of a command word (R122). -/
structure CmdFields where
  op : Byte
  a : BitVec 16
  b : BitVec 32
  d : Byte
deriving DecidableEq, Repr

/-- `OP[63:56] A[55:40] B[39:8] D[7:0]` (R122). -/
def CmdFields.of (w : CmdWord) : CmdFields :=
  { op := w.extractLsb' 56 8, a := w.extractLsb' 40 16, b := w.extractLsb' 8 32, d := w.extractLsb' 0 8 }

/-- The verdict `v` if the unused fields are zero (R123). -/
def CmdFields.gate (_f : CmdFields) (unusedZero : Bool) (v : Verdict) : Verdict :=
  if unusedZero then v else .invalid .unusedFieldNotZero

/-- Format CW.0: no operand. -/
def CmdFields.form0 (f : CmdFields) (i : Instr) : Verdict :=
  f.gate (f.a == 0 && f.b == 0 && f.d == 0) (.instr i)

/-- Format CW.D: the data byte. -/
def CmdFields.formD (f : CmdFields) (k : Byte → Instr) : Verdict :=
  f.gate (f.a == 0 && f.b == 0) (.instr (k f.d))

/-- Format CW.E: the flag `D[0]`; `D[7:1]` is unused (R123). -/
def CmdFields.formE (f : CmdFields) (k : Bool → Instr) : Verdict :=
  f.gate (f.a == 0 && f.b == 0 && f.d.extractLsb' 1 7 == 0) (.instr (k (f.d.getLsbD 0)))

/-- Format CW.B. -/
def CmdFields.formB (f : CmdFields) (k : BitVec 32 → Instr) : Verdict :=
  f.gate (f.a == 0 && f.d == 0) (.instr (k f.b))

/-- Format CW.BD. -/
def CmdFields.formBD (f : CmdFields) (k : BitVec 32 → Byte → Instr) : Verdict :=
  f.gate (f.a == 0) (.instr (k f.b f.d))

/-- Format CW.BE: B and the flag `D[0]`. -/
def CmdFields.formBE (f : CmdFields) (k : BitVec 32 → Bool → Instr) : Verdict :=
  f.gate (f.a == 0 && f.d.extractLsb' 1 7 == 0) (.instr (k f.b (f.d.getLsbD 0)))

/-- Format CW.AB. -/
def CmdFields.formAB (f : CmdFields) (k : BitVec 16 → BitVec 32 → Instr) : Verdict :=
  f.gate (f.d == 0) (.instr (k f.a f.b))

/-- Format CW.ABD: every field is used. -/
def CmdFields.formABD (f : CmdFields) (k : BitVec 16 → BitVec 32 → Byte → Instr) : Verdict :=
  f.gate true (.instr (k f.a f.b f.d))

/-- Second-level decode of `ioWrite` on the register number (R124). -/
def ioWriteVerdict (r : BitVec 32) (d : Byte) : Verdict :=
  match r.toNat with
  | 0x10 => .instr (.ioWriteR10 d)
  | 0x11 => .instr (.ioWriteR11 d)
  | 0x12 => .instr (.ioWriteR12 d)
  | 0x13 => .instr (.ioWriteR13 d)
  | 0x14 => .instr (.ioWriteR14 d)
  | 0x15 => .instr (.ioWriteR15 d)
  | 0x16 => .instr (.ioWriteR16 d)
  | 0x17 => .instr (.ioWriteR17 d)
  | 0x18 => .instr (.ioWriteR18 d)
  | 0x19 => .instr (.ioWriteR19 d)
  | 0x1A => .instr (.ioWriteR1A d)
  | 0x1B => .instr (.ioWriteR1B d)
  | 0x1C => .instr (.ioWriteR1C d)
  | 0x1D => .instr (.ioWriteR1D d)
  | 0x1E => .instr (.ioWriteR1E d)
  | 0x1F => .instr (.ioWriteR1F d)
  | 0x20 => .instr (.ioWriteR20 d)
  | 0x21 => .instr (.ioWriteR21 d)
  | 0x22 => .instr (.ioWriteR22 d)
  | 0x23 => .instr (.ioWriteR23 d)
  | 0x24 => .instr (.ioWriteR24 d)
  | 0x25 => .instr (.ioWriteR25 d)
  | _ => .ioWriteOutside r d

/-- The verdict on the fields of a word, by `OP` (R121, R123). -/
def CmdFields.verdict (f : CmdFields) : Verdict :=
  match f.op.toNat with
  | 0x01 => f.formD .writeControlRegister
  | 0x02 => f.formBD .writeVram
  | 0x03 => f.formD .setVramBank
  | 0x04 => f.formBD .setColorPalette
  | 0x05 => f.formBD .setMonoPalette
  | 0x06 => f.formBD .writeOam
  | 0x07 => f.formB .notifyScanline
  | 0x08 => f.form0 .endFrame
  | 0x10 => f.formBD .mirrorWrite
  | 0x11 => f.form0 .tick
  | 0x12 => f.formB .setSpeed
  | 0x20 => f.gate (f.a == 0) (ioWriteVerdict f.b f.d)
  | 0x21 => f.formBE .setChannelEnable
  | 0x22 => f.formE .setSoundEnabled
  | 0x23 => f.formB .render
  | 0x30 => f.form0 .load
  | 0x31 => f.form0 .hasBattery
  | 0x32 => f.form0 .tickRtc
  | 0x33 => f.form0 .skipRtc
  | 0x34 => f.form0 .dumpSave
  | 0x35 => f.form0 .loadSave
  | 0x36 => f.formAB .romRead
  | 0x37 => f.formAB .ramRead
  | 0x38 => f.formABD .ramWrite
  | 0x39 => f.formB .rtcRead
  | 0x3A => f.formBD .rtcWrite
  | _ => .invalid (.unknownOp f.op)

/-- The decoder of command words, total (R123). -/
def decode (w : CmdWord) : Verdict := (CmdFields.of w).verdict

/-- The word with the given fields (R122). -/
def pack (op : Byte) (a : BitVec 16) (b : BitVec 32) (d : Byte) : CmdWord :=
  op ++ a ++ b ++ d

/-- A flag operand as the byte `D`: `D[0]` is the flag, `D[7:1]` zero (R123). -/
def flagByte (e : Bool) : Byte := if e then 1 else 0

/-- The command word of a call (R121 to R124). -/
def encode : Instr → CmdWord
  | .writeControlRegister d => pack 0x01 0 0 d
  | .writeVram b d => pack 0x02 0 b d
  | .setVramBank d => pack 0x03 0 0 d
  | .setColorPalette b d => pack 0x04 0 b d
  | .setMonoPalette b d => pack 0x05 0 b d
  | .writeOam b d => pack 0x06 0 b d
  | .notifyScanline b => pack 0x07 0 b 0
  | .endFrame => pack 0x08 0 0 0
  | .mirrorWrite b d => pack 0x10 0 b d
  | .tick => pack 0x11 0 0 0
  | .setSpeed b => pack 0x12 0 b 0
  | .ioWriteR10 d => pack 0x20 0 0x10 d
  | .ioWriteR11 d => pack 0x20 0 0x11 d
  | .ioWriteR12 d => pack 0x20 0 0x12 d
  | .ioWriteR13 d => pack 0x20 0 0x13 d
  | .ioWriteR14 d => pack 0x20 0 0x14 d
  | .ioWriteR15 d => pack 0x20 0 0x15 d
  | .ioWriteR16 d => pack 0x20 0 0x16 d
  | .ioWriteR17 d => pack 0x20 0 0x17 d
  | .ioWriteR18 d => pack 0x20 0 0x18 d
  | .ioWriteR19 d => pack 0x20 0 0x19 d
  | .ioWriteR1A d => pack 0x20 0 0x1A d
  | .ioWriteR1B d => pack 0x20 0 0x1B d
  | .ioWriteR1C d => pack 0x20 0 0x1C d
  | .ioWriteR1D d => pack 0x20 0 0x1D d
  | .ioWriteR1E d => pack 0x20 0 0x1E d
  | .ioWriteR1F d => pack 0x20 0 0x1F d
  | .ioWriteR20 d => pack 0x20 0 0x20 d
  | .ioWriteR21 d => pack 0x20 0 0x21 d
  | .ioWriteR22 d => pack 0x20 0 0x22 d
  | .ioWriteR23 d => pack 0x20 0 0x23 d
  | .ioWriteR24 d => pack 0x20 0 0x24 d
  | .ioWriteR25 d => pack 0x20 0 0x25 d
  | .setChannelEnable b e => pack 0x21 0 b (flagByte e)
  | .setSoundEnabled e => pack 0x22 0 0 (flagByte e)
  | .render b => pack 0x23 0 b 0
  | .load => pack 0x30 0 0 0
  | .hasBattery => pack 0x31 0 0 0
  | .tickRtc => pack 0x32 0 0 0
  | .skipRtc => pack 0x33 0 0 0
  | .dumpSave => pack 0x34 0 0 0
  | .loadSave => pack 0x35 0 0 0
  | .romRead a b => pack 0x36 a b 0
  | .ramRead a b => pack 0x37 a b 0
  | .ramWrite a b d => pack 0x38 a b d
  | .rtcRead b => pack 0x39 0 b 0
  | .rtcWrite b d => pack 0x3A 0 b d

/-- The instruction the decoder reads from a table row's bits: `nbits` bits of `w`, the rest of the 64-bit command word
zero. Bit `k` of `w` is bit `k` of the word; a word is one unit of 64 bits, so no byte order enters (notes/assumptions/5.md). -/
def decodeTableWord (nbits w : Nat) : Option Instr :=
  match decode (BitVec.ofNat 64 (w % 2 ^ nbits)) with
  | .instr i => some i
  | .ioWriteOutside _ _ => none
  | .invalid _ => none

end Sys2Proof
end

