-- ==== Sys2Proof/Machine/State.lean ====
section
/-! DEFINITION. The state of the block as plain data (spec/10_state.md R20 to R48), what it holds at reset (R49), and the
model's three ports to the caller: the calls still to come, the inputs that accompany the call being made, and the result
of the last call (00_scope.md R6 to R8; notes/assumptions/1.md to 3.md). -/

namespace Sys2Proof.Machine

/-- A byte space: cells at rising addresses, an unlisted address reading 0x00 (10_state.md R49, R50; 41_cartridge.md R152). -/
abbrev Memory := List Host.Cell

/-- The frame buffer: pixels at rising flat indices `160*y + x`, an unlisted pixel being WHITE (10_state.md R34, R49). -/
abbrev FrameBuf := List (Nat × Colour)

/-- The layer a tile is resolved for (00_scope.md R16). -/
inductive Kind where
  | bg
  | obj
deriving DecidableEq, Repr

/-- `CacheKey = (kind, n, attr)` (10_state.md R32). -/
structure CacheKey where
  kind : Kind
  n : Nat
  attr : Byte
deriving DecidableEq, Repr

/-- `CacheEntry = Pixels(64 colours) | Transparent` (10_state.md R32). -/
inductive CacheEntry where
  | pixels (pix : Vector Colour 64)
  | transparent
deriving DecidableEq, Repr

/-- The decoded-tile cache: a partial map, its keys in rising order (10_state.md R32). -/
abbrev Cache := List (CacheKey × CacheEntry)

/-- PPU state (10_state.md R25 to R34). -/
structure Ppu where
  vram0 : Memory
  vram1 : Memory
  vramBank : BitVec 1
  oam : Memory
  lcdc : Byte
  monoPal : Vector Colour 12
  colRaw : Vector Byte 128
  colPal : Vector Colour 64
  cache : Cache
  fb : FrameBuf
deriving DecidableEq, Repr

/-- A length counter: `Continuous` or `Remaining k` (10_state.md R36). -/
inductive Length where
  | continuous
  | remaining (k : Nat)
deriving DecidableEq, Repr

/-- The fields every channel has (10_state.md R36). `route`: bit 0 LEFT, bit 1 RIGHT, bit 2 MONO. -/
structure Voice where
  phase : Nat
  cycleLen : Nat
  length : Length
  route : BitVec 3
deriving DecidableEq, Repr

/-- The envelope fields of channels 1, 2 and 4 (10_state.md R36). -/
structure Envelope where
  amp : Nat
  step : Nat
  ctr : Nat
  up : Bool
deriving DecidableEq, Repr

/-- A square channel (10_state.md R37). -/
structure Square where
  voice : Voice
  env : Envelope
  freq : Nat
  dutyThr : Nat
deriving DecidableEq, Repr

/-- The sweep fields of channel 1 (10_state.md R38). -/
structure Sweep where
  period : Nat
  shift : Nat
  down : Bool
  ctr : Nat
deriving DecidableEq, Repr

/-- The wave channel (10_state.md R39). -/
structure Wave where
  voice : Voice
  freq : Nat
  volCode : Nat
  dacOn : Bool
deriving DecidableEq, Repr

/-- The noise channel (10_state.md R40). -/
structure Noise where
  voice : Voice
  env : Envelope
  stepLen : Nat
  shortMode : Bool
  offset : Nat
deriving DecidableEq, Repr

/-- APU state (10_state.md R35 to R40). `chEnabled[n-1]` is `ch_enabled[n]`; `sweep` belongs to channel 1. -/
structure Apu where
  sndEnabled : Bool
  chEnabled : Vector Bool 4
  ch1 : Square
  sweep : Sweep
  ch2 : Square
  ch3 : Wave
  ch4 : Noise
deriving DecidableEq, Repr

/-- The five RTC registers `rtc[0..4]` (10_state.md R46). -/
structure Rtc where
  sec : Byte
  min : Byte
  hour : Byte
  dayLow : Byte
  dayHigh : Byte
deriving DecidableEq, Repr

/-- A Cartridge (10_state.md R44 to R47). Bank `b`, offset `o` of `rom` is cell `b * ROM_BANK_SIZE + o`, and likewise for
`ram` (notes/assumptions/12.md). -/
structure Cartridge where
  nrom : Nat
  rom : Memory
  nram : Nat
  ram : Memory
  typeCode : Byte
  colour : Bool
  battery : Bool
  rtc : Rtc
  rtcLast : Option (BitVec 64)
deriving DecidableEq, Repr

/-- The pacing gate (10_state.md R48). -/
structure Pace where
  counter : Nat
  divisor : Nat
deriving DecidableEq, Repr

/-- The two fault names (60_exceptions.md R410). A fault is the RESULT of the call that raises it and the block goes on
(R413, notes/assumptions/4.md), so a fault of this type stands in `State.result`, and no step ends in
`Host.Outcome.fault`. -/
inductive Fault where
  /-- Raised by `load` alone, for an undefined ROM size byte (60_exceptions.md R414). Safe: the spec states it. -/
  | invalidCartridge
  /-- Raised by the operations of 60_exceptions.md R411 for an operand outside its domain. Safe: the spec states it. -/
  | invalidArgument
deriving DecidableEq, Repr

/-- What a call ends with (00_scope.md R7, 30_encoding.md R121). The model's own output port. -/
inductive Result where
  /-- No value; also `endFrame` with the gate closed (43_ppu_scanline.md R267). -/
  | none
  | bool (b : Bool)
  | byte (v : Byte)
  | bytes (l : List Byte)
  | frame (fb : FrameBuf)
  | fault (f : Fault)
deriving DecidableEq, Repr

/-- The inputs of a step that are not in the command word: out-of-band operands (30_encoding.md R122) and the draw
(44_apu_registers.md R321, a FREE VALUE, taken modulo `NOISE_TABLE_LEN` where it is used). -/
structure Inputs where
  bytes : List Byte
  now : BitVec 64
  seconds : BitVec 64
  draw : Nat
deriving DecidableEq, Repr

/-- A call the caller makes: a command word and the inputs that accompany it (30_encoding.md R122). -/
structure Call where
  word : CmdWord
  inputs : Inputs
deriving DecidableEq, Repr

/-- Why a call has no meaning. -/
inductive Refusal where
  /-- An instruction without a meaning in the model; no arm of `exec` answers it. -/
  | notModelled (mnemonic : String)
  /-- A cartridge operation while `cart = none`: "refused: this spec gives it no meaning" (60_exceptions.md R412).
  Safe: nothing can be proved of what follows. -/
  | noCartridge
  /-- Raised by `step` for a word with an `OP` outside 30_encoding.md R121: "is not a command" (R123). Safe. -/
  | unknownOp
  /-- Raised by `step` for a word with a non-zero unused field: "is not a command" (R123). Safe. -/
  | unusedFieldNotZero
deriving DecidableEq, Repr

/-- The state record (10_state.md R20), the configuration the machine has (00_scope.md R8 c, R10; no call changes it), and the
model's ports `pending`, `inputs`, `result`. -/
structure State where
  config : Config
  io : Vector Byte 128
  ppu : Ppu
  apu : Apu
  cart : Option Cartridge
  pace : Pace
  pending : List Call
  inputs : Inputs
  result : Result
deriving DecidableEq, Repr

/-- PPU at reset (10_state.md R49). -/
def Ppu.reset (cfg : Config) : Ppu :=
  { vram0 := [], vram1 := [], vramBank := 0, oam := [], lcdc := 0x00
    monoPal := Vector.replicate 12 (cfg.monoShade 0)
    colRaw := Vector.replicate 128 0x00
    colPal := Vector.replicate 64 0xFF000000
    cache := [], fb := [] }

/-- The common channel fields at reset (10_state.md R49). -/
def Voice.reset (cfg : Config) : Voice :=
  { phase := 0, cycleLen := cfg.safeCycleLength, length := .remaining 0, route := 0 }

/-- The envelope fields at reset (10_state.md R49). -/
def Envelope.reset : Envelope := { amp := 0, step := 0, ctr := 0, up := false }

/-- A square channel at reset (10_state.md R49). -/
def Square.reset (cfg : Config) : Square := { voice := Voice.reset cfg, env := Envelope.reset, freq := 0, dutyThr := 1 }

/-- APU at reset (10_state.md R49). -/
def Apu.reset (cfg : Config) : Apu :=
  { sndEnabled := true
    chEnabled := Vector.replicate 4 true
    ch1 := Square.reset cfg
    sweep := { period := 0, shift := 0, down := false, ctr := 0 }
    ch2 := Square.reset cfg
    ch3 := { voice := Voice.reset cfg, freq := 0, volCode := 0, dacOn := false }
    ch4 :=
      { voice := { Voice.reset cfg with cycleLen := cfg.safeCycleLength * cfg.noiseTableLen }
        env := Envelope.reset
        stepLen := cfg.safeCycleLength
        shortMode := false
        offset := 0 } }

/-- The input port before any call (notes/assumptions/2.md, 8.md): DESIGN CHOICE, and a draw nothing is known of. -/
def Inputs.reset : Inputs :=
  { bytes := [], now := 0, seconds := 0, draw := Config.freeDraw 0 }

/-- A machine of the given configuration right after reset (10_state.md R49, 70_reset_and_hazards.md R440). -/
def State.resetOf (cfg : Config) : State :=
  { config := cfg
    io := Vector.replicate 128 0x00
    ppu := Ppu.reset cfg
    apu := Apu.reset cfg
    cart := none
    pace := { counter := 0, divisor := 1 }
    pending := []
    inputs := Inputs.reset
    result := .none }

/-- The machine of the default configuration right after reset (00_scope.md R10). -/
def State.reset : State := State.resetOf Config.default

end Sys2Proof.Machine
end

