-- ==== Sys2Proof/Machine/Ops.lean ====
section
/-! DEFINITION. The named operations over the memories, the register file, the tile cache and the ports: one home for every
read and write (spec/20_memory.md R80 to R90), for ending a call and for raising a fault (60_exceptions.md R413), and for
taking the next call (00_scope.md R6). -/

namespace Sys2Proof.Machine

/-- What a step of the machine ends with. -/
abbrev Out := Host.Outcome State Fault Refusal

/-! ### Maps kept as lists of key and value, in rising order of a code of the key -/

section Maps
variable {κ α : Type}

/-- The value under key `k`, if any. -/
def lookupKey [DecidableEq κ] : List (κ × α) → κ → Option α
  | [], _ => none
  | e :: r, k => if e.1 = k then some e.2 else lookupKey r k

/-- The map without the keys that satisfy `p`. -/
def removeKeys (m : List (κ × α)) (p : κ → Bool) : List (κ × α) :=
  m.filter fun e => !p e.1

/-- Put `(k, v)` before the first key of a higher code. -/
def insertKey (code : κ → Nat) : List (κ × α) → κ → α → List (κ × α)
  | [], k, v => [(k, v)]
  | e :: r, k, v => if code k < code e.1 then (k, v) :: e :: r else e :: insertKey code r k v

/-- The keys' codes rise strictly. -/
abbrev KeysRise (code : κ → Nat) (m : List (κ × α)) : Prop :=
  m.Pairwise fun x y => code x.1 < code y.1

end Maps

/-! ### Byte memories -/

/-- What an unlisted address reads as (10_state.md R49, R50; zero padding of 41_cartridge.md R152). -/
def Memory.unlisted : Byte := 0x00

/-- Read one byte. -/
def Memory.read (m : Memory) (a : Nat) : Byte := (lookupKey m a).getD Memory.unlisted

/-- Store one byte; storing what an unlisted address reads as removes the cell. -/
def Memory.write (m : Memory) (a : Nat) (v : Byte) : Memory :=
  if v = Memory.unlisted then removeKeys m (· == a) else insertKey id (removeKeys m (· == a)) a v

/-- The cells of the bytes `l` laid out from address `a` on. -/
def Memory.cellsFrom : Nat → List Byte → Memory
  | _, [] => []
  | a, v :: r => if v = Memory.unlisted then cellsFrom (a + 1) r else (a, v) :: cellsFrom (a + 1) r

/-- The memory that holds the bytes `l` from address 0 on, and nothing else. -/
def Memory.ofBytes (l : List Byte) : Memory := Memory.cellsFrom 0 l

/-- `m` with the bytes `l` stored from address 0 on; the rest of `m` as before. -/
def Memory.overlay (m : Memory) (l : List Byte) : Memory :=
  Memory.ofBytes l ++ removeKeys m fun a => decide (a < l.length)

/-- The first `n` bytes, in order. -/
def Memory.toBytes (m : Memory) (n : Nat) : List Byte := (List.range n).map m.read

/-- The canonical form: addresses rise strictly and no cell holds what an unlisted address reads as. -/
abbrev Memory.wf (m : Memory) : Prop :=
  KeysRise id m ∧ ∀ c ∈ m, c.2 ≠ Memory.unlisted

/-- Every listed address lies below `size`. -/
abbrev Memory.below (m : Memory) (size : Nat) : Prop := ∀ c ∈ m, c.1 < size

/-! ### The frame buffer -/

/-- The pixel at flat index `k` (10_state.md R34). -/
def FrameBuf.read (fb : FrameBuf) (k : Nat) : Colour := (lookupKey fb k).getD white

/-- The pixel at line `y`, column `x`: `fb[y][x]`. -/
def FrameBuf.pixel (fb : FrameBuf) (y x : Nat) : Colour := fb.read (160 * y + x)

/-- The cells of the 160 pixels of line `y`, WHITE ones not listed. -/
def FrameBuf.lineCells (y : Nat) (line : Nat → Colour) : FrameBuf :=
  (List.range 160).filterMap fun x => if line x = white then none else some (160 * y + x, line x)

/-- Store line `y`; every other line as before. -/
def FrameBuf.setLine (fb : FrameBuf) (y : Nat) (line : Nat → Colour) : FrameBuf :=
  (removeKeys fb fun k => decide (160 * y ≤ k)) ++ FrameBuf.lineCells y line ++
    removeKeys fb fun k => decide (k < 160 * y + 160)

/-- The canonical form of a frame buffer: indices rise, no cell is WHITE, every index names a pixel of the raster. -/
abbrev FrameBuf.wf (fb : FrameBuf) : Prop :=
  KeysRise id fb ∧ (∀ c ∈ fb, c.2 ≠ white) ∧ ∀ c ∈ fb, c.1 < 160 * 144

/-! ### The tile cache -/

/-- The order in which keys are listed: kind, then tile number, then attribute. -/
def CacheKey.code (k : CacheKey) : Nat :=
  (match k.kind with | .bg => 0 | .obj => 768 * 256) + 256 * k.n + k.attr.toNat

/-- The entry under a key, if present. -/
def Cache.find (c : Cache) (k : CacheKey) : Option CacheEntry := lookupKey c k

/-- `cache[k] <- e`. -/
def Cache.put (c : Cache) (k : CacheKey) (e : CacheEntry) : Cache :=
  insertKey CacheKey.code (removeKeys c (· == k)) k e

/-- Remove every key that satisfies `p` (20_memory.md R104, R106). -/
def Cache.invalidate (c : Cache) (p : CacheKey → Bool) : Cache := removeKeys c p

/-! ### PPU memories -/

/-- `vram[bank][a]`. -/
def Ppu.vramRead (p : Ppu) (bank a : Nat) : Byte :=
  if bank = 0 then p.vram0.read a else p.vram1.read a

/-- `vram[vram_bank][a] <- d`. -/
def Ppu.vramWrite (p : Ppu) (a : Nat) (d : Byte) : Ppu :=
  if p.vramBank = 0 then { p with vram0 := p.vram0.write a d } else { p with vram1 := p.vram1.write a d }

/-- `oam[a]`. -/
def Ppu.oamRead (p : Ppu) (a : Nat) : Byte := p.oam.read a

/-- `oam[a] <- d`. -/
def Ppu.oamWrite (p : Ppu) (a : Nat) (d : Byte) : Ppu := { p with oam := p.oam.write a d }

/-! ### The shared register file -/

/-- `io[r]`. Every register number a rule reads is below 128 (10_state.md R23). -/
def State.ioRead (s : State) (r : Nat) : Byte := s.io[r]?.getD 0x00

/-- `io[r] <- d`. -/
def State.ioStore (s : State) (r : Nat) (d : Byte) : State := { s with io := s.io.setIfInBounds r d }

/-! ### The draw -/

/-- `noise_offset_draw`: a free value in `0 .. NOISE_TABLE_LEN-1` (00_scope.md R8 b, 44_apu_registers.md R321). -/
def State.noiseDraw (s : State) : Nat := s.inputs.draw % s.config.noiseTableLen

/-! ### RTC registers by index -/

/-- `rtc[i]`, `i` in 0..4 (10_state.md R46). -/
def Rtc.get (r : Rtc) (i : Nat) : Byte :=
  match i with
  | 0 => r.sec
  | 1 => r.min
  | 2 => r.hour
  | 3 => r.dayLow
  | _ => r.dayHigh

/-- `rtc[i] <- d`, `i` in 0..4. -/
def Rtc.put (r : Rtc) (i : Nat) (d : Byte) : Rtc :=
  match i with
  | 0 => { r with sec := d }
  | 1 => { r with min := d }
  | 2 => { r with hour := d }
  | 3 => { r with dayLow := d }
  | _ => { r with dayHigh := d }

/-! ### Ending a call -/

/-- The call ends normally with result `r` (00_scope.md R7 a). -/
def finish (r : Result) (s : State) : Out := .next { s with result := r }

/-- Taking a fault: "the fault name is the operation's result; the whole state ... is exactly what it was before the call",
and the block is ready for the next call (60_exceptions.md R413). There is no return from it (R418). -/
def raise (f : Fault) (s : State) : Out := .next { s with result := .fault f }

/-- Run `k` on the loaded cartridge; with none loaded the call is refused (60_exceptions.md R412), before any operand check
(R417). -/
def withCart (s : State) (k : Cartridge → Out) : Out :=
  match s.cart with
  | none => .refused .noCartridge
  | some c => k c

/-- The call ends normally with a new cartridge record. -/
def finishCart (c : Cartridge) (s : State) : Out := finish .none { s with cart := some c }

/-! ### The next call -/

/-- Take a call from the front of the queue: its inputs are latched and the rest of the queue stays (00_scope.md R6, R8). -/
def State.latch (s : State) (c : Call) (rest : List Call) : State :=
  { s with pending := rest, inputs := c.inputs }

/-- Why a word that is no command is refused (30_encoding.md R123). -/
def refuseWord : Reject → Refusal
  | .unknownOp _ => .unknownOp
  | .unusedFieldNotZero => .unusedFieldNotZero

end Sys2Proof.Machine
end

