-- ==== Sys2Proof/Machine/Operands.lean ====
section
/-! DEFINITION. Operand forms: bit fields of a byte (spec/00_scope.md R12) and every value assembled from more than one place
(spec/30_encoding.md R125). -/

namespace Sys2Proof.Machine

/-- `v[hi:lo]`: the unsigned value of bits `hi` down to `lo` (00_scope.md R12). -/
def bits (v hi lo : Nat) : Nat := (v >>> lo) % 2 ^ (hi + 1 - lo)

/-- `d[hi:lo]` of a byte. -/
def Byte.bits (d : Byte) (hi lo : Nat) : Nat := Sys2Proof.Machine.bits d.toNat hi lo

/-- `d[i]` of a byte. -/
def Byte.bit (d : Byte) (i : Nat) : Bool := d.getLsbD i

/-- `sext8(b)`: the signed value of a byte (00_scope.md R12). -/
def sext8 (b : Byte) : Int := b.toInt

/-- `asr(v, n)`: floor of `v / 2^n` (00_scope.md R12). -/
def asr (v : Int) (n : Nat) : Int := v / (2 : Int) ^ n

/-- A 0 or 1 as a number. -/
def bitNat (b : Bool) : Nat := if b then 1 else 0

/-- R125 (a): the 11-bit frequency value `256 * high[2:0] + low`. -/
def freqValue (high low : Byte) : Nat := 256 * Byte.bits high 2 0 + low.toNat

/-- R125 (b), channels 1, 2, 4: length load `(64 - L[5:0]) div 4`. -/
def lengthLoad64 (d : Byte) : Nat := (64 - Byte.bits d 5 0) / 4

/-- R125 (b), channel 3: length load `(256 - L) div 4`. -/
def lengthLoad256 (d : Byte) : Nat := (256 - d.toNat) / 4

/-- R125 (c): amplitude from the initial volume `e[7:4]`. -/
def amplitude (e : Byte) : Nat := 2 * Byte.bits e 7 4

/-- R125 (d): duty threshold, `DUTY = [1, 2, 4, 6]`. -/
def duty (code : Nat) : Nat :=
  match code with
  | 0 => 1
  | 1 => 2
  | 2 => 4
  | _ => 6

/-- R125 (e): sweep period from the sweep time. -/
def sweepPeriod (t : Nat) : Nat := (t + 1) / 2

/-- R125 (f): noise frequency from ratio `r` and shift `s` (44_apu_registers.md R320). -/
def noiseFreq (cfg : Config) (r s : Nat) : Nat :=
  if r = 0 then (2 * cfg.nzBase) >>> (s + 1) else (cfg.nzBase / r) >>> (s + 1)

/-- R125 (g): palette slot of table entry `e`; 0..7 background, 8..15 sprite. -/
def paletteSlot (e : Nat) : Nat := e / 4

/-- R125 (h): tile number from bank and tile position. -/
def tileNumber (bank t : Nat) : Nat := 384 * bank + t

/-- R94: the tile a background or window index byte names. -/
def mapTile (unsignedIndex : Bool) (i : Byte) : Nat :=
  if unsignedIndex then i.toNat else (256 + sext8 i).toNat

/-- R125 (i): the 9-bit day counter, `day()`. -/
def Rtc.day (r : Rtc) : Nat := r.dayLow.toNat + 256 * bitNat (Byte.bit r.dayHigh 0)

/-- R125 (j), 41_cartridge.md R151: ROM bank count from the ROM size byte; none where undefined. -/
def romBanks (v : Byte) : Option Nat :=
  if v.toNat ≤ 7 then some (2 <<< v.toNat)
  else if v = 0x52 then some 72
  else if v = 0x53 then some 80
  else if v = 0x54 then some 96
  else none

/-- R125 (k), 41_cartridge.md R154: RAM bank count from the RAM size byte, total. -/
def ramBanks (v : Byte) : Nat :=
  if v = 1 ∨ v = 2 then 1
  else if v = 3 then 4
  else if v = 4 ∨ v = 5 ∨ v = 6 then 16
  else 1

/-- `be32(w)`: four bytes, most significant first (00_scope.md R12). -/
def be32 (w : Nat) : List Byte :=
  [BitVec.ofNat 8 (w / 2 ^ 24), BitVec.ofNat 8 (w / 2 ^ 16), BitVec.ofNat 8 (w / 2 ^ 8), BitVec.ofNat 8 w]

/-- A byte sequence read most significant byte first. -/
def beValue (l : List Byte) : Nat := l.foldl (fun acc b => 256 * acc + b.toNat) 0

/-- R125 (l): timestamp `2^32 * hi + lo` from two groups of four bytes, each most significant byte first. -/
def timestamp (hi lo : List Byte) : Nat := 2 ^ 32 * beValue hi + beValue lo

/-- `bytes[k]`, 0 beyond the end (41_cartridge.md R152). -/
def byteAt (l : List Byte) (k : Nat) : Byte := l.getD k 0

end Sys2Proof.Machine
end

