-- ==== Sys2Proof/Machine/Flags.lean ====
section
/-! DEFINITION. The single-bit status and control flags (spec/10_state.md R24) and the modes derived from them: LCD control
fields (R28), attribute bits of map positions and sprites (20_memory.md R95, R97), routing bits (10_state.md R36), RTC halt and
carry (R46), colour mode (R33), battery (R45). -/

namespace Sys2Proof.Machine

/-! ### LCD control (10_state.md R28) -/

def Ppu.lcdEnable (p : Ppu) : Bool := Byte.bit p.lcdc 7
def Ppu.winMapSelect (p : Ppu) : Bool := Byte.bit p.lcdc 6
def Ppu.winEnable (p : Ppu) : Bool := Byte.bit p.lcdc 5
def Ppu.tileDataSelect (p : Ppu) : Bool := Byte.bit p.lcdc 4
def Ppu.bgMapSelect (p : Ppu) : Bool := Byte.bit p.lcdc 3
def Ppu.spriteSize (p : Ppu) : Bool := Byte.bit p.lcdc 2
def Ppu.spriteEnable (p : Ppu) : Bool := Byte.bit p.lcdc 1
def Ppu.bgEnable (p : Ppu) : Bool := Byte.bit p.lcdc 0

/-! ### Attribute bytes (20_memory.md R95, R97) -/

/-- Bit 7: a map position's priority; a sprite's priority flag (behind). -/
def attrPriority (a : Byte) : Bool := Byte.bit a 7
def attrVflip (a : Byte) : Bool := Byte.bit a 6
def attrHflip (a : Byte) : Bool := Byte.bit a 5
/-- Bit 4: a sprite's mono palette. -/
def attrMonoPal (a : Byte) : Bool := Byte.bit a 4
/-- Bit 3: VRAM bank of the tile's data. -/
def attrBank (a : Byte) : Bool := Byte.bit a 3
/-- Bits 2:0: colour palette. -/
def attrPalette (a : Byte) : Nat := Byte.bits a 2 0

/-! ### Modes derived from the cartridge -/

/-- `colour_mode = (cart is not none) and cart.colour` (10_state.md R33). -/
def State.colourMode (s : State) : Bool :=
  match s.cart with
  | none => false
  | some c => c.colour

/-- `battery = type_code ∈ BATTERY_TYPES` (10_state.md R45, 41_cartridge.md R163). -/
def batteryFlag (cfg : Config) (typeCode : Byte) : Bool := cfg.batteryTypes.contains typeCode

/-! ### Routing (10_state.md R36) -/

def Voice.routeLeft (v : Voice) : Bool := v.route.getLsbD 0
def Voice.routeRight (v : Voice) : Bool := v.route.getLsbD 1
def Voice.routeMono (v : Voice) : Bool := v.route.getLsbD 2

/-- The routing mask of a channel from its left and right bits (44_apu_registers.md R327). -/
def routeMask (cfg : Config) (l r : Bool) : BitVec 3 :=
  if cfg.stereo then (if l then 1 else 0) + (if r then 2 else 0)
  else if l || r then 4 else 0

/-! ### RTC flags (10_state.md R46) -/

/-- The halt flag `rtc[4][6]`: "ticking suspended". -/
def Rtc.halt (r : Rtc) : Bool := Byte.bit r.dayHigh 6

/-- The day-counter carry flag `rtc[4][7]`. -/
def Rtc.carry (r : Rtc) : Bool := Byte.bit r.dayHigh 7

/-- Set the carry flag if `overflow`; the clock never clears it (41_cartridge.md R169). -/
def Rtc.orCarry (r : Rtc) (overflow : Bool) : Rtc :=
  if overflow then { r with dayHigh := r.dayHigh ||| 0x80 } else r

/-- `rtc[3] <- d[7:0]; rtc[4][0] <- d[8]`; bits 7:1 of `rtc[4]` stay (41_cartridge.md R172). -/
def Rtc.putDay (r : Rtc) (d : Nat) : Rtc :=
  { r with
    dayLow := BitVec.ofNat 8 d
    dayHigh := (r.dayHigh &&& 0xFE) ||| BitVec.ofNat 8 (bits d 8 8) }

end Sys2Proof.Machine
end

