-- ==== Sys2Proof/Machine/ApuRegs.lean ====
section
/-! DEFINITION. The APU register dispatch and the enables (spec/44_apu_registers.md R300 to R329). -/

namespace Sys2Proof.Machine

/-! ### Helpers (R302) -/

/-- A rate `f` in Hz as a length in phase units; a zero rate gives the safe length (R302, R320). -/
def rateToLength (cfg : Config) (f : Nat) : Nat :=
  if f = 0 then cfg.safeCycleLength else max 1 (cfg.phaseOne * cfg.sampleRate / f)

/-- `cycleLen(base, x)` (R302). -/
def cycleLen (cfg : Config) (base x : Nat) : Nat :=
  if x ≥ 2048 then cfg.safeCycleLength else rateToLength cfg (base / (2048 - x))

/-- `setCycle(ch, L)` (R302). -/
def Voice.setCycle (v : Voice) (l : Nat) : Voice := { v with cycleLen := l, phase := v.phase % l }

/-- `envelopeSet(ch, e)` (R302). -/
def envelopeSet (e : Byte) : Envelope :=
  { amp := amplitude e, step := Byte.bits e 2 0, ctr := 0, up := Byte.bit e 3 }

/-- `ch.length <- l`. -/
def Voice.setLength (v : Voice) (l : Length) : Voice := { v with length := l }

/-- Bit 6 of a control byte clear: `ch.length <- Continuous` (R307). -/
def Voice.applyLengthEnable (v : Voice) (d : Byte) : Voice :=
  if Byte.bit d 6 then v else v.setLength .continuous

/-- A length load of channels 1, 2 and 4 (R304). -/
def Voice.loadLength64 (v : Voice) (d : Byte) : Voice := v.setLength (.remaining (lengthLoad64 d))

/-- A length load of channel 3 (R315). -/
def Voice.loadLength256 (v : Voice) (d : Byte) : Voice := v.setLength (.remaining (lengthLoad256 d))

/-- Duty and length byte of a square channel (R304). -/
def Square.putDutyLength (c : Square) (d : Byte) : Square :=
  { c with dutyThr := duty (Byte.bits d 7 6), voice := c.voice.loadLength64 d }

/-- Envelope byte of a square channel (R305). -/
def Square.putEnvelope (c : Square) (d : Byte) : Square := { c with env := envelopeSet d }

/-- A new frequency value of a square channel (R306, R356). -/
def Square.putFreq (cfg : Config) (c : Square) (x : Nat) : Square :=
  { c with freq := x, voice := c.voice.setCycle (cycleLen cfg cfg.sqBase x) }

/-- Control byte of a square channel; the other three are its siblings in the register file (R307). -/
def Square.putControl (cfg : Config) (c : Square) (d dutyLength envelope freqLow : Byte) : Square :=
  let c := if Byte.bit d 7 then { c with voice := c.voice.loadLength64 dutyLength, env := envelopeSet envelope } else c
  let c := { c with voice := c.voice.applyLengthEnable d }
  c.putFreq cfg (freqValue d freqLow)

/-- A new frequency value of the wave channel (R317). -/
def Wave.putFreq (cfg : Config) (c : Wave) (x : Nat) : Wave :=
  { c with freq := x, voice := c.voice.setCycle (cycleLen cfg cfg.wvBase x) }

/-- Control byte of the wave channel (R318). -/
def Wave.putControl (cfg : Config) (c : Wave) (d length freqLow : Byte) : Wave :=
  let c := if Byte.bit d 7 then { c with voice := c.voice.loadLength256 length } else c
  let c := { c with voice := c.voice.applyLengthEnable d }
  c.putFreq cfg (freqValue d freqLow)

/-- Table entries per noise cycle (R320). -/
def noiseEntries (cfg : Config) (short : Bool) : Nat := if short then cfg.noiseShortLen else cfg.noiseTableLen

/-- `noiseSet(p)` (R320). -/
def Noise.noiseSet (cfg : Config) (c : Noise) (p : Byte) : Noise :=
  let short := Byte.bit p 3
  let len := rateToLength cfg (noiseFreq cfg (Byte.bits p 2 0) (Byte.bits p 7 4))
  { c with shortMode := short, stepLen := len, voice := c.voice.setCycle (len * noiseEntries cfg short) }

/-- `noiseRestart()`, with the draw the call brings (R321). -/
def Noise.noiseRestart (c : Noise) (draw : Nat) : Noise :=
  { c with offset := if c.shortMode then draw else 0 }

/-- Control byte of the noise channel (R325). -/
def Noise.putControl (c : Noise) (d length envelope : Byte) (draw : Nat) : Noise :=
  let c :=
    if Byte.bit d 7 then
      { c with voice := c.voice.loadLength64 length, env := envelopeSet envelope }.noiseRestart draw
    else c
  { c with voice := c.voice.applyLengthEnable d }

/-- Routing of one channel from register 0x25 (R327); `n` is the channel number. -/
def Voice.putRoute (cfg : Config) (v : Voice) (d : Byte) (n : Nat) : Voice :=
  { v with route := routeMask cfg (Byte.bit d (3 + n)) (Byte.bit d (n - 1)) }

/-! ### The common part -/

/-- `ioWrite(r, d)` for a register number of the table: the mirror first, then the register's own effect on the APU, which
sees the new byte (R301). -/
def ioWriteReg (r : Nat) (d : Byte) (effect : State → Apu) (s : State) : Out :=
  let s := s.ioStore r d
  finish .none { s with apu := effect s }

/-- `ioWrite(r, d)` with `r` outside 0x10..0x25 (R301, 30_encoding.md R124). -/
def execIoWriteOutside (_r : BitVec 32) (_d : Byte) (s : State) : Out := raise .invalidArgument s

/-! ### Channel 1 -/

/-- Channel 1 sweep (R303). -/
def execIoWriteR10 (d : Byte) (s : State) : Out :=
  ioWriteReg 0x10 d
    (fun s => { s.apu with
      sweep := { period := sweepPeriod (Byte.bits d 6 4), down := Byte.bit d 3, shift := Byte.bits d 2 0, ctr := 0 } }) s

/-- Channel 1 duty and length (R304). -/
def execIoWriteR11 (d : Byte) (s : State) : Out :=
  ioWriteReg 0x11 d (fun s => { s.apu with ch1 := s.apu.ch1.putDutyLength d }) s

/-- Channel 1 envelope (R305). -/
def execIoWriteR12 (d : Byte) (s : State) : Out :=
  ioWriteReg 0x12 d (fun s => { s.apu with ch1 := s.apu.ch1.putEnvelope d }) s

/-- Channel 1 frequency low (R306). -/
def execIoWriteR13 (d : Byte) (s : State) : Out :=
  ioWriteReg 0x13 d (fun s => { s.apu with ch1 := s.apu.ch1.putFreq s.config (freqValue (s.ioRead 0x14) d) }) s

/-- Channel 1 frequency high and control (R307). -/
def execIoWriteR14 (d : Byte) (s : State) : Out :=
  ioWriteReg 0x14 d
    (fun s => { s.apu with ch1 := s.apu.ch1.putControl s.config d (s.ioRead 0x11) (s.ioRead 0x12) (s.ioRead 0x13) }) s

/-- Register 0x15 (R308). -/
def execIoWriteR15 (d : Byte) (s : State) : Out := ioWriteReg 0x15 d (fun s => s.apu) s

/-! ### Channel 2 -/

/-- Channel 2 duty and length (R309). -/
def execIoWriteR16 (d : Byte) (s : State) : Out :=
  ioWriteReg 0x16 d (fun s => { s.apu with ch2 := s.apu.ch2.putDutyLength d }) s

/-- Channel 2 envelope (R310). -/
def execIoWriteR17 (d : Byte) (s : State) : Out :=
  ioWriteReg 0x17 d (fun s => { s.apu with ch2 := s.apu.ch2.putEnvelope d }) s

/-- Channel 2 frequency low (R311). -/
def execIoWriteR18 (d : Byte) (s : State) : Out :=
  ioWriteReg 0x18 d (fun s => { s.apu with ch2 := s.apu.ch2.putFreq s.config (freqValue (s.ioRead 0x19) d) }) s

/-- Channel 2 frequency high and control (R312). -/
def execIoWriteR19 (d : Byte) (s : State) : Out :=
  ioWriteReg 0x19 d
    (fun s => { s.apu with ch2 := s.apu.ch2.putControl s.config d (s.ioRead 0x16) (s.ioRead 0x17) (s.ioRead 0x18) }) s

/-! ### Channel 3 -/

/-- Channel 3 on/off (R314). -/
def execIoWriteR1A (d : Byte) (s : State) : Out :=
  ioWriteReg 0x1A d (fun s => { s.apu with ch3 := { s.apu.ch3 with dacOn := Byte.bit d 7 } }) s

/-- Channel 3 length (R315). -/
def execIoWriteR1B (d : Byte) (s : State) : Out :=
  ioWriteReg 0x1B d (fun s => { s.apu with ch3 := { s.apu.ch3 with voice := s.apu.ch3.voice.loadLength256 d } }) s

/-- Channel 3 volume (R316). -/
def execIoWriteR1C (d : Byte) (s : State) : Out :=
  ioWriteReg 0x1C d (fun s => { s.apu with ch3 := { s.apu.ch3 with volCode := Byte.bits d 6 5 } }) s

/-- Channel 3 frequency low (R317). -/
def execIoWriteR1D (d : Byte) (s : State) : Out :=
  ioWriteReg 0x1D d (fun s => { s.apu with ch3 := s.apu.ch3.putFreq s.config (freqValue (s.ioRead 0x1E) d) }) s

/-- Channel 3 frequency high and control (R318). -/
def execIoWriteR1E (d : Byte) (s : State) : Out :=
  ioWriteReg 0x1E d
    (fun s => { s.apu with ch3 := s.apu.ch3.putControl s.config d (s.ioRead 0x1B) (s.ioRead 0x1D) }) s

/-- Register 0x1F (R319). -/
def execIoWriteR1F (d : Byte) (s : State) : Out := ioWriteReg 0x1F d (fun s => s.apu) s

/-! ### Channel 4 -/

/-- Channel 4 length (R322). -/
def execIoWriteR20 (d : Byte) (s : State) : Out :=
  ioWriteReg 0x20 d (fun s => { s.apu with ch4 := { s.apu.ch4 with voice := s.apu.ch4.voice.loadLength64 d } }) s

/-- Channel 4 envelope (R323). -/
def execIoWriteR21 (d : Byte) (s : State) : Out :=
  ioWriteReg 0x21 d (fun s => { s.apu with ch4 := { s.apu.ch4 with env := envelopeSet d } }) s

/-- Channel 4 polynomial (R324). -/
def execIoWriteR22 (d : Byte) (s : State) : Out :=
  ioWriteReg 0x22 d (fun s => { s.apu with ch4 := (s.apu.ch4.noiseSet s.config d).noiseRestart s.noiseDraw }) s

/-- Channel 4 control (R325). -/
def execIoWriteR23 (d : Byte) (s : State) : Out :=
  ioWriteReg 0x23 d
    (fun s => { s.apu with ch4 := s.apu.ch4.putControl d (s.ioRead 0x20) (s.ioRead 0x21) s.noiseDraw }) s

/-! ### Control registers and enables -/

/-- Master volume: stored only (R326). -/
def execIoWriteR24 (d : Byte) (s : State) : Out := ioWriteReg 0x24 d (fun s => s.apu) s

/-- Routing (R327). -/
def execIoWriteR25 (d : Byte) (s : State) : Out :=
  ioWriteReg 0x25 d
    (fun s => { s.apu with
      ch1 := { s.apu.ch1 with voice := s.apu.ch1.voice.putRoute s.config d 1 }
      ch2 := { s.apu.ch2 with voice := s.apu.ch2.voice.putRoute s.config d 2 }
      ch3 := { s.apu.ch3 with voice := s.apu.ch3.voice.putRoute s.config d 3 }
      ch4 := { s.apu.ch4 with voice := s.apu.ch4.voice.putRoute s.config d 4 } }) s

/-- `setChannelEnable(n, e)` (R328). -/
def execSetChannelEnable (n : BitVec 32) (e : Bool) (s : State) : Out :=
  if n.toNat < 1 ∨ n.toNat > 4 then raise .invalidArgument s
  else finish .none { s with apu := { s.apu with chEnabled := s.apu.chEnabled.setIfInBounds (n.toNat - 1) e } }

/-- `setSoundEnabled(e)` (R329). -/
def execSetSoundEnabled (e : Bool) (s : State) : Out :=
  finish .none { s with apu := { s.apu with sndEnabled := e } }

end Sys2Proof.Machine
end

