-- ==== Sys2Proof/Machine/Pace.lean ====
section
/-! DEFINITION. The pacing gate and the register file write (spec/46_pacing_gate.md R400 to R405). -/

namespace Sys2Proof.Machine

/-- `tick()`: whether the gate opens, and the counter after the call (R401). -/
def Pace.tick (p : Pace) : Bool × Pace :=
  if p.counter + 1 ≥ p.divisor then (true, { p with counter := 0 })
  else (false, { p with counter := p.counter + 1 })

/-- `tick()` (R401). -/
def execTick (s : State) : Out :=
  let t := s.pace.tick
  finish (.bool t.1) { s with pace := t.2 }

/-- `setSpeed(n)`, `n` signed (R402). -/
def execSetSpeed (n : BitVec 32) (s : State) : Out :=
  if n.toInt ≤ 0 then raise .invalidArgument s
  else finish .none { s with pace := { counter := 0, divisor := n.toInt.toNat } }

/-- `mirrorWrite(r, d)` (R405). -/
def execMirrorWrite (r : BitVec 32) (d : Byte) (s : State) : Out :=
  if r.toNat > 0x7F then raise .invalidArgument s
  else finish .none (s.ioStore r.toNat d)

end Sys2Proof.Machine
end

