-- ==== Sys2Proof/Machine/ApuRender.lean ====
section
/-! DEFINITION. The APU sample generator and mixer (spec/45_apu_render.md R350 to R365). `buf` is kept by sample frame; `off`
is always 0 in `render` (R354) and is left out (notes/assumptions/20.md). -/

namespace Sys2Proof.Machine

/-- One sample frame of `buf`: its left, right and mono lanes; the two of the stereo form or the one of the mono form are
emitted (R353, R359). -/
structure LaneFrame where
  left : Int
  right : Int
  mono : Int
deriving DecidableEq, Repr

/-- `mix(buf, i, route, v)` on frame `i` (R359). -/
def LaneFrame.mix (cfg : Config) (f : LaneFrame) (ch : Voice) (v : Int) : LaneFrame :=
  if cfg.stereo then
    { f with
      left := if ch.routeLeft then f.left + v else f.left
      right := if ch.routeRight then f.right + v else f.right }
  else { f with mono := if ch.routeMono then f.mono + v else f.mono }

/-- The per-sample loop of a channel over the frames of `buf`; `sample` gives the value at a phase (R354). -/
def sampleLoop (cfg : Config) (sample : Nat → Int) : Voice → List LaneFrame → Voice × List LaneFrame
  | v, [] => (v, [])
  | v, f :: r =>
    let f' := f.mix cfg v (sample v.phase)
    let v' := { v with phase := (v.phase + cfg.phaseOne) % v.cycleLen }
    let t := sampleLoop cfg sample v' r
    (t.1, f' :: t.2)

/-- The length counter at the start of a tick: `none` when exhausted, else the voice with the counter taken down
(R354, R355). -/
def Voice.lengthTick (v : Voice) : Option Voice :=
  match v.length with
  | .remaining 0 => none
  | .remaining (k + 1) => some (v.setLength (.remaining k))
  | .continuous => some v

/-- The envelope, once per tick (R357). -/
def Envelope.tick (e : Envelope) : Envelope :=
  if e.step = 0 then e
  else if e.ctr + 1 ≥ e.step then
    { e with ctr := 0, amp := if e.up then min (e.amp + 2) 32 else e.amp - 2 }
  else { e with ctr := e.ctr + 1 }

/-- The frequency value after one sweep step (R356). -/
def Sweep.next (w : Sweep) (freq : Nat) : Nat :=
  if w.down then freq - freq >>> w.shift else min (freq + freq >>> w.shift) 2048

/-- The sweep of channel 1, once per tick (R356). -/
def sweepTick (cfg : Config) (w : Sweep) (c : Square) : Sweep × Square :=
  if w.period = 0 then (w, c)
  else if w.ctr + 1 ≥ w.period then ({ w with ctr := 0 }, c.putFreq cfg (w.next c.freq))
  else ({ w with ctr := w.ctr + 1 }, c)

/-- Square sample at a phase (R358). -/
def Square.sample (c : Square) (phase : Nat) : Int :=
  if 8 * phase / c.voice.cycleLen < c.dutyThr then (c.env.amp : Int) else -(c.env.amp : Int)

/-- The samples of a square channel (R354, R358). -/
def Square.loop (cfg : Config) (c : Square) (buf : List LaneFrame) : Square × List LaneFrame :=
  let t := sampleLoop cfg c.sample c.voice buf
  ({ c with voice := t.1 }, t.2)

/-- `chRender_1` (R354): length, sweep, envelope, samples. -/
def chRender1 (cfg : Config) (w : Sweep) (c : Square) (buf : List LaneFrame) : Sweep × Square × List LaneFrame :=
  match c.voice.lengthTick with
  | none => (w, c, buf)
  | some v =>
    let t := sweepTick cfg w { c with voice := v }
    let u := { t.2 with env := t.2.env.tick }.loop cfg buf
    (t.1, u.1, u.2)

/-- `chRender_2` (R354). -/
def chRender2 (cfg : Config) (c : Square) (buf : List LaneFrame) : Square × List LaneFrame :=
  match c.voice.lengthTick with
  | none => (c, buf)
  | some v => { c with voice := v, env := c.env.tick }.loop cfg buf

/-- The 4-bit wave sample at a phase; `table` is the register file (R362). -/
def Wave.nibble (c : Wave) (table : Nat → Byte) (phase : Nat) : Nat :=
  let k := 32 * phase / c.voice.cycleLen
  let b := table (0x30 + k / 2)
  if k % 2 = 0 then Byte.bits b 7 4 else Byte.bits b 3 0

/-- The value of a 4-bit sample under the volume code (R362). -/
def Wave.level (c : Wave) (s : Nat) : Int :=
  if !c.dacOn || c.volCode == 0 then 0 else asr (((s : Int) - 8) * 4) (c.volCode - 1)

/-- Wave sample at a phase (R362). -/
def Wave.sample (c : Wave) (table : Nat → Byte) (phase : Nat) : Int := c.level (c.nibble table phase)

/-- `chRender_3` (R354, R361). -/
def chRender3 (cfg : Config) (table : Nat → Byte) (c : Wave) (buf : List LaneFrame) : Wave × List LaneFrame :=
  match c.voice.lengthTick with
  | none => (c, buf)
  | some v =>
    let c := { c with voice := v }
    let t := sampleLoop cfg (c.sample table) c.voice buf
    ({ c with voice := t.1 }, t.2)

/-- Noise sample at a phase (R363). -/
def Noise.sample (cfg : Config) (c : Noise) (phase : Nat) : Int :=
  if Config.noiseTable ((c.offset + phase / c.stepLen) % cfg.noiseTableLen) then (c.env.amp : Int)
  else -(c.env.amp : Int)

/-- `chRender_4` (R354). -/
def chRender4 (cfg : Config) (c : Noise) (buf : List LaneFrame) : Noise × List LaneFrame :=
  match c.voice.lengthTick with
  | none => (c, buf)
  | some v =>
    let c := { c with voice := v, env := c.env.tick }
    let t := sampleLoop cfg (c.sample cfg) c.voice buf
    ({ c with voice := t.1 }, t.2)

/-- `ch_enabled[n]` (10_state.md R35). -/
def Apu.enabled (a : Apu) (n : Nat) : Bool := a.chEnabled[n - 1]?.getD false

/-- Channel 1's part of a tick, if it is enabled (R352). -/
def Apu.step1 (cfg : Config) (t : Apu × List LaneFrame) : Apu × List LaneFrame :=
  if t.1.enabled 1 then
    let u := chRender1 cfg t.1.sweep t.1.ch1 t.2
    ({ t.1 with sweep := u.1, ch1 := u.2.1 }, u.2.2)
  else t

/-- Channel 2's part of a tick (R352). -/
def Apu.step2 (cfg : Config) (t : Apu × List LaneFrame) : Apu × List LaneFrame :=
  if t.1.enabled 2 then
    let u := chRender2 cfg t.1.ch2 t.2
    ({ t.1 with ch2 := u.1 }, u.2)
  else t

/-- Channel 3's part of a tick (R352). -/
def Apu.step3 (cfg : Config) (table : Nat → Byte) (t : Apu × List LaneFrame) : Apu × List LaneFrame :=
  if t.1.enabled 3 then
    let u := chRender3 cfg table t.1.ch3 t.2
    ({ t.1 with ch3 := u.1 }, u.2)
  else t

/-- Channel 4's part of a tick (R352). -/
def Apu.step4 (cfg : Config) (t : Apu × List LaneFrame) : Apu × List LaneFrame :=
  if t.1.enabled 4 then
    let u := chRender4 cfg t.1.ch4 t.2
    ({ t.1 with ch4 := u.1 }, u.2)
  else t

/-- One tick: the four channels in order, mixed into `count` silent frames (R352). -/
def Apu.tick (cfg : Config) (a : Apu) (table : Nat → Byte) (count : Nat) : Apu × List LaneFrame :=
  let buf := List.replicate count { left := 0, right := 0, mono := 0 }
  if a.sndEnabled then Apu.step4 cfg (Apu.step3 cfg table (Apu.step2 cfg (Apu.step1 cfg (a, buf)))) else (a, buf)

/-- A lane value as an output byte: `buf[j] + 128` (R352, R353). -/
def pcmByte (v : Int) : Byte := BitVec.ofInt 8 (v + 128)

/-- The output bytes of one sample frame (R353). -/
def LaneFrame.toBytes (cfg : Config) (f : LaneFrame) : List Byte :=
  if cfg.stereo then [pcmByte f.left, pcmByte f.right] else [pcmByte f.mono]

/-- The PCM chunk (R352, R353). -/
def pcmBytes (cfg : Config) (buf : List LaneFrame) : List Byte := buf.flatMap (LaneFrame.toBytes cfg)

/-- `render(count)`, `count` signed (R352). -/
def execRender (count : BitVec 32) (s : State) : Out :=
  if count.toInt < 0 then raise .invalidArgument s
  else
    let g := s.pace.tick
    if g.1 then
      let t := s.apu.tick s.config s.ioRead count.toInt.toNat
      finish (.bytes (pcmBytes s.config t.2)) { s with pace := g.2, apu := t.1 }
    else finish (.bytes []) { s with pace := g.2 }

end Sys2Proof.Machine
end

