-- ==== Sys2Proof/Machine/Cart.lean ====
section
/-! DEFINITION. The cartridge: loading, bank-relative access, the real-time clock and the save image
(spec/41_cartridge.md R150 to R178). -/

namespace Sys2Proof.Machine

/-! ### Loading -/

/-- The cartridge `load` makes of an image whose ROM size byte gives `nrom` banks (R152, 10_state.md R50). -/
def Cartridge.ofImage (cfg : Config) (nrom : Nat) (image : List Byte) : Cartridge :=
  let typeCode := byteAt image cfg.hdrType
  { nrom := nrom
    rom := Memory.ofBytes (image.take (nrom * cfg.romBankSize))
    nram := ramBanks (byteAt image cfg.hdrRamSize)
    ram := []
    typeCode := typeCode
    colour := Byte.bit (byteAt image cfg.hdrColour) 7
    battery := batteryFlag cfg typeCode
    rtc := { sec := 0, min := 0, hour := 0, dayLow := 0, dayHigh := 0 }
    rtcLast := none }

/-- `load(bytes)` (R152, R153). -/
def execLoad (s : State) : Out :=
  match romBanks (byteAt s.inputs.bytes s.config.hdrRomSize) with
  | none => raise .invalidCartridge s
  | some nrom =>
    finish .none
      { s with cart := some (Cartridge.ofImage s.config nrom s.inputs.bytes), ppu := { s.ppu with cache := [] } }

/-- `hasBattery()` (R163). -/
def execHasBattery (s : State) : Out := withCart s fun c => finish (.bool c.battery) s

/-! ### Bank-relative access -/

/-- `rom[b][o]`. -/
def Cartridge.romByte (cfg : Config) (c : Cartridge) (b o : Nat) : Byte := c.rom.read (b * cfg.romBankSize + o)

/-- `ram[b][o]`. -/
def Cartridge.ramByte (cfg : Config) (c : Cartridge) (b o : Nat) : Byte := c.ram.read (b * cfg.ramBankSize + o)

/-- `ram[b][o] <- d`. -/
def Cartridge.putRam (cfg : Config) (c : Cartridge) (b o : Nat) (d : Byte) : Cartridge :=
  { c with ram := c.ram.write (b * cfg.ramBankSize + o) d }

/-- The bytes of RAM, `nram * RAM_BANK_SIZE` (10_state.md R44). -/
def Cartridge.ramSize (cfg : Config) (c : Cartridge) : Nat := c.nram * cfg.ramBankSize

/-- `romRead(b, o)` (R164). -/
def execRomRead (b : BitVec 16) (o : BitVec 32) (s : State) : Out :=
  withCart s fun c =>
    if b.toNat ≥ c.nrom ∨ o.toNat ≥ s.config.romBankSize then raise .invalidArgument s
    else finish (.byte (c.romByte s.config b.toNat o.toNat)) s

/-- `ramRead(b, o)` (R165). -/
def execRamRead (b : BitVec 16) (o : BitVec 32) (s : State) : Out :=
  withCart s fun c =>
    if b.toNat ≥ c.nram ∨ o.toNat ≥ s.config.ramBankSize then raise .invalidArgument s
    else finish (.byte (c.ramByte s.config b.toNat o.toNat)) s

/-- `ramWrite(b, o, d)` (R166). -/
def execRamWrite (b : BitVec 16) (o : BitVec 32) (d : Byte) (s : State) : Out :=
  withCart s fun c =>
    if b.toNat ≥ c.nram ∨ o.toNat ≥ s.config.ramBankSize then raise .invalidArgument s
    else finishCart (c.putRam s.config b.toNat o.toNat d) s

/-! ### The real-time clock -/

/-- `advanceSecond()`, the carry chain (R172). -/
def Rtc.advanceSecond (r : Rtc) : Rtc :=
  if r.sec.toNat + 1 ≥ 60 then
    let r := { r with sec := 0 }
    if r.min.toNat + 1 ≥ 60 then
      let r := { r with min := 0 }
      if r.hour.toNat + 1 ≥ 24 then
        let r := { r with hour := 0 }
        let d := r.day + 1
        if d > 511 then (r.orCarry true).putDay 0 else r.putDay d
      else { r with hour := r.hour + 1 }
    else { r with min := r.min + 1 }
  else { r with sec := r.sec + 1 }

/-- `advanceSecond()` `k` times: the catch-up loop of `tickRtc` (R170). -/
def Rtc.advanceSeconds : Nat → Rtc → Rtc
  | 0, r => r
  | k + 1, r => advanceSeconds k r.advanceSecond

/-- The bulk catch-up by `n` seconds, `n` at least 1 and the clock not halted (R173). -/
def Rtc.bulkAdvance (r : Rtc) (n : Nat) : Rtc :=
  let t := r.sec.toNat + n
  let m := r.min.toNat + t / 60
  let h := r.hour.toNat + m / 60
  let d := r.day + h / 24
  let r := { r with
    sec := BitVec.ofNat 8 (t % 60)
    min := BitVec.ofNat 8 (m % 60)
    hour := BitVec.ofNat 8 (h % 24) }
  (r.orCarry (decide (d > 511))).putDay (d % 512)

/-- `skipRtc(seconds)` on the registers (R173). -/
def Rtc.skip (r : Rtc) (seconds : Int) : Rtc :=
  if seconds ≤ 0 ∨ r.halt = true then r else r.bulkAdvance seconds.toNat

/-- `rtcRead(i)` (R167). -/
def execRtcRead (i : BitVec 32) (s : State) : Out :=
  withCart s fun c =>
    if i.toNat > 4 then raise .invalidArgument s else finish (.byte (c.rtc.get i.toNat)) s

/-- `rtcWrite(i, d)` (R168). -/
def execRtcWrite (i : BitVec 32) (d : Byte) (s : State) : Out :=
  withCart s fun c =>
    if i.toNat > 4 then raise .invalidArgument s
    else finishCart { c with rtc := c.rtc.put i.toNat d } s

/-- `tickRtc(now)` on the cartridge (R170). With `t0 = rtc_last` and `t0 ≤ now` the loop runs `(now - t0) div 1000` times. -/
def Cartridge.tickRtc (c : Cartridge) (now : BitVec 64) : Cartridge :=
  match c.rtcLast with
  | none => { c with rtcLast := some now }
  | some t0 =>
    if c.rtc.halt then { c with rtcLast := some now }
    else if now.toNat < t0.toNat then { c with rtcLast := some now }
    else
      let k := (now.toNat - t0.toNat) / 1000
      { c with rtcLast := some (BitVec.ofNat 64 (t0.toNat + 1000 * k)), rtc := c.rtc.advanceSeconds k }

/-- `tickRtc(now)` (R170). -/
def execTickRtc (s : State) : Out :=
  withCart s fun c => finishCart (c.tickRtc s.inputs.now) s

/-- `skipRtc(seconds)` (R173). -/
def execSkipRtc (s : State) : Out :=
  withCart s fun c => finishCart { c with rtc := c.rtc.skip s.inputs.seconds.toInt } s

/-! ### The save image -/

/-- The five RTC bytes of the trailer (R175). -/
def Rtc.bytes (r : Rtc) : List Byte := [r.sec, r.min, r.hour, r.dayLow, r.dayHigh]

/-- The save image (R175). -/
def Cartridge.saveImage (cfg : Config) (c : Cartridge) (now : BitVec 64) : List Byte :=
  c.ram.toBytes (c.ramSize cfg) ++ c.rtc.bytes ++ be32 (now.toNat / 2 ^ 32) ++ be32 (now.toNat % 2 ^ 32)

/-- `dumpSave(now)` (R175). -/
def execDumpSave (s : State) : Out :=
  withCart s fun c => finish (.bytes (c.saveImage s.config s.inputs.now)) s

/-- The registers in a trailer (R176). -/
def Rtc.ofBytes (l : List Byte) : Rtc :=
  { sec := byteAt l 0, min := byteAt l 1, hour := byteAt l 2, dayLow := byteAt l 3, dayHigh := byteAt l 4 }

/-- The RTC of a trailer with the offline seconds applied (R176). -/
def restoredRtc (trailer : List Byte) (now : BitVec 64) : Rtc :=
  let ts := timestamp ((trailer.drop 5).take 4) ((trailer.drop 9).take 4)
  let r := Rtc.ofBytes trailer
  if now.toNat ≥ ts then r.skip (((now.toNat - ts) / 1000 : Nat) : Int) else r

/-- `loadSave(bytes, now)` on the cartridge (R176). -/
def Cartridge.loadSave (cfg : Config) (c : Cartridge) (l : List Byte) (now : BitVec 64) : Cartridge :=
  let ram := c.ram.overlay (l.take (c.ramSize cfg))
  if l.length = c.ramSize cfg + 13 then
    { c with ram := ram, rtc := restoredRtc (l.drop (c.ramSize cfg)) now, rtcLast := some now }
  else { c with ram := ram }

/-- `loadSave(bytes, now)` (R176). -/
def execLoadSave (s : State) : Out :=
  withCart s fun c => finishCart (c.loadSave s.config s.inputs.bytes s.inputs.now) s

end Sys2Proof.Machine
end

