-- ==== Sys2Proof/Machine/Ppu.lean ====
section
/-! DEFINITION. PPU writes, tile decoding, the palette mux and the tile cache (spec/42_ppu_access.md R200 to R215). -/

namespace Sys2Proof.Machine

/-! ### Tile decoding and the palette mux -/

/-- `decodeColour(lo, hi)` (R205, 20_memory.md R98). -/
def decodeColour (lo hi : Byte) : Colour :=
  let v := lo.toNat + 256 * hi.toNat
  BitVec.ofNat 32 (0xFF000000 + 2 ^ 16 * (8 * bits v 4 0) + 2 ^ 8 * (8 * bits v 9 5) + 8 * bits v 14 10)

/-- `INTERLEAVE[b]`: bit `2k` is `b[k]`, odd bits 0 (R210). -/
def interleave (b : Byte) : Nat :=
  (List.range 8).foldl (fun acc k => acc + bitNat (Byte.bit b k) * 2 ^ (2 * k)) 0

/-- `tilePixelIndex(bank, t, hflip, vflip, r, c)`: a colour index 0..3 (R211). -/
def Ppu.tilePixelIndex (p : Ppu) (bank t : Nat) (hflip vflip : Bool) (r c : Nat) : Nat :=
  let r' := if vflip then 7 - r else r
  let c' := if hflip then 7 - c else c
  let lo := p.vramRead bank (16 * t + 2 * r')
  let hi := p.vramRead bank (16 * t + 2 * r' + 1)
  bits (interleave lo + 2 * interleave hi) (2 * (7 - c') + 1) (2 * (7 - c'))

/-- The colour index of tile number `n` under attribute byte `attr`, flips applied (R212). -/
def Ppu.pixelIndex (p : Ppu) (n : Nat) (attr : Byte) (r c : Nat) : Nat :=
  p.tilePixelIndex (n / 384) (n % 384) (attrHflip attr) (attrVflip attr) r c

/-- `paletteMux(kind, attr, idx)` (R213). -/
def Ppu.paletteMux (p : Ppu) (colour : Bool) (kind : Kind) (attr : Byte) (idx : Nat) : Colour :=
  let col :=
    if colour then
      let slot := attrPalette attr + (match kind with | .bg => 0 | .obj => 8)
      p.colPal[4 * slot + idx]?.getD 0
    else
      let slot := match kind with | .bg => 0 | .obj => 1 + bitNat (attrMonoPal attr)
      p.monoPal[4 * slot + idx]?.getD 0
  match kind with
  | .bg => col
  | .obj => if idx = 0 then col - opacityMask else col

/-- The 64 colours of a decoded tile, pixel `8*r + c` at row `r`, column `c` (R212). -/
def Ppu.tileColours (p : Ppu) (colour : Bool) (key : CacheKey) : Vector Colour 64 :=
  Vector.ofFn fun k : Fin 64 =>
    p.paletteMux colour key.kind key.attr (p.pixelIndex key.n key.attr (k.val / 8) (k.val % 8))

/-- Every colour index of the tile is 0 (R212). -/
def Ppu.tileBlank (p : Ppu) (key : CacheKey) : Bool :=
  (List.range 64).all fun k => p.pixelIndex key.n key.attr (k / 8) (k % 8) == 0

/-- `resolveTile(kind, n, attr)` (R212). -/
def Ppu.resolveTile (p : Ppu) (colour : Bool) (key : CacheKey) : CacheEntry :=
  if key.kind = .obj ∧ p.tileBlank key = true then .transparent else .pixels (p.tileColours colour key)

/-- `cacheLookup(kind, n, attr)`: the entry, and the cache after the lookup (R214). `p` gives the memories; its own cache is
not read, the cache is `c`. -/
def Ppu.cacheLookup (p : Ppu) (colour : Bool) (c : Cache) (key : CacheKey) : CacheEntry × Cache :=
  match c.find key with
  | some e => (e, c)
  | none =>
    let e := p.resolveTile colour key
    (e, c.put key e)

/-- The colour a cached block shows at row `r`, column `c`; the marker shows none. -/
def CacheEntry.colourAt (e : CacheEntry) (r c : Nat) : Colour :=
  match e with
  | .pixels pix => pix[8 * r + c]?.getD 0
  | .transparent => 0

/-! ### The operations -/

/-- `writeControlRegister(d)` (R202). -/
def execWriteControlRegister (d : Byte) (s : State) : Out :=
  finish .none { s with ppu := { s.ppu with lcdc := d } }

/-- The cache keys a VRAM write at `a` invalidates: the tile that contains `a` (R203). -/
def vramWriteStales (bank : BitVec 1) (a : Nat) (k : CacheKey) : Bool :=
  a ≤ 0x17FF && k.n == tileNumber bank.toNat (a / 16)

/-- `writeVram(a, d)` (R203). -/
def execWriteVram (a : BitVec 32) (d : Byte) (s : State) : Out :=
  if a.toNat > 0x1FFF then raise .invalidArgument s
  else
    let p := { s.ppu with cache := s.ppu.cache.invalidate (vramWriteStales s.ppu.vramBank a.toNat) }
    finish .none { s with ppu := p.vramWrite a.toNat d }

/-- `setVramBank(b)` (R204). -/
def execSetVramBank (b : Byte) (s : State) : Out :=
  if b.toNat > 1 then raise .invalidArgument s
  else finish .none { s with ppu := { s.ppu with vramBank := BitVec.ofNat 1 b.toNat } }

/-- The cache keys a change of colour-table entry `e` invalidates (R205). -/
def colourWriteStales (e : Nat) (k : CacheKey) : Bool :=
  k.kind == (if paletteSlot e < 8 then .bg else .obj) && attrPalette k.attr == paletteSlot e % 8

/-- The PPU after byte `i` of the raw mirror became `d` (R205). -/
def Ppu.putColour (p : Ppu) (i : Nat) (d : Byte) : Ppu :=
  let raw := p.colRaw.setIfInBounds i d
  let e := i / 2
  let col := decodeColour (raw[2 * e]?.getD 0) (raw[2 * e + 1]?.getD 0)
  { p with
    colRaw := raw
    colPal := p.colPal.setIfInBounds e col
    cache := p.cache.invalidate (colourWriteStales e) }

/-- `setColorPalette(i, d)` (R205). -/
def execSetColorPalette (i : BitVec 32) (d : Byte) (s : State) : Out :=
  if i.toNat > 127 then raise .invalidArgument s
  else if s.ppu.colRaw[i.toNat]? = some d then finish .none s
  else finish .none { s with ppu := s.ppu.putColour i.toNat d }

/-- The cache keys a change of mono palette slot `slot` invalidates (R206). -/
def monoWriteStales (slot : Nat) (k : CacheKey) : Bool :=
  match slot with
  | 0 => k.kind == .bg
  | 1 => k.kind == .obj && !attrMonoPal k.attr
  | _ => k.kind == .obj && attrMonoPal k.attr

/-- `MONO_SHADES[ d[2i+1 : 2i] ]` (R206). -/
def monoShadeOf (cfg : Config) (d : Byte) (i : Nat) : Colour :=
  cfg.monoShade ⟨Byte.bits d (2 * i + 1) (2 * i) % 4, Nat.mod_lt _ (by decide)⟩

/-- The four entries of a mono palette slot from its byte (R206). -/
def Ppu.putMono (cfg : Config) (p : Ppu) (slot : Nat) (d : Byte) : Ppu :=
  { p with
    monoPal := (List.range 4).foldl (fun pal i => pal.setIfInBounds (4 * slot + i) (monoShadeOf cfg d i)) p.monoPal
    cache := p.cache.invalidate (monoWriteStales slot) }

/-- `setMonoPalette(s, d)` (R206). -/
def execSetMonoPalette (slot : BitVec 32) (d : Byte) (s : State) : Out :=
  if slot.toNat > 2 then raise .invalidArgument s
  else finish .none { s with ppu := s.ppu.putMono s.config slot.toNat d }

/-- `writeOam(a, d)` (R207). -/
def execWriteOam (a : BitVec 32) (d : Byte) (s : State) : Out :=
  if a.toNat > 0x9F then raise .invalidArgument s
  else finish .none { s with ppu := s.ppu.oamWrite a.toNat d }

end Sys2Proof.Machine
end

