-- ==== Sys2Proof/Machine/Scanline.lean ====
section
/-! DEFINITION. The scanline compositor and the frame hand-off (spec/43_ppu_scanline.md R250 to R268). The transients of one
`notifyScanline` call (R250) live in `Comp`; line `ly` is composed there and stored into the frame buffer when its six
steps are done, which no one can tell from storing pixel by pixel since the call is atomic (notes/assumptions/16.md). -/

namespace Sys2Proof.Machine

/-- One pixel of the line being composed: the colour `fb[ly][x]` will have and the index `idx[x]` (R250). -/
structure LinePixel where
  col : Colour
  idx : Nat

/-- A tile segment held back for step 5: `(n, attr, r, x0, xhi)` (R255, R258). -/
structure Segment where
  n : Nat
  attr : Byte
  r : Nat
  x0 : Int
  xhi : Int

/-- The transients of one call (R250), with the cache as the call changes it. -/
structure Comp where
  line : Nat → LinePixel
  skipped : List Segment
  cache : Cache

/-- What the steps read besides the transients (R250): the PPU's memories and control register, the mode, and the bytes
SCY, SCX, WY, WX of the register file. -/
structure Scene where
  ppu : Ppu
  colour : Bool
  ly : Nat
  scy : Nat
  scx : Nat
  wy : Nat
  wx : Nat

/-- The scene of line `ly` in state `s` (R250). -/
def Scene.of (s : State) (ly : Nat) : Scene :=
  { ppu := s.ppu, colour := s.colourMode, ly := ly
    scy := (s.ioRead 0x42).toNat, scx := (s.ioRead 0x43).toNat
    wy := (s.ioRead 0x4A).toNat, wx := (s.ioRead 0x4B).toNat }

/-- Step 0, backdrop (R252). -/
def Comp.backdrop (cache : Cache) : Comp :=
  { line := fun _ => { col := white, idx := 0 }, skipped := [], cache := cache }

/-- Step 1: `win_visible` (R253). -/
def Scene.winVisible (v : Scene) : Bool := v.ppu.winEnable && v.wy ≤ v.ly && v.wx ≤ 166

/-- Step 1: `wx0`, signed (R253). -/
def Scene.wx0 (v : Scene) : Int := (v.wx : Int) - 7

/-- `fetchMapTile(sel, mx, my)`: tile number and attribute byte (R254). -/
def Scene.fetchMapTile (v : Scene) (sel : Bool) (mx my : Nat) : Nat × Byte :=
  let a := (if sel then 0x1C00 else 0x1800) + 32 * my + mx
  let i := v.ppu.vramRead 0 a
  let attr := if v.colour then v.ppu.vramRead 1 a else 0x00
  let bank := if v.colour then bitNat (attrBank attr) else 0
  (tileNumber bank (mapTile v.ppu.tileDataSelect i), attr)

/-- `drawSegment(n, attr, r, x0, xhi)` (R256). -/
def Scene.drawSegment (v : Scene) (g : Segment) (k : Comp) : Comp :=
  let e := v.ppu.cacheLookup v.colour k.cache { kind := .bg, n := g.n, attr := g.attr }
  { k with
    cache := e.2
    line := fun x =>
      if g.x0 ≤ (x : Int) ∧ (x : Int) < g.x0 + 8 ∧ (x : Int) ≤ g.xhi ∧ x ≤ 159 then
        let c := ((x : Int) - g.x0).toNat
        { col := e.1.colourAt g.r c, idx := v.ppu.pixelIndex g.n g.attr g.r c }
      else k.line x }

/-- Draw a background or window segment now, or hold it back if it has the priority bit (R255, R258). `heldXhi` is its
right clip when held back. -/
def Scene.placeSegment (v : Scene) (tile : Nat × Byte) (r : Nat) (x0 heldXhi : Int) (k : Comp) : Comp :=
  if v.colour && attrPriority tile.2 then
    { k with skipped := k.skipped ++ [{ n := tile.1, attr := tile.2, r := r, x0 := x0, xhi := heldXhi }] }
  else v.drawSegment { n := tile.1, attr := tile.2, r := r, x0 := x0, xhi := 159 } k

/-- Step 2, background, one tile (R255). -/
def Scene.bgTile (v : Scene) (k : Comp) (col : Nat) : Comp :=
  let plane := (v.ly + v.scy) % 256
  let x0 : Int := 8 * (col : Int) - ((v.scx % 8 : Nat) : Int)
  if x0 > 159 then k
  else
    v.placeSegment (v.fetchMapTile v.ppu.bgMapSelect ((v.scx / 8 + col) % 32) (plane / 8)) (plane % 8) x0
      (if v.winVisible then v.wx0 - 1 else 159) k

/-- Step 2, background (R255). -/
def Scene.background (v : Scene) (k : Comp) : Comp :=
  if v.ppu.bgEnable then (List.range 21).foldl v.bgTile k else k

/-- Step 3, window, one tile (R258). -/
def Scene.winTile (v : Scene) (k : Comp) (col : Nat) : Comp :=
  let row := v.ly - v.wy
  let x0 : Int := v.wx0 + 8 * (col : Int)
  if x0 > 159 then k
  else v.placeSegment (v.fetchMapTile v.ppu.winMapSelect col (row / 8)) (row % 8) x0 159 k

/-- Step 3, window (R258). -/
def Scene.window (v : Scene) (k : Comp) : Comp :=
  if v.winVisible then (List.range 21).foldl v.winTile k else k

/-! ### Sprites -/

/-- A record of the sprite attribute table (20_memory.md R96). -/
structure Sprite where
  y : Byte
  x : Byte
  tile : Byte
  attr : Byte

/-- Sprite `i` of the table (20_memory.md R96). -/
def Ppu.sprite (p : Ppu) (i : Nat) : Sprite :=
  { y := p.oamRead (4 * i), x := p.oamRead (4 * i + 1), tile := p.oamRead (4 * i + 2), attr := p.oamRead (4 * i + 3) }

/-- `sy = Y - 16` (R260). -/
def Sprite.sy (o : Sprite) : Int := (o.y.toNat : Int) - 16

/-- `sx = X - 8` (R260). -/
def Sprite.sx (o : Sprite) : Int := (o.x.toNat : Int) - 8

/-- The sprite height: 16 or 8 (R260). -/
def Scene.spriteHeight (v : Scene) : Nat := if v.ppu.spriteSize then 16 else 8

/-- The sprite is on the line (R260). -/
def Scene.onLine (v : Scene) (o : Sprite) : Bool :=
  o.sy ≤ v.ly && (v.ly : Int) < o.sy + v.spriteHeight && -8 < o.sx && o.sx < 160

/-- The tile number and the row inside it that the sprite shows on the line (R261). -/
def Scene.spriteTile (v : Scene) (o : Sprite) : Nat × Nat :=
  let row := ((v.ly : Int) - o.sy).toNat
  let bank := if v.colour then bitNat (attrBank o.attr) else 0
  if v.ppu.spriteSize then
    let half := if attrVflip o.attr then 1 - row / 8 else row / 8
    (tileNumber bank (o.tile.toNat - bitNat (Byte.bit o.tile 0) + half), row % 8)
  else (tileNumber bank o.tile.toNat, row)

/-- `spritePixel(pass, x, p)` on the pixel under it (R263). -/
def spritePixel (behind : Bool) (p : Colour) (under : LinePixel) : LinePixel :=
  if p.extractLsb' 24 8 = 0x00 then under
  else if behind ∧ under.idx ≠ 0 then under
  else { under with col := p }

/-- The pixels of one sprite, its block being `e` and its row `r` (R262, R263). -/
def drawSprite (behind : Bool) (o : Sprite) (e : CacheEntry) (r : Nat) (line : Nat → LinePixel) : Nat → LinePixel :=
  match e with
  | .transparent => line
  | .pixels _ => fun x =>
    if o.sx ≤ (x : Int) ∧ (x : Int) < o.sx + 8 ∧ x ≤ 159 then
      spritePixel behind (e.colourAt r ((x : Int) - o.sx).toNat) (line x)
    else line x

/-- One sprite in one pass (R262). -/
def Scene.spriteStep (v : Scene) (behind : Bool) (k : Comp) (i : Nat) : Comp :=
  let o := v.ppu.sprite i
  if attrPriority o.attr ≠ behind then k
  else if v.onLine o then
    let t := v.spriteTile o
    let e := v.ppu.cacheLookup v.colour k.cache { kind := .obj, n := t.1, attr := o.attr }
    { k with cache := e.2, line := drawSprite behind o e.1 t.2 k.line }
  else k

/-- One pass over the table, sprite 39 down to 0 (R262). -/
def Scene.spritePass (v : Scene) (behind : Bool) (k : Comp) : Comp :=
  (List.range 40).reverse.foldl (v.spriteStep behind) k

/-- Step 4, sprites: the behind pass, then the front pass (R262). -/
def Scene.sprites (v : Scene) (k : Comp) : Comp :=
  if v.ppu.spriteEnable then v.spritePass false (v.spritePass true k) else k

/-- Step 5, the priority tiles held back, in the order appended (R264). -/
def Scene.priorityTiles (v : Scene) (k : Comp) : Comp :=
  k.skipped.foldl (fun k g => v.drawSegment g k) k

/-- Steps 0 to 5 (R251). -/
def Scene.compose (v : Scene) : Comp :=
  v.priorityTiles (v.sprites (v.window (v.background (Comp.backdrop v.ppu.cache))))

/-- Step 6: line 143 with the LCD off clears every line (R266). -/
def Scene.finalize (v : Scene) (fb : FrameBuf) : FrameBuf :=
  if v.ly = 143 ∧ v.ppu.lcdEnable = false then [] else fb

/-- The PPU after line `ly` was composed (R251). -/
def Scene.result (v : Scene) : Ppu :=
  let k := v.compose
  { v.ppu with cache := k.cache, fb := v.finalize (v.ppu.fb.setLine v.ly fun x => (k.line x).col) }

/-- `notifyScanline(line)` (R251, R268). -/
def execNotifyScanline (line : BitVec 32) (s : State) : Out :=
  if line.toNat > 153 then raise .invalidArgument s
  else if line.toNat > 143 then finish .none s
  else finish .none { s with ppu := (Scene.of s line.toNat).result }

/-- `endFrame()` (R267). -/
def execEndFrame (s : State) : Out :=
  let t := s.pace.tick
  finish (if t.1 then .frame s.ppu.fb else .none) { s with pace := t.2 }

end Sys2Proof.Machine
end

