-- ==== Sys2Proof/Machine/Dispatch.lean ====
section
/-! DEFINITION. Dispatch: the meaning of each constructor of Instr (spec/30_encoding.md R121). -/

namespace Sys2Proof.Machine

/-- One call of the dispatch surface on a state. -/
def exec (i : Instr) (s : State) : Host.Outcome State Fault Refusal :=
  match i with
  | .writeControlRegister d => Sys2Proof.Machine.execWriteControlRegister d s
  | .writeVram a d => Sys2Proof.Machine.execWriteVram a d s
  | .setVramBank b => Sys2Proof.Machine.execSetVramBank b s
  | .setColorPalette index d => Sys2Proof.Machine.execSetColorPalette index d s
  | .setMonoPalette slot d => Sys2Proof.Machine.execSetMonoPalette slot d s
  | .writeOam a d => Sys2Proof.Machine.execWriteOam a d s
  | .notifyScanline line => Sys2Proof.Machine.execNotifyScanline line s
  | .endFrame => Sys2Proof.Machine.execEndFrame s
  | .mirrorWrite r d => Sys2Proof.Machine.execMirrorWrite r d s
  | .tick => Sys2Proof.Machine.execTick s
  | .setSpeed n => Sys2Proof.Machine.execSetSpeed n s
  | .ioWriteR10 d => Sys2Proof.Machine.execIoWriteR10 d s
  | .ioWriteR11 d => Sys2Proof.Machine.execIoWriteR11 d s
  | .ioWriteR12 d => Sys2Proof.Machine.execIoWriteR12 d s
  | .ioWriteR13 d => Sys2Proof.Machine.execIoWriteR13 d s
  | .ioWriteR14 d => Sys2Proof.Machine.execIoWriteR14 d s
  | .ioWriteR15 d => Sys2Proof.Machine.execIoWriteR15 d s
  | .ioWriteR16 d => Sys2Proof.Machine.execIoWriteR16 d s
  | .ioWriteR17 d => Sys2Proof.Machine.execIoWriteR17 d s
  | .ioWriteR18 d => Sys2Proof.Machine.execIoWriteR18 d s
  | .ioWriteR19 d => Sys2Proof.Machine.execIoWriteR19 d s
  | .ioWriteR1A d => Sys2Proof.Machine.execIoWriteR1A d s
  | .ioWriteR1B d => Sys2Proof.Machine.execIoWriteR1B d s
  | .ioWriteR1C d => Sys2Proof.Machine.execIoWriteR1C d s
  | .ioWriteR1D d => Sys2Proof.Machine.execIoWriteR1D d s
  | .ioWriteR1E d => Sys2Proof.Machine.execIoWriteR1E d s
  | .ioWriteR1F d => Sys2Proof.Machine.execIoWriteR1F d s
  | .ioWriteR20 d => Sys2Proof.Machine.execIoWriteR20 d s
  | .ioWriteR21 d => Sys2Proof.Machine.execIoWriteR21 d s
  | .ioWriteR22 d => Sys2Proof.Machine.execIoWriteR22 d s
  | .ioWriteR23 d => Sys2Proof.Machine.execIoWriteR23 d s
  | .ioWriteR24 d => Sys2Proof.Machine.execIoWriteR24 d s
  | .ioWriteR25 d => Sys2Proof.Machine.execIoWriteR25 d s
  | .setChannelEnable n e => Sys2Proof.Machine.execSetChannelEnable n e s
  | .setSoundEnabled e => Sys2Proof.Machine.execSetSoundEnabled e s
  | .render count => Sys2Proof.Machine.execRender count s
  | .load => Sys2Proof.Machine.execLoad s
  | .hasBattery => Sys2Proof.Machine.execHasBattery s
  | .tickRtc => Sys2Proof.Machine.execTickRtc s
  | .skipRtc => Sys2Proof.Machine.execSkipRtc s
  | .dumpSave => Sys2Proof.Machine.execDumpSave s
  | .loadSave => Sys2Proof.Machine.execLoadSave s
  | .romRead b o => Sys2Proof.Machine.execRomRead b o s
  | .ramRead b o => Sys2Proof.Machine.execRamRead b o s
  | .ramWrite b o d => Sys2Proof.Machine.execRamWrite b o d s
  | .rtcRead index => Sys2Proof.Machine.execRtcRead index s
  | .rtcWrite index d => Sys2Proof.Machine.execRtcWrite index d s

end Sys2Proof.Machine
end

