-- ==== Sys2Proof/Machine/Step.lean ====
section
/-! DEFINITION. One step: the caller's next call is taken, decoded and executed (spec/00_scope.md R5, R6). With no call left
the block keeps its state (60_exceptions.md R424 d). -/

namespace Sys2Proof.Machine

/-- The call a decoded word makes; a word that is no command makes none (30_encoding.md R123, R124). -/
def runVerdict (v : Verdict) (s : State) : Host.Outcome State Fault Refusal :=
  match v with
  | .instr i => exec i s
  | .ioWriteOutside r d => execIoWriteOutside r d s
  | .invalid why => .refused (refuseWord why)

/-- One step of the machine (notes/assumptions/1.md). -/
def step (s : State) : Host.Outcome State Fault Refusal :=
  match s.pending with
  | [] => .next s
  | c :: rest => runVerdict (decode c.word) (s.latch c rest)

/-- The state with a call of the given command word put where `step` takes its next call; the call brings the inputs that
stand on the state's input port (notes/assumptions/5.md). -/
def State.withFetchWord (s : State) (nbits w : Nat) : State :=
  { s with pending := { word := BitVec.ofNat 64 (w % 2 ^ nbits), inputs := s.inputs } :: s.pending }

end Sys2Proof.Machine
end

