-- ==== Sys2Proof/WellFormed.lean ====
section
/-! DEFINITION. Well-formedness of a call: every operand that the command word carries lies in the domain
spec/30_encoding.md R121 gives it, in the configuration `cfg`, as far as that domain does not
depend on the state (the bank operand of `romRead`,
`ramRead` and `ramWrite` is below a bank count of the loaded cartridge and is checked by the operation). A call that is not
well formed still decodes, and executing it raises `InvalidArgument` (R126 a). -/

namespace Sys2Proof

/-- The operands lie in the domains of 30_encoding.md R121. -/
def Instr.wellFormed (cfg : Config) : Instr → Bool
  | .writeControlRegister _ => true
  | .writeVram a _ => a.toNat ≤ 0x1FFF
  | .setVramBank b => b.toNat ≤ 1
  | .setColorPalette i _ => i.toNat ≤ 127
  | .setMonoPalette s _ => s.toNat ≤ 2
  | .writeOam a _ => a.toNat ≤ 0x9F
  | .notifyScanline line => line.toNat ≤ 153
  | .endFrame => true
  | .mirrorWrite r _ => r.toNat ≤ 0x7F
  | .tick => true
  | .setSpeed n => 1 ≤ n.toInt
  | .ioWriteR10 _ => true
  | .ioWriteR11 _ => true
  | .ioWriteR12 _ => true
  | .ioWriteR13 _ => true
  | .ioWriteR14 _ => true
  | .ioWriteR15 _ => true
  | .ioWriteR16 _ => true
  | .ioWriteR17 _ => true
  | .ioWriteR18 _ => true
  | .ioWriteR19 _ => true
  | .ioWriteR1A _ => true
  | .ioWriteR1B _ => true
  | .ioWriteR1C _ => true
  | .ioWriteR1D _ => true
  | .ioWriteR1E _ => true
  | .ioWriteR1F _ => true
  | .ioWriteR20 _ => true
  | .ioWriteR21 _ => true
  | .ioWriteR22 _ => true
  | .ioWriteR23 _ => true
  | .ioWriteR24 _ => true
  | .ioWriteR25 _ => true
  | .setChannelEnable n _ => 1 ≤ n.toNat ∧ n.toNat ≤ 4
  | .setSoundEnabled _ => true
  | .render count => 0 ≤ count.toInt
  | .load => true
  | .hasBattery => true
  | .tickRtc => true
  | .skipRtc => true
  | .dumpSave => true
  | .loadSave => true
  | .romRead _ o => o.toNat < cfg.romBankSize
  | .ramRead _ o => o.toNat < cfg.ramBankSize
  | .ramWrite _ o _ => o.toNat < cfg.ramBankSize
  | .rtcRead i => i.toNat ≤ 4
  | .rtcWrite i _ => i.toNat ≤ 4

end Sys2Proof
end

