-- ==== Sys2Proof/Safety.lean ====
section
/-! DEFINITION. What the claims speak of: the invariants the spec gives the state (spec/10_state.md R30, R31, R34, R42, R44,
R45, R48; 20_memory.md R104), the causes of a fault or a refusal (60_exceptions.md R411, R412, R414), sequences of calls, and the
closed forms of a composed pixel (43_ppu_scanline.md R269) and of a rendered sample (45_apu_render.md R352 to R363). -/

namespace Sys2Proof.Machine

/-! ### Faults and refusals -/

/-- The operations that need a cartridge (60_exceptions.md R412). -/
def needsCart : Instr → Bool
  | .hasBattery | .tickRtc | .skipRtc | .dumpSave | .loadSave => true
  | .romRead _ _ | .ramRead _ _ | .ramWrite _ _ _ | .rtcRead _ | .rtcWrite _ _ => true
  | _ => false

/-- The bank operand is below the bank count of the cartridge (60_exceptions.md R411 l, m). -/
def bankInRange (c : Cartridge) : Instr → Bool
  | .romRead b _ => b.toNat < c.nrom
  | .ramRead b _ => b.toNat < c.nram
  | .ramWrite b _ _ => b.toNat < c.nram
  | _ => true

/-- A cause of `InvalidArgument` (60_exceptions.md R411): an operand outside its domain. -/
def OutOfDomain (i : Instr) (s : State) : Prop :=
  i.wellFormed s.config = false ∨ ∃ c, s.cart = some c ∧ bankInRange c i = false

/-- The ROM size bytes with a bank count (41_cartridge.md R151). -/
def romSizeBytes : List Byte := [0, 1, 2, 3, 4, 5, 6, 7, 0x52, 0x53, 0x54]

/-! ### Invariants -/

/-- 10_state.md R42: `phase < cycle_len`, `cycle_len >= 1`. -/
abbrev Voice.Inv (v : Voice) : Prop := 1 ≤ v.cycleLen ∧ v.phase < v.cycleLen

/-- 10_state.md R36, R42: the envelope fields. -/
abbrev Envelope.Inv (e : Envelope) : Prop := e.amp % 2 = 0 ∧ e.amp ≤ 32 ∧ e.step ≤ 7 ∧ e.ctr < max e.step 1

/-- 10_state.md R37. -/
abbrev Square.Inv (c : Square) : Prop :=
  c.voice.Inv ∧ c.env.Inv ∧ c.freq ≤ 2048 ∧ (c.dutyThr = 1 ∨ c.dutyThr = 2 ∨ c.dutyThr = 4 ∨ c.dutyThr = 6)

/-- 10_state.md R39. -/
abbrev Wave.Inv (c : Wave) : Prop := c.voice.Inv ∧ c.freq ≤ 2047 ∧ c.volCode ≤ 3

/-- 10_state.md R40. -/
abbrev Noise.Inv (cfg : Config) (c : Noise) : Prop :=
  c.voice.Inv ∧ c.env.Inv ∧ 1 ≤ c.stepLen ∧ c.voice.cycleLen = c.stepLen * noiseEntries cfg c.shortMode ∧
    c.offset < cfg.noiseTableLen

/-- 10_state.md R36 to R42: the channels of the APU. -/
abbrev Apu.Inv (cfg : Config) (a : Apu) : Prop :=
  a.ch1.Inv ∧ a.sweep.period ≤ 4 ∧ a.sweep.shift ≤ 7 ∧ a.ch2.Inv ∧ a.ch3.Inv ∧ a.ch4.Inv cfg

/-- 10_state.md R48. -/
abbrev Pace.Inv (p : Pace) : Prop := 1 ≤ p.divisor ∧ p.counter < p.divisor

/-- 10_state.md R31: the decoded colour table is the raw mirror decoded. -/
abbrev Ppu.ColourTableInv (p : Ppu) : Prop :=
  ∀ e : Fin 64, p.colPal[e.val] = decodeColour p.colRaw[2 * e.val] p.colRaw[2 * e.val + 1]

/-- 10_state.md R30: every mono table entry is one of the four shades. -/
abbrev Ppu.MonoTableInv (cfg : Config) (p : Ppu) : Prop := ∀ k : Fin 12, ∃ i : Fin 4, p.monoPal[k.val] = cfg.monoShade i

/-- 10_state.md R44, R45: bank counts and derived fields of a cartridge. -/
abbrev Cartridge.Inv (cfg : Config) (c : Cartridge) : Prop :=
  c.nrom ∈ [2, 4, 8, 16, 32, 64, 128, 256, 72, 80, 96] ∧ c.nram ∈ [1, 4, 16] ∧
    c.battery = batteryFlag cfg c.typeCode

/-- Every memory is in canonical form and inside its space (20_memory.md R80). -/
abbrev Cartridge.MemoryInv (cfg : Config) (c : Cartridge) : Prop :=
  c.rom.wf ∧ c.rom.below (c.nrom * cfg.romBankSize) ∧ c.ram.wf ∧ c.ram.below (c.ramSize cfg)

/-- Every memory of the PPU is in canonical form and inside its space; the cache's keys rise and name tiles
(20_memory.md R80, 10_state.md R32). -/
abbrev Ppu.MemoryInv (p : Ppu) : Prop :=
  p.vram0.wf ∧ p.vram0.below 0x2000 ∧ p.vram1.wf ∧ p.vram1.below 0x2000 ∧ p.oam.wf ∧ p.oam.below 0xA0 ∧ p.fb.wf ∧
    KeysRise CacheKey.code p.cache ∧ ∀ e ∈ p.cache, e.1.n < 768

/-- The memories of the whole block. -/
def State.MemoryInv (s : State) : Prop := s.ppu.MemoryInv ∧ ∀ c, s.cart = some c → c.MemoryInv s.config

/-- Every entry of the cache `c` is the tile its key names, resolved against the memories of `p` (20_memory.md R104); keys
name tiles 0..767 (10_state.md R32). -/
abbrev Ppu.CoherentWith (p : Ppu) (colour : Bool) (c : Cache) : Prop :=
  ∀ e ∈ c, e.1.n < 768 ∧ e.2 = p.resolveTile colour e.1

/-- The coherence invariant of the tile cache (20_memory.md R104). -/
def State.Coherent (s : State) : Prop := s.ppu.CoherentWith s.colourMode s.ppu.cache

/-- Every stored pixel is opaque (10_state.md R34). -/
def State.FrameOpaque (s : State) : Prop := ∀ c ∈ s.ppu.fb, Opaque c.2

/-- What keeps stored pixels opaque: the two palette tables and the cache. -/
def State.FrameInv (s : State) : Prop :=
  s.ppu.ColourTableInv ∧ s.ppu.MonoTableInv s.config ∧ s.Coherent ∧ s.FrameOpaque

/-! ### Command words and register writes -/

/-- The 26 operations with the bits their word leaves unused (30_encoding.md R121, R123). -/
def commandForms : List (Byte × CmdWord) :=
  [(0x01, 0x00FFFFFFFFFFFF00), (0x02, 0x00FFFF0000000000), (0x03, 0x00FFFFFFFFFFFF00), (0x04, 0x00FFFF0000000000),
   (0x05, 0x00FFFF0000000000), (0x06, 0x00FFFF0000000000), (0x07, 0x00FFFF00000000FF), (0x08, 0x00FFFFFFFFFFFFFF),
   (0x10, 0x00FFFF0000000000), (0x11, 0x00FFFFFFFFFFFFFF), (0x12, 0x00FFFF00000000FF)] ++
  [(0x20, 0x00FFFF0000000000), (0x21, 0x00FFFF00000000FE), (0x22, 0x00FFFFFFFFFFFFFE), (0x23, 0x00FFFF00000000FF)] ++
  [(0x30, 0x00FFFFFFFFFFFFFF), (0x31, 0x00FFFFFFFFFFFFFF), (0x32, 0x00FFFFFFFFFFFFFF), (0x33, 0x00FFFFFFFFFFFFFF),
   (0x34, 0x00FFFFFFFFFFFFFF), (0x35, 0x00FFFFFFFFFFFFFF), (0x36, 0x00000000000000FF), (0x37, 0x00000000000000FF),
   (0x38, 0x0000000000000000), (0x39, 0x00FFFF00000000FF), (0x3A, 0x00FFFF0000000000)]

/-- The 22 register writes of the table, from register 0x10 on (44_apu_registers.md R303 to R327). -/
def ioWriteConstructors : List (Byte → Instr) :=
  [.ioWriteR10, .ioWriteR11, .ioWriteR12, .ioWriteR13, .ioWriteR14, .ioWriteR15, .ioWriteR16, .ioWriteR17, .ioWriteR18,
   .ioWriteR19, .ioWriteR1A, .ioWriteR1B, .ioWriteR1C, .ioWriteR1D, .ioWriteR1E, .ioWriteR1F, .ioWriteR20, .ioWriteR21,
   .ioWriteR22, .ioWriteR23, .ioWriteR24, .ioWriteR25]

/-- `ioWrite(r, d)` for the 22 register numbers `r` of the table, each with its number. -/
def ioWriteCalls (d : Byte) : List (Nat × Instr) :=
  (List.range' 0x10 22).zip (ioWriteConstructors.map (· d))

/-- The frame of `ioWrite(r, d)`: byte `r` of the register file is `d`, every other byte is as before, and of the rest of
the state only the APU may differ (44_apu_registers.md R301). -/
def IoWriteFrame (r : Nat) (d : Byte) (s t : State) : Prop :=
  (∀ q, t.ioRead q = if q = r then d else s.ioRead q) ∧ t = { s with io := t.io, apu := t.apu, result := .none }

/-- The call `i` is `ioWrite(r, d)` by its word, completes from `s` within its frame, and leaves the APU `apu`. -/
def IoWriteDoes (i : Instr) (r : Nat) (d : Byte) (s : State) (apu : Apu) : Prop :=
  encode i = pack 0x20 0 (BitVec.ofNat 32 r) d ∧ ∃ t, exec i s = .next t ∧ IoWriteFrame r d s t ∧ t.apu = apu

/-- A length counter after one tick (45_apu_render.md R354). -/
def Length.countDown : Length → Length
  | .continuous => .continuous
  | .remaining k => .remaining (k - 1)

/-- The operand `now` on the input port. -/
def State.withNow (s : State) (now : BitVec 64) : State := { s with inputs := { s.inputs with now := now } }

/-- The operand `bytes` on the input port. -/
def State.withBytes (s : State) (l : List Byte) : State := { s with inputs := { s.inputs with bytes := l } }

/-! ### Sequences of calls -/

/-- The calls of `l`, one after another on the same input port. -/
def execAll : List Instr → State → Out
  | [], s => .next s
  | i :: r, s =>
    match exec i s with
    | .next t => execAll r t
    | .fault f => .fault f
    | .refused f => .refused f

/-! ### The closed form of a composed pixel (43_ppu_scanline.md R269) -/

/-- Where a background or window pixel comes from: tile number, attribute, row and column. -/
structure LayerPixel where
  n : Nat
  attr : Byte
  r : Nat
  c : Nat

/-- The layer pixel `L(x)` (R269): the window's where it is visible at `x`, else the background's, else none. -/
def Scene.layerAt (v : Scene) (x : Nat) : Option LayerPixel :=
  if v.winVisible = true ∧ v.wx0 ≤ (x : Int) then
    let u := ((x : Int) - v.wx0).toNat
    let t := v.fetchMapTile v.ppu.winMapSelect (u / 8) ((v.ly - v.wy) / 8)
    some { n := t.1, attr := t.2, r := (v.ly - v.wy) % 8, c := u % 8 }
  else if v.ppu.bgEnable then
    let px := (x + v.scx) % 256
    let py := (v.ly + v.scy) % 256
    let t := v.fetchMapTile v.ppu.bgMapSelect (px / 8) (py / 8)
    some { n := t.1, attr := t.2, r := py % 8, c := px % 8 }
  else none

/-- The colour of a layer pixel. -/
def Scene.layerColour (v : Scene) (l : LayerPixel) : Colour :=
  v.ppu.paletteMux v.colour .bg l.attr (v.ppu.pixelIndex l.n l.attr l.r l.c)

/-- The colour index sprite `o` has at column `x` of the line. -/
def Scene.spriteIndex (v : Scene) (o : Sprite) (x : Nat) : Nat :=
  v.ppu.pixelIndex (v.spriteTile o).1 o.attr (v.spriteTile o).2 ((x : Int) - o.sx).toNat

/-- Sprite `i` is of the given pass, on the line, covers column `x` and has a non-zero index there (R269 b). -/
def Scene.spriteShows (v : Scene) (behind : Bool) (x i : Nat) : Bool :=
  let o := v.ppu.sprite i
  v.ppu.spriteEnable && attrPriority o.attr == behind && v.onLine o && o.sx ≤ (x : Int) && (x : Int) < o.sx + 8 &&
    v.spriteIndex o x != 0

/-- The colour sprite `i` has at column `x`. -/
def Scene.spriteColour (v : Scene) (x i : Nat) : Colour :=
  let o := v.ppu.sprite i
  v.ppu.paletteMux v.colour .obj o.attr (v.spriteIndex o x)

/-- The lowest-numbered sprite of a pass that shows at column `x`. -/
def Scene.firstSprite (v : Scene) (behind : Bool) (x : Nat) : Option Nat :=
  (List.range 40).find? (v.spriteShows behind x)

/-- What the line shows at `x` below the front sprites: a behind sprite over index 0 or nothing, else the layer, else WHITE
(R269 b, c). -/
def Scene.underFront (v : Scene) (x : Nat) : Colour :=
  match v.layerAt x with
  | none => match v.firstSprite true x with
    | some i => v.spriteColour x i
    | none => white
  | some l =>
    if v.ppu.pixelIndex l.n l.attr l.r l.c = 0 then
      match v.firstSprite true x with
      | some i => v.spriteColour x i
      | none => v.layerColour l
    else v.layerColour l

/-- What the line shows at `x` where no priority tile covers it (R269 b, c). -/
def Scene.unprioritised (v : Scene) (x : Nat) : Colour :=
  match v.firstSprite false x with
  | some i => v.spriteColour x i
  | none => v.underFront x

/-- What one `notifyScanline` leaves at column `x` of its line (R269). -/
def Scene.closedPixel (v : Scene) (x : Nat) : Colour :=
  match v.layerAt x with
  | some l => if v.colour = true ∧ attrPriority l.attr = true then v.layerColour l else v.unprioritised x
  | none => v.unprioritised x

/-! ### The closed form of a rendered sample (45_apu_render.md R352 to R363) -/

/-- The phase of a channel at sample `i` of a tick (R354). -/
def Voice.phaseAt (cfg : Config) (v : Voice) (i : Nat) : Nat := if i = 0 then v.phase else (v.phase + cfg.phaseOne * i) % v.cycleLen

/-- Channel `n` sounds in this tick: it is enabled and its length has not run out (R352, R355). -/
def Apu.sounds (a : Apu) (n : Nat) (v : Voice) : Bool := a.sndEnabled && a.enabled n && v.length != .remaining 0

/-- Channel 1 as its samples see it: sweep and envelope advanced (R354). -/
def Apu.ch1Now (cfg : Config) (a : Apu) : Square := { (sweepTick cfg a.sweep a.ch1).2 with env := a.ch1.env.tick }

/-- Channel 2 as its samples see it (R354). -/
def Apu.ch2Now (a : Apu) : Square := { a.ch2 with env := a.ch2.env.tick }

/-- Channel 4 as its samples see it (R354). -/
def Apu.ch4Now (a : Apu) : Noise := { a.ch4 with env := a.ch4.env.tick }

/-- The sum of what the four channels add, at sample `i`, to the lane that `route` selects (R352, R359). -/
def Apu.laneSum (cfg : Config) (a : Apu) (table : Nat → Byte) (route : Voice → Bool) (i : Nat) : Int :=
  (if a.sounds 1 a.ch1.voice && route a.ch1.voice then (a.ch1Now cfg).sample ((a.ch1Now cfg).voice.phaseAt cfg i) else 0) +
  (if a.sounds 2 a.ch2.voice && route a.ch2.voice then a.ch2Now.sample (a.ch2Now.voice.phaseAt cfg i) else 0) +
  (if a.sounds 3 a.ch3.voice && route a.ch3.voice then a.ch3.sample table (a.ch3.voice.phaseAt cfg i) else 0) +
  (if a.sounds 4 a.ch4.voice && route a.ch4.voice then a.ch4Now.sample cfg (a.ch4Now.voice.phaseAt cfg i) else 0)

end Sys2Proof.Machine
end

