-- ==== Sys2Proof/Certificates/Slice0/Obligations.lean ====
section
/-! DEFINITION. The statements for the provers. Each docstring names the rule of spec/ it formalises; a statement that rests on
an inference of the spec or of the model says so. -/

open Sys2Proof Sys2Proof.Machine

/-! ### Command words (spec/30_encoding.md) -/

/-- Words written out from the encodings of 30_encoding.md R122, R123 decode to the calls they stand for, one or more of
every family (words of 95_test_vectors.md programs A to F). -/
def Obligations.TableWordsDecodeToTheirCalls : Prop :=
  decode 0x0100000000000091 = .instr (.writeControlRegister 0x91) ∧
  decode 0x020000000000103C = .instr (.writeVram 0x10 0x3C) ∧
  decode 0x0700000000000000 = .instr (.notifyScanline 0) ∧
  decode 0x1000000000004303 = .instr (.mirrorWrite 0x43 3) ∧
  decode 0x120000FFFFFFFF00 = .instr (.setSpeed 0xFFFFFFFF) ∧
  decode 0x2000000000001487 = .instr (.ioWriteR14 0x87) ∧
  decode 0x2300000000001800 = .instr (.render 24) ∧
  decode 0x3000000000000000 = .instr .load ∧
  decode 0x3800000000010042 = .instr (.ramWrite 0 0x100 0x42) ∧
  decode 0x3A000000000003FF = .instr (.rtcWrite 3 0xFF)

/-- Decode and encode agree: every call, with every operand at every value its field admits, is what its word decodes to
(30_encoding.md R122, R123). -/
def Obligations.DecodeOfEncodeIsIdentity : Prop :=
  ∀ i : Instr, decode (encode i) = .instr i

/-- Each word has one meaning: a word that decodes to a call is that call's word (30_encoding.md R122, R123). -/
def Obligations.EncodeOfDecodeIsIdentity : Prop :=
  ∀ (w : CmdWord) (i : Instr), decode w = .instr i → encode i = w

/-- 30_encoding.md R123: a word is no command exactly if its `OP` is not in R121 or a field its operation does not use is
not zero. -/
def Obligations.NonCommandsAreExactlyRejected : Prop :=
  ∀ w : CmdWord, (∃ why, decode w = .invalid why) ↔
    ¬ ∃ f ∈ commandForms, w.extractLsb' 56 8 = f.1 ∧ w &&& f.2 = 0

/-- 30_encoding.md R124, 44_apu_registers.md R301: a call of `ioWrite` with a register number outside 0x10..0x25 decodes and
raises InvalidArgument, all else as it was (the call itself leaves the queue). -/
def Obligations.IoWriteOutsideItsRangeFaults : Prop :=
  ∀ (s : State) (inp : Inputs) (rest : List Call) (r : BitVec 32) (d : Byte),
    s.pending = { word := pack 0x20 0 r d, inputs := inp } :: rest → r.toNat < 0x10 ∨ 0x25 < r.toNat →
    decode (pack 0x20 0 r d) = .ioWriteOutside r d ∧
    step s = .next { s with pending := rest, inputs := inp, result := .fault .invalidArgument }

/-! ### Steps, faults and refusals -/

/-- A step runs the decoded call: the caller's next call is taken from the queue, its inputs are latched, and the step is
`exec` of the call there (00_scope.md R5, R6; the queue is the model's own, notes/assumptions/1.md). With no call a step
changes nothing; a word that is no command is refused (30_encoding.md R123). -/
def Obligations.StepRunsTheDecodedCall : Prop :=
  (∀ (s : State) (c : Call) (rest : List Call) (i : Instr), s.pending = c :: rest → decode c.word = .instr i →
    step s = exec i { s with pending := rest, inputs := c.inputs }) ∧
  (∀ s : State, s.pending = [] → step s = .next s) ∧
  (∀ (s : State) (c : Call) (rest : List Call) (why : Reject), s.pending = c :: rest → decode c.word = .invalid why →
    ∃ r, step s = .refused r)

/-- No step ends in a fault of the machine: a fault is the result of its call and the block goes on
(00_scope.md R7, 60_exceptions.md R413; the reading is the model's, notes/assumptions/4.md). -/
def Obligations.NoStepStopsTheMachineWithAFault : Prop :=
  ∀ (s : State) (f : Fault), step s ≠ .fault f

/-- 60_exceptions.md R413: after a fault the whole state is what it was before the call; only the result says so. -/
def Obligations.FaultLeavesTheStateUnchanged : Prop :=
  ∀ (i : Instr) (s t : State) (f : Fault), exec i s = .next t → t.result = .fault f → t = { s with result := .fault f }

/-- 60_exceptions.md R411: `InvalidArgument` is raised exactly when an operand is outside its domain (with the cartridge of
R412 present where one is needed). -/
def Obligations.InvalidArgumentExactlyOutsideTheDomain : Prop :=
  ∀ (i : Instr) (s : State), (needsCart i = true → s.cart ≠ none) →
    ((∃ t, exec i s = .next t ∧ t.result = .fault .invalidArgument) ↔ OutOfDomain i s)

/-- 60_exceptions.md R412: a call is refused exactly if it needs a cartridge and none is loaded; the refusal precedes the
operand checks (R417). -/
def Obligations.RefusedExactlyWithoutCartridge : Prop :=
  ∀ (i : Instr) (s : State) (r : Refusal),
    exec i s = .refused r ↔ needsCart i = true ∧ s.cart = none ∧ r = .noCartridge

/-- 00_scope.md R7: every operation is total on its operand domain. A call whose operands are in their domains ends normally:
with no fault, for every call of the table. -/
def Obligations.EveryCallInItsDomainCompletes : Prop :=
  ∀ (i : Instr) (s : State), i.wellFormed s.config = true →
    (needsCart i = true → ∃ c, s.cart = some c ∧ bankInRange c i = true) →
    (i = .load → byteAt s.inputs.bytes s.config.hdrRomSize ∈ romSizeBytes) →
    ∃ t, exec i s = .next t ∧ ∀ f, t.result ≠ .fault f

/-! ### The cartridge (spec/41_cartridge.md) -/

/-- 41_cartridge.md R152 with R151, R153, R154 and 10_state.md R50: what a successful `load` makes. -/
def Obligations.LoadMakesTheCartridge : Prop :=
  ∀ s : State, byteAt s.inputs.bytes s.config.hdrRomSize ∈ romSizeBytes →
    ∃ t c, exec .load s = .next t ∧ t.cart = some c ∧
      (c.nrom =
        let v := (byteAt s.inputs.bytes s.config.hdrRomSize).toNat
        if v < 8 then 2 * 2 ^ v else if v = 0x52 then 72 else if v = 0x53 then 80 else 96) ∧
      (c.nram =
        let v := (byteAt s.inputs.bytes s.config.hdrRamSize).toNat
        if v = 3 then 4 else if 4 ≤ v ∧ v ≤ 6 then 16 else 1) ∧
      (∀ b o, b < c.nrom → o < s.config.romBankSize →
        c.romByte s.config b o = byteAt s.inputs.bytes (b * s.config.romBankSize + o)) ∧
      (∀ b o, b < c.nram → o < s.config.ramBankSize → c.ramByte s.config b o = 0) ∧
      c.typeCode = byteAt s.inputs.bytes s.config.hdrType ∧
      c.colour = (byteAt s.inputs.bytes s.config.hdrColour).getLsbD 7 ∧
      (c.battery = true ↔ c.typeCode ∈ s.config.batteryTypes) ∧
      (∀ i, i ≤ 4 → c.rtc.get i = 0) ∧ c.rtcLast = none ∧
      t = { s with cart := some c, ppu := { s.ppu with cache := [] }, result := .none }

/-- 60_exceptions.md R414: `load` raises `InvalidCartridge` exactly for a ROM size byte outside the eleven, and no other
operation raises it; `cart` and the tile cache are then as before. -/
def Obligations.InvalidCartridgeExactlyForUndefinedRomSize : Prop :=
  ∀ (i : Instr) (s : State),
    exec i s = .next { s with result := .fault .invalidCartridge } ↔
      i = .load ∧ byteAt s.inputs.bytes s.config.hdrRomSize ∉ romSizeBytes

/-- 41_cartridge.md R163, R164, R165, R167 and 20_memory.md R89: the reads of the cartridge, by their words, answer the stored
value and change nothing else. -/
def Obligations.CartridgeReadsAnswerAndChangeNothing : Prop :=
  encode .hasBattery = pack 0x31 0 0 0 ∧
  (∀ (b : BitVec 16) (o : BitVec 32), encode (.romRead b o) = pack 0x36 b o 0 ∧ encode (.ramRead b o) = pack 0x37 b o 0) ∧
  (∀ i : BitVec 32, encode (.rtcRead i) = pack 0x39 0 i 0) ∧
  ∀ (s : State) (c : Cartridge), s.cart = some c →
    exec .hasBattery s = .next { s with result := .bool c.battery } ∧
    (∀ (b : BitVec 16) (o : BitVec 32), b.toNat < c.nrom → o.toNat < s.config.romBankSize →
      exec (.romRead b o) s = .next { s with result := .byte (c.rom.read (b.toNat * s.config.romBankSize + o.toNat)) }) ∧
    (∀ (b : BitVec 16) (o : BitVec 32), b.toNat < c.nram → o.toNat < s.config.ramBankSize →
      exec (.ramRead b o) s = .next { s with result := .byte (c.ram.read (b.toNat * s.config.ramBankSize + o.toNat)) }) ∧
    (∀ i : BitVec 32, i.toNat ≤ 4 →
      exec (.rtcRead i) s = .next { s with
        result := .byte ([c.rtc.sec, c.rtc.min, c.rtc.hour, c.rtc.dayLow, c.rtc.dayHigh].getD i.toNat 0) })

/-- 41_cartridge.md R166: `ramWrite` stores its byte at (b, o) and leaves every other byte of RAM and everything else; out of
range it faults and writes nothing. -/
def Obligations.RamWriteStoresOneByte : Prop :=
  ∀ (s : State) (c : Cartridge) (b : BitVec 16) (o : BitVec 32) (d : Byte), s.cart = some c →
    encode (.ramWrite b o d) = pack 0x38 b o d ∧
    (c.nram ≤ b.toNat ∨ s.config.ramBankSize ≤ o.toNat →
      exec (.ramWrite b o d) s = .next { s with result := .fault .invalidArgument }) ∧
    (b.toNat < c.nram → o.toNat < s.config.ramBankSize →
      ∃ t c', exec (.ramWrite b o d) s = .next t ∧
        (∀ k, c'.ram.read k = if k = b.toNat * s.config.ramBankSize + o.toNat then d else c.ram.read k) ∧
        c' = { c with ram := c'.ram } ∧ t = { s with cart := some c', result := .none } ∧
        exec (.ramRead b o) t = .next { t with result := .byte d })

/-- 41_cartridge.md R168: `rtcWrite` stores all eight bits in register `i` and leaves the other registers, `rtc_last` and
everything else; out of range it faults. -/
def Obligations.RtcWriteStoresOneRegister : Prop :=
  ∀ (s : State) (c : Cartridge) (i : BitVec 32) (d : Byte), s.cart = some c →
    encode (.rtcWrite i d) = pack 0x3A 0 i d ∧
    (4 < i.toNat → exec (.rtcWrite i d) s = .next { s with result := .fault .invalidArgument }) ∧
    (i.toNat ≤ 4 →
      ∃ t c', exec (.rtcWrite i d) s = .next t ∧
        (∀ j, j ≤ 4 → c'.rtc.get j = if j = i.toNat then d else c.rtc.get j) ∧
        c' = { c with rtc := c'.rtc } ∧ t = { s with cart := some c', result := .none })

/-- 41_cartridge.md R170: the four ways `tickRtc` ends. -/
def Obligations.TickRtcCatchesUpByWholeSeconds : Prop :=
  encode .tickRtc = pack 0x32 0 0 0 ∧
  ∀ (s : State) (c : Cartridge), s.cart = some c →
    ∃ t c', exec .tickRtc s = .next t ∧ t = { s with cart := some c', result := .none } ∧
      (c.rtcLast = none → c' = { c with rtcLast := some s.inputs.now }) ∧
      (∀ t0, c.rtcLast = some t0 →
        (c.rtc.halt = true ∨ s.inputs.now.toNat < t0.toNat → c' = { c with rtcLast := some s.inputs.now }) ∧
        (c.rtc.halt = false → t0.toNat ≤ s.inputs.now.toNat →
          ∃ t1 : BitVec 64, t1.toNat = t0.toNat + 1000 * ((s.inputs.now.toNat - t0.toNat) / 1000) ∧
            s.inputs.now.toNat - t1.toNat < 1000 ∧
            c' = { c with
              rtcLast := some t1
              rtc := Rtc.advanceSecond^[(s.inputs.now.toNat - t0.toNat) / 1000] c.rtc }))

/-- 41_cartridge.md R172: the carry chain of `advanceSecond`, on any register values; bits 6:1 of `rtc[4]` stay, and the
carry flag is set on the day rollover and never cleared (R169). -/
def Obligations.AdvanceSecondIsTheCarryChain : Prop :=
  ∀ r : Rtc,
    (r.sec.toNat + 1 < 60 → r.advanceSecond = { r with sec := r.sec + 1 }) ∧
    (60 ≤ r.sec.toNat + 1 → r.min.toNat + 1 < 60 → r.advanceSecond = { r with sec := 0, min := r.min + 1 }) ∧
    (60 ≤ r.sec.toNat + 1 → 60 ≤ r.min.toNat + 1 → r.hour.toNat + 1 < 24 →
      r.advanceSecond = { r with sec := 0, min := 0, hour := r.hour + 1 }) ∧
    (60 ≤ r.sec.toNat + 1 → 60 ≤ r.min.toNat + 1 → 24 ≤ r.hour.toNat + 1 →
      r.advanceSecond.sec = 0 ∧ r.advanceSecond.min = 0 ∧ r.advanceSecond.hour = 0 ∧
      r.advanceSecond.day = (r.day + 1) % 512 ∧
      r.advanceSecond.dayHigh.getLsbD 7 = (r.dayHigh.getLsbD 7 || decide (r.day = 511)) ∧
      ∀ i, 1 ≤ i → i ≤ 6 → r.advanceSecond.dayHigh.getLsbD i = r.dayHigh.getLsbD i)

/-- 41_cartridge.md R171 (an inference of the spec): ticking at `t1` and then at `t2` leaves the clock as ticking at `t2`
alone. -/
def Obligations.TickRtcDecomposes : Prop :=
  ∀ (s : State) (c : Cartridge) (t0 t1 t2 : BitVec 64), s.cart = some c → c.rtcLast = some t0 → c.rtc.halt = false →
    t0.toNat ≤ t1.toNat → t1.toNat ≤ t2.toNat →
    ∃ u v w, exec .tickRtc (s.withNow t1) = .next u ∧ exec .tickRtc (u.withNow t2) = .next v ∧
      exec .tickRtc (s.withNow t2) = .next w ∧ v.cart = w.cart

/-- 41_cartridge.md R173: the bulk catch-up of `skipRtc`. -/
def Obligations.SkipRtcAppliesTheBulkCatchUp : Prop :=
  encode .skipRtc = pack 0x33 0 0 0 ∧
  ∀ (s : State) (c : Cartridge), s.cart = some c →
    ∃ t r', exec .skipRtc s = .next t ∧ t = { s with cart := some { c with rtc := r' }, result := .none } ∧
      (s.inputs.seconds.toInt ≤ 0 ∨ c.rtc.dayHigh.getLsbD 6 = true → r' = c.rtc) ∧
      (0 < s.inputs.seconds.toInt → c.rtc.dayHigh.getLsbD 6 = false →
        let t := c.rtc.sec.toNat + s.inputs.seconds.toInt.toNat
        let m := c.rtc.min.toNat + t / 60
        let h := c.rtc.hour.toNat + m / 60
        let d := c.rtc.day + h / 24
        r'.sec.toNat = t % 60 ∧ r'.min.toNat = m % 60 ∧ r'.hour.toNat = h % 24 ∧ r'.day = d % 512 ∧
        r'.dayHigh.getLsbD 7 = (c.rtc.dayHigh.getLsbD 7 || decide (d > 511)) ∧
        ∀ i, 1 ≤ i → i ≤ 6 → r'.dayHigh.getLsbD i = c.rtc.dayHigh.getLsbD i)

/-- 41_cartridge.md R174 (an inference of the spec): on registers in range and a running clock, `skipRtc(n)` is `n` seconds
of the carry chain. -/
def Obligations.SkipRtcAgreesWithTheCarryChain : Prop :=
  ∀ (s : State) (c : Cartridge), s.cart = some c → c.rtc.sec.toNat < 60 → c.rtc.min.toNat < 60 → c.rtc.hour.toNat < 24 →
    c.rtc.halt = false → 1 ≤ s.inputs.seconds.toInt →
    exec .skipRtc s = .next { s with
      cart := some { c with rtc := Rtc.advanceSecond^[s.inputs.seconds.toInt.toNat] c.rtc }, result := .none }

/-- 41_cartridge.md R175: the layout of the save image, byte by byte; `dumpSave` changes nothing. -/
def Obligations.DumpSaveLaysOutTheImage : Prop :=
  encode .dumpSave = pack 0x34 0 0 0 ∧
  ∀ (s : State) (c : Cartridge), s.cart = some c →
    ∃ l, exec .dumpSave s = .next { s with result := .bytes l } ∧
      l.length = c.nram * s.config.ramBankSize + 13 ∧
      (∀ b o, b < c.nram → o < s.config.ramBankSize →
        l.getD (b * s.config.ramBankSize + o) 0 = c.ram.read (b * s.config.ramBankSize + o)) ∧
      (∀ i, i ≤ 4 → l.getD (c.nram * s.config.ramBankSize + i) 0 = c.rtc.get i) ∧
      (∀ j, j < 8 → l.getD (c.nram * s.config.ramBankSize + 5 + j) 0 =
        BitVec.ofNat 8 (s.inputs.now.toNat / 2 ^ (8 * (7 - j))))

/-- 41_cartridge.md R176: what `loadSave` restores, for a matching length and for any other. -/
def Obligations.LoadSaveRestoresTheImage : Prop :=
  encode .loadSave = pack 0x35 0 0 0 ∧
  ∀ (s : State) (c : Cartridge), s.cart = some c →
    let l := s.inputs.bytes
    let size := c.nram * s.config.ramBankSize
    ∃ t c', exec .loadSave s = .next t ∧ t = { s with cart := some c', result := .none } ∧
      c' = { c with ram := c'.ram, rtc := c'.rtc, rtcLast := c'.rtcLast } ∧
      (∀ k, c'.ram.read k = if k < min l.length size then l.getD k 0 else c.ram.read k) ∧
      (l.length ≠ size + 13 → c'.rtc = c.rtc ∧ c'.rtcLast = c.rtcLast) ∧
      (l.length = size + 13 →
        c'.rtcLast = some s.inputs.now ∧
        ∃ r0 : Rtc, (∀ i, i ≤ 4 → r0.get i = l.getD (size + i) 0) ∧
          let ts := (List.range 8).foldl (fun acc j => 256 * acc + (l.getD (size + 5 + j) 0).toNat) 0
          (s.inputs.now.toNat < ts → c'.rtc = r0) ∧
          (ts ≤ s.inputs.now.toNat → c'.rtc = r0.skip (((s.inputs.now.toNat - ts) / 1000 : Nat) : Int)))

/-- 41_cartridge.md R177 (an inference of the spec): dumping and reloading at the same moment restores RAM and RTC
exactly; only `rtc_last` becomes `now`. RAM is in the model's canonical form, an invariant (MemoriesStayCanonical). -/
def Obligations.SaveRoundTripRestoresTheCartridge : Prop :=
  ∀ (s : State) (c : Cartridge), s.cart = some c → c.ram.wf → c.ram.below (c.ramSize s.config) →
    ∃ t l u, exec .dumpSave s = .next t ∧ t.result = .bytes l ∧ exec .loadSave (t.withBytes l) = .next u ∧
      u.cart = some { c with rtcLast := some s.inputs.now }

/-! ### PPU writes, tiles and palettes (spec/42_ppu_access.md) -/

/-- 42_ppu_access.md R202, R204, R207 with 10_state.md R28: the control register with its eight fields, the VRAM bank and the
sprite attribute table. -/
def Obligations.PpuRegisterWritesStore : Prop :=
  (∀ (d : Byte) (s : State), encode (.writeControlRegister d) = pack 0x01 0 0 d ∧
    exec (.writeControlRegister d) s = .next { s with ppu := { s.ppu with lcdc := d }, result := .none } ∧
    (let p := { s.ppu with lcdc := d }
     p.lcdEnable = d.getLsbD 7 ∧ p.winMapSelect = d.getLsbD 6 ∧ p.winEnable = d.getLsbD 5 ∧
     p.tileDataSelect = d.getLsbD 4 ∧ p.bgMapSelect = d.getLsbD 3 ∧ p.spriteSize = d.getLsbD 2 ∧
     p.spriteEnable = d.getLsbD 1 ∧ p.bgEnable = d.getLsbD 0)) ∧
  (∀ (b : Byte) (s : State), encode (.setVramBank b) = pack 0x03 0 0 b ∧
    (b.toNat ≤ 1 → ∃ t, exec (.setVramBank b) s = .next t ∧ t.ppu.vramBank.toNat = b.toNat ∧
      t = { s with ppu := { s.ppu with vramBank := t.ppu.vramBank }, result := .none }) ∧
    (1 < b.toNat → exec (.setVramBank b) s = .next { s with result := .fault .invalidArgument })) ∧
  (∀ (a : BitVec 32) (d : Byte) (s : State), encode (.writeOam a d) = pack 0x06 0 a d ∧
    (a.toNat ≤ 0x9F → ∃ t, exec (.writeOam a d) s = .next t ∧
      (∀ k, t.ppu.oam.read k = if k = a.toNat then d else s.ppu.oam.read k) ∧
      t = { s with ppu := { s.ppu with oam := t.ppu.oam }, result := .none }) ∧
    (0x9F < a.toNat → exec (.writeOam a d) s = .next { s with result := .fault .invalidArgument }))

/-- 42_ppu_access.md R203: `writeVram` stores in the selected bank and removes the cache entries of the tile it touches, and
nothing else. -/
def Obligations.WriteVramStoresAndInvalidates : Prop :=
  ∀ (a : BitVec 32) (d : Byte) (s : State), encode (.writeVram a d) = pack 0x02 0 a d ∧
    (0x1FFF < a.toNat → exec (.writeVram a d) s = .next { s with result := .fault .invalidArgument }) ∧
    (a.toNat ≤ 0x1FFF → ∃ t, exec (.writeVram a d) s = .next t ∧
      (∀ b k, b ≤ 1 → t.ppu.vramRead b k =
        if b = s.ppu.vramBank.toNat ∧ k = a.toNat then d else s.ppu.vramRead b k) ∧
      (∀ key, t.ppu.cache.find key =
        if a.toNat ≤ 0x17FF ∧ key.n = 384 * s.ppu.vramBank.toNat + a.toNat / 16 then none else s.ppu.cache.find key) ∧
      t = { s with
        ppu := { s.ppu with vram0 := t.ppu.vram0, vram1 := t.ppu.vram1, cache := t.ppu.cache }, result := .none })

/-- 42_ppu_access.md R205: `setColorPalette` updates the raw mirror and the decoded entry and removes the entries of that
palette; an unchanged byte does nothing. -/
def Obligations.SetColorPaletteDecodesAndInvalidates : Prop :=
  ∀ (i : BitVec 32) (d : Byte) (s : State), encode (.setColorPalette i d) = pack 0x04 0 i d ∧
    (127 < i.toNat → exec (.setColorPalette i d) s = .next { s with result := .fault .invalidArgument }) ∧
    (s.ppu.colRaw[i.toNat]? = some d → exec (.setColorPalette i d) s = .next { s with result := .none }) ∧
    (i.toNat ≤ 127 → s.ppu.colRaw[i.toNat]? ≠ some d →
      ∃ t, exec (.setColorPalette i d) s = .next t ∧
        (∀ j : Fin 128, t.ppu.colRaw[j.val] = if j.val = i.toNat then d else s.ppu.colRaw[j.val]) ∧
        (∀ e : Fin 64, t.ppu.colPal[e.val] =
          if e.val = i.toNat / 2 then
            let v := t.ppu.colRaw[2 * e.val].toNat + 256 * t.ppu.colRaw[2 * e.val + 1].toNat
            BitVec.ofNat 32 (0xFF000000 + 2 ^ 16 * (8 * (v % 32)) + 2 ^ 8 * (8 * (v / 32 % 32)) + 8 * (v / 1024 % 32))
          else s.ppu.colPal[e.val]) ∧
        (∀ key, t.ppu.cache.find key =
          if key.kind = (if i.toNat / 2 / 4 < 8 then .bg else .obj) ∧ key.attr.toNat % 8 = i.toNat / 2 / 4 % 8 then none
          else s.ppu.cache.find key) ∧
        t = { s with
          ppu := { s.ppu with colRaw := t.ppu.colRaw, colPal := t.ppu.colPal, cache := t.ppu.cache }, result := .none })

/-- 42_ppu_access.md R206: `setMonoPalette` fills the four entries of its slot and removes the entries it serves. -/
def Obligations.SetMonoPaletteFillsItsSlot : Prop :=
  ∀ (slot : BitVec 32) (d : Byte) (s : State), encode (.setMonoPalette slot d) = pack 0x05 0 slot d ∧
    (2 < slot.toNat → exec (.setMonoPalette slot d) s = .next { s with result := .fault .invalidArgument }) ∧
    (slot.toNat ≤ 2 → ∃ t, exec (.setMonoPalette slot d) s = .next t ∧
      (∀ k : Fin 12, t.ppu.monoPal[k.val] =
        if k.val / 4 = slot.toNat then s.config.monoShade (Fin.ofNat 4 (d.toNat / 4 ^ (k.val % 4)))
        else s.ppu.monoPal[k.val]) ∧
      (∀ key, t.ppu.cache.find key =
        if (slot.toNat = 0 ∧ key.kind = .bg) ∨ (slot.toNat = 1 ∧ key.kind = .obj ∧ key.attr.getLsbD 4 = false) ∨
          (slot.toNat = 2 ∧ key.kind = .obj ∧ key.attr.getLsbD 4 = true) then none
        else s.ppu.cache.find key) ∧
      t = { s with ppu := { s.ppu with monoPal := t.ppu.monoPal, cache := t.ppu.cache }, result := .none })

/-- 42_ppu_access.md R210, R211: the interleave table spreads bit `k` to bit `2k`, and the index of a pixel is its low-plane
bit plus twice its high-plane bit, after flipping. -/
def Obligations.TilePixelIndexCombinesTheBitplanes : Prop :=
  (∀ (b : Byte) (k : Nat), k < 8 →
    (interleave b).testBit (2 * k) = b.getLsbD k ∧ (interleave b).testBit (2 * k + 1) = false) ∧
  (∀ b : Byte, interleave b < 2 ^ 16) ∧
  (∀ (p : Ppu) (bank t : Nat) (hflip vflip : Bool) (r c : Nat), r < 8 → c < 8 →
    p.tilePixelIndex bank t hflip vflip r c =
      let r' := if vflip then 7 - r else r
      let c' := if hflip then 7 - c else c
      bitNat ((p.vramRead bank (16 * t + 2 * r')).getLsbD (7 - c')) +
        2 * bitNat ((p.vramRead bank (16 * t + 2 * r' + 1)).getLsbD (7 - c')))

/-- 42_ppu_access.md R213: the mux takes the entry of the slot the layer and the mode select; sprite index 0 loses its alpha
byte and every other colour is opaque, given the tables' invariants (10_state.md R30, R31) and the constraints on the configuration (00_scope.md R10). -/
def Obligations.PaletteMuxSelectsAndMasks : Prop :=
  ∀ (cfg : Config) (p : Ppu) (colour : Bool) (kind : Kind) (attr : Byte) (idx : Fin 4), cfg.Valid → p.ColourTableInv →
    p.MonoTableInv cfg →
    let sel := if colour = true then
        p.colPal[4 * (attr.toNat % 8 + (if kind = .obj then 8 else 0)) + idx.val]?
      else p.monoPal[4 * (if kind = .bg then 0 else 1 + bitNat (attr.getLsbD 4)) + idx.val]?
    ∃ col, sel = some col ∧ Opaque col ∧
      (¬ (kind = .obj ∧ idx = 0) → p.paletteMux colour kind attr idx.val = col) ∧
      (kind = .obj ∧ idx = 0 →
        p.paletteMux colour kind attr idx.val = BitVec.setWidth 32 (col.extractLsb' 0 24))

/-! ### The compositor (spec/43_ppu_scanline.md) -/

/-- 43_ppu_scanline.md R250, R251, R268: `notifyScanline` writes its own line and the cache, which only gains entries; lines
144 to 153 change nothing. -/
def Obligations.NotifyScanlineWritesItsLineOnly : Prop :=
  ∀ (line : BitVec 32) (s : State),
    (line.toNat ≤ 143 → ∃ t, exec (.notifyScanline line) s = .next t ∧
      t = { s with ppu := { s.ppu with fb := t.ppu.fb, cache := t.ppu.cache }, result := .none } ∧
      (∀ key e, s.ppu.cache.find key = some e → t.ppu.cache.find key = some e) ∧
      (¬ (line.toNat = 143 ∧ s.ppu.lcdEnable = false) →
        ∀ y x, x < 160 → y ≠ line.toNat → t.ppu.fb.pixel y x = s.ppu.fb.pixel y x)) ∧
    (143 < line.toNat → line.toNat ≤ 153 → exec (.notifyScanline line) s = .next { s with result := .none })

/-- 43_ppu_scanline.md R266: at line 143 with the LCD off, every pixel of the frame is WHITE. -/
def Obligations.LcdOffClearsTheFrameAtLine143 : Prop :=
  ∀ s : State, s.ppu.lcdEnable = false →
    ∃ t, exec (.notifyScanline 143) s = .next t ∧ ∀ y x, y < 144 → x < 160 → t.ppu.fb.pixel y x = white

/-- 43_ppu_scanline.md R269 (an inference of the spec): the closed form of every pixel of a composed line, from any state with
a coherent cache and the palette tables' invariants. The functions of the scene are written out by
SceneReadsItsBytesAndBits. -/
def Obligations.ComposedPixelHasItsClosedForm : Prop :=
  ∀ (line : BitVec 32) (s : State), line.toNat ≤ 143 → (line.toNat = 143 → s.ppu.lcdEnable = true) →
    s.config.Valid → s.Coherent → s.ppu.ColourTableInv → s.ppu.MonoTableInv s.config →
    ∃ t, exec (.notifyScanline line) s = .next t ∧
      ∀ x, x < 160 → t.ppu.fb.pixel line.toNat x = (Scene.of s line.toNat).closedPixel x

/-- What the closed form reads, written out in bytes and bits: the register file bytes of a line (43_ppu_scanline.md R250,
R253), the colour mode (10_state.md R33), the window test (R253), the map tile (R254, 20_memory.md R94), a sprite's record,
place and tile (R260, R261), and a pixel's index under its attribute byte (42_ppu_access.md R211, R212). -/
def Obligations.SceneReadsItsBytesAndBits : Prop :=
  (∀ a : Byte, attrPriority a = a.getLsbD 7) ∧
  (∀ (s : State) (ly : Nat),
    let v := Scene.of s ly
    v.ppu = s.ppu ∧ v.ly = ly ∧ v.scy = (s.ioRead 0x42).toNat ∧ v.scx = (s.ioRead 0x43).toNat ∧
    v.wy = (s.ioRead 0x4A).toNat ∧ v.wx = (s.ioRead 0x4B).toNat ∧
    (v.colour = true ↔ ∃ c, s.cart = some c ∧ c.colour = true)) ∧
  (∀ v : Scene,
    (v.winVisible = true ↔ v.ppu.lcdc.getLsbD 5 = true ∧ v.wy ≤ v.ly ∧ v.wx ≤ 166) ∧ v.wx0 = (v.wx : Int) - 7) ∧
  (∀ (v : Scene) (sel : Bool) (mx my : Nat),
    let a := (if sel = true then 0x1C00 else 0x1800) + 32 * my + mx
    let i := v.ppu.vramRead 0 a
    let attr : Byte := if v.colour = true then v.ppu.vramRead 1 a else 0
    let t : Int := if v.ppu.lcdc.getLsbD 4 = true then (i.toNat : Int) else 256 + i.toInt
    let bank : Int := if v.colour = true ∧ attr.getLsbD 3 = true then 1 else 0
    (v.fetchMapTile sel mx my).2 = attr ∧ ((v.fetchMapTile sel mx my).1 : Int) = 384 * bank + t) ∧
  (∀ (p : Ppu) (i : Nat),
    let o := p.sprite i
    o.y = p.oamRead (4 * i) ∧ o.x = p.oamRead (4 * i + 1) ∧ o.tile = p.oamRead (4 * i + 2) ∧ o.attr = p.oamRead (4 * i + 3) ∧
    o.sy = (o.y.toNat : Int) - 16 ∧ o.sx = (o.x.toNat : Int) - 8) ∧
  (∀ (v : Scene) (o : Sprite),
    let tall := v.ppu.lcdc.getLsbD 2
    (v.onLine o = true ↔
      o.sy ≤ v.ly ∧ (v.ly : Int) < o.sy + (if tall = true then 16 else 8) ∧ -8 < o.sx ∧ o.sx < 160) ∧
    (let row := ((v.ly : Int) - o.sy).toNat
     let bank := if v.colour = true ∧ o.attr.getLsbD 3 = true then 1 else 0
     v.spriteTile o =
       if tall = true then
         (384 * bank + (2 * (o.tile.toNat / 2) + (if o.attr.getLsbD 6 = true then 1 - row / 8 else row / 8)), row % 8)
       else (384 * bank + o.tile.toNat, row))) ∧
  (∀ (p : Ppu) (n : Nat) (attr : Byte) (r c : Nat), r < 8 → c < 8 →
    let r' := if attr.getLsbD 6 = true then 7 - r else r
    let c' := if attr.getLsbD 5 = true then 7 - c else c
    p.pixelIndex n attr r c =
      bitNat ((p.vramRead (n / 384) (16 * (n % 384) + 2 * r')).getLsbD (7 - c')) +
        2 * bitNat ((p.vramRead (n / 384) (16 * (n % 384) + 2 * r' + 1)).getLsbD (7 - c')))

/-- 20_memory.md R105 (an inference of the spec): the cache cannot be observed; with a coherent cache a line is composed as
with an empty one. -/
def Obligations.TileCacheIsUnobservable : Prop :=
  ∀ (line : BitVec 32) (s : State), s.Coherent →
    ∃ t u, exec (.notifyScanline line) s = .next t ∧
      exec (.notifyScanline line) { s with ppu := { s.ppu with cache := [] } } = .next u ∧
      t = { u with ppu := { u.ppu with cache := t.ppu.cache } }

/-- 43_ppu_scanline.md R267: `endFrame` consults the gate and hands out the frame or nothing; only the counter changes. -/
def Obligations.EndFrameHandsOutTheFrameWhenTheGateOpens : Prop :=
  ∀ s : State, encode .endFrame = pack 0x08 0 0 0 ∧
    (s.pace.counter + 1 < s.pace.divisor →
      exec .endFrame s = .next { s with pace := { s.pace with counter := s.pace.counter + 1 }, result := .none }) ∧
    (s.pace.divisor ≤ s.pace.counter + 1 →
      exec .endFrame s = .next { s with pace := { s.pace with counter := 0 }, result := .frame s.ppu.fb })

/-! ### The pacing gate and the register file (spec/46_pacing_gate.md) -/

/-- 46_pacing_gate.md R401: one `tick`, and any number of them from counter 0: the calls number N, 2N, 3N, ... return true
and all others false. -/
def Obligations.TickOpensOncePerDivisor : Prop :=
  encode .tick = pack 0x11 0 0 0 ∧
  (∀ s : State,
    (s.pace.counter + 1 < s.pace.divisor →
      exec .tick s = .next { s with pace := { s.pace with counter := s.pace.counter + 1 }, result := .bool false }) ∧
    (s.pace.divisor ≤ s.pace.counter + 1 →
      exec .tick s = .next { s with pace := { s.pace with counter := 0 }, result := .bool true })) ∧
  (∀ (s : State) (k : Nat), s.pace.counter = 0 → 1 ≤ s.pace.divisor → 1 ≤ k →
    execAll (List.replicate k .tick) s =
      .next { s with
        pace := { s.pace with counter := k % s.pace.divisor }
        result := .bool (decide (k % s.pace.divisor = 0)) })

/-- 46_pacing_gate.md R402, R405: `setSpeed` sets the divisor and zeroes the counter; `mirrorWrite` stores one byte of the
register file and decodes nothing. -/
def Obligations.SetSpeedAndMirrorWriteStore : Prop :=
  (∀ (n : BitVec 32) (s : State), encode (.setSpeed n) = pack 0x12 0 n 0 ∧
    (n.toInt ≤ 0 → exec (.setSpeed n) s = .next { s with result := .fault .invalidArgument }) ∧
    (0 < n.toInt → ∃ t, exec (.setSpeed n) s = .next t ∧ (t.pace.divisor : Int) = n.toInt ∧ t.pace.counter = 0 ∧
      t = { s with pace := t.pace, result := .none })) ∧
  (∀ (r : BitVec 32) (d : Byte) (s : State), encode (.mirrorWrite r d) = pack 0x10 0 r d ∧
    (0x7F < r.toNat → exec (.mirrorWrite r d) s = .next { s with result := .fault .invalidArgument }) ∧
    (r.toNat ≤ 0x7F → ∃ t, exec (.mirrorWrite r d) s = .next t ∧
      (∀ q, t.ioRead q = if q = r.toNat then d else s.ioRead q) ∧ t = { s with io := t.io, result := .none }))

/-! ### APU registers (spec/44_apu_registers.md) -/

/-- 44_apu_registers.md R301: `ioWrite` at each of the 22 register numbers completes, stores its byte in the register file,
leaves every other byte, and of the rest of the state touches the APU alone. -/
def Obligations.IoWriteStoresTheMirrorAndTouchesOnlyTheApu : Prop :=
  ∀ (d : Byte) (s : State), ∀ call ∈ ioWriteCalls d, ∃ apu, IoWriteDoes call.2 call.1 d s apu

/-- 44_apu_registers.md R302: the helpers of the register writes: a frequency value as a cycle length, a new cycle length, an
envelope byte, a duty code; with bases of at least 2048, as the defaults are, a frequency register value never gives a zero
rate. -/
def Obligations.ChannelHelpersConvertTheirValues : Prop :=
  (∀ (cfg : Config) (base x : Nat), cycleLen cfg base x =
    if 2048 ≤ x then cfg.safeCycleLength
    else if base / (2048 - x) = 0 then cfg.safeCycleLength
    else max 1 (cfg.phaseOne * cfg.sampleRate / (base / (2048 - x)))) ∧
  (∀ base x : Nat, 2048 ≤ base → x ≤ 2047 → base / (2048 - x) ≠ 0) ∧
  2048 ≤ Config.default.sqBase ∧ 2048 ≤ Config.default.wvBase ∧
  (∀ (v : Voice) (l : Nat), 1 ≤ l → v.setCycle l = { v with cycleLen := l, phase := v.phase % l }) ∧
  (∀ e : Byte, envelopeSet e = { amp := 2 * (e.toNat / 16), step := e.toNat % 8, ctr := 0, up := e.getLsbD 3 }) ∧
  (∀ c : Fin 4, duty c.val = [1, 2, 4, 6][c.val])

/-- 44_apu_registers.md R303, R304, R305, R309, R310: sweep, duty and length, and envelope of the square channels. -/
def Obligations.SquareSetupWrites : Prop :=
  ∀ (d : Byte) (s : State),
    let env : Envelope := { amp := 2 * (d.toNat / 16), step := d.toNat % 8, ctr := 0, up := d.getLsbD 3 }
    let len : Length := .remaining ((64 - d.toNat % 64) / 4)
    let thr := [1, 2, 4, 6].getD (d.toNat / 64) 0
    let withLength (c : Square) : Square := { c with dutyThr := thr, voice := { c.voice with length := len } }
    let sweep : Sweep :=
      { period := (d.toNat / 16 % 8 + 1) / 2, shift := d.toNat % 8, down := d.getLsbD 3, ctr := 0 }
    IoWriteDoes (.ioWriteR10 d) 0x10 d s { s.apu with sweep := sweep } ∧
    IoWriteDoes (.ioWriteR11 d) 0x11 d s { s.apu with ch1 := withLength s.apu.ch1 } ∧
    IoWriteDoes (.ioWriteR12 d) 0x12 d s { s.apu with ch1 := { s.apu.ch1 with env := env } } ∧
    IoWriteDoes (.ioWriteR16 d) 0x16 d s { s.apu with ch2 := withLength s.apu.ch2 } ∧
    IoWriteDoes (.ioWriteR17 d) 0x17 d s { s.apu with ch2 := { s.apu.ch2 with env := env } }

/-- 44_apu_registers.md R306, R307, R311, R312: frequency and control of the square channels; the siblings are re-read from
the register file. -/
def Obligations.SquareFrequencyAndControlWrites : Prop :=
  ∀ (d : Byte) (s : State),
    let low (c : Square) (high : Byte) : Square :=
      let x := 256 * (high.toNat % 8) + d.toNat
      { c with freq := x, voice := { c.voice with
          cycleLen := cycleLen s.config s.config.sqBase x, phase := c.voice.phase % cycleLen s.config s.config.sqBase x } }
    let control (c : Square) (dutyLength envelope freqLow : Byte) : Square :=
      let x := 256 * (d.toNat % 8) + freqLow.toNat
      { c with
        freq := x
        env := if d.getLsbD 7 then
            { amp := 2 * (envelope.toNat / 16), step := envelope.toNat % 8, ctr := 0, up := envelope.getLsbD 3 }
          else c.env
        voice := { c.voice with
          cycleLen := cycleLen s.config s.config.sqBase x
          phase := c.voice.phase % cycleLen s.config s.config.sqBase x
          length := if d.getLsbD 6 = false then .continuous
            else if d.getLsbD 7 then .remaining ((64 - dutyLength.toNat % 64) / 4) else c.voice.length } }
    IoWriteDoes (.ioWriteR13 d) 0x13 d s { s.apu with ch1 := low s.apu.ch1 (s.ioRead 0x14) } ∧
    IoWriteDoes (.ioWriteR14 d) 0x14 d s
      { s.apu with ch1 := control s.apu.ch1 (s.ioRead 0x11) (s.ioRead 0x12) (s.ioRead 0x13) } ∧
    IoWriteDoes (.ioWriteR18 d) 0x18 d s { s.apu with ch2 := low s.apu.ch2 (s.ioRead 0x19) } ∧
    IoWriteDoes (.ioWriteR19 d) 0x19 d s
      { s.apu with ch2 := control s.apu.ch2 (s.ioRead 0x16) (s.ioRead 0x17) (s.ioRead 0x18) }

/-- 44_apu_registers.md R314 to R318: the registers of the wave channel. -/
def Obligations.WaveRegisterWrites : Prop :=
  ∀ (d : Byte) (s : State),
    let ch := s.apu.ch3
    let tuned (x : Nat) (length : Length) : Wave :=
      { ch with
        freq := x
        voice := { ch.voice with
          cycleLen := cycleLen s.config s.config.wvBase x, phase := ch.voice.phase % cycleLen s.config s.config.wvBase x, length := length } }
    let length : Length := if d.getLsbD 6 = false then .continuous
      else if d.getLsbD 7 then .remaining ((256 - (s.ioRead 0x1B).toNat) / 4) else ch.voice.length
    IoWriteDoes (.ioWriteR1A d) 0x1A d s { s.apu with ch3 := { ch with dacOn := d.getLsbD 7 } } ∧
    IoWriteDoes (.ioWriteR1B d) 0x1B d s
      { s.apu with ch3 := { ch with voice := { ch.voice with length := .remaining ((256 - d.toNat) / 4) } } } ∧
    IoWriteDoes (.ioWriteR1C d) 0x1C d s { s.apu with ch3 := { ch with volCode := d.toNat / 32 % 4 } } ∧
    IoWriteDoes (.ioWriteR1D d) 0x1D d s
      { s.apu with ch3 := tuned (256 * ((s.ioRead 0x1E).toNat % 8) + d.toNat) ch.voice.length } ∧
    IoWriteDoes (.ioWriteR1E d) 0x1E d s
      { s.apu with ch3 := tuned (256 * (d.toNat % 8) + (s.ioRead 0x1D).toNat) length }

/-- 44_apu_registers.md R322 to R325: the registers of the noise channel, `noiseSet` and `noiseRestart` (R320, R321) written
out. The draw is the free input of the call: below `NOISE_TABLE_LEN`, and every number below it is the draw of some input;
the statement holds for every value of it. -/
def Obligations.NoiseRegisterWrites : Prop :=
  ∀ (d : Byte) (s : State),
    let ch := s.apu.ch4
    let r := d.toNat % 8
    let sh := d.toNat / 16
    let cfg := s.config
    let f := if r = 0 then 2 * cfg.nzBase / 2 ^ (sh + 1) else cfg.nzBase / r / 2 ^ (sh + 1)
    let len := if f = 0 then cfg.safeCycleLength else max 1 (cfg.phaseOne * cfg.sampleRate / f)
    let cyc := len * (if d.getLsbD 3 then cfg.noiseShortLen else cfg.noiseTableLen)
    let env (e : Byte) : Envelope := { amp := 2 * (e.toNat / 16), step := e.toNat % 8, ctr := 0, up := e.getLsbD 3 }
    (cfg.Valid → s.noiseDraw < cfg.noiseTableLen) ∧
    (∀ k, k < cfg.noiseTableLen → { s with inputs := { s.inputs with draw := k } }.noiseDraw = k) ∧
    IoWriteDoes (.ioWriteR20 d) 0x20 d s
      { s.apu with ch4 := { ch with voice := { ch.voice with length := .remaining ((64 - d.toNat % 64) / 4) } } } ∧
    IoWriteDoes (.ioWriteR21 d) 0x21 d s { s.apu with ch4 := { ch with env := env d } } ∧
    IoWriteDoes (.ioWriteR22 d) 0x22 d s
      { s.apu with ch4 := { ch with
          stepLen := len
          shortMode := d.getLsbD 3
          offset := if d.getLsbD 3 then s.noiseDraw else 0
          voice := { ch.voice with cycleLen := cyc, phase := ch.voice.phase % cyc } } } ∧
    IoWriteDoes (.ioWriteR23 d) 0x23 d s
      { s.apu with ch4 := { ch with
          offset := if d.getLsbD 7 then (if ch.shortMode then s.noiseDraw else 0) else ch.offset
          env := if d.getLsbD 7 then env (s.ioRead 0x21) else ch.env
          voice := { ch.voice with
            length := if d.getLsbD 6 = false then .continuous
              else if d.getLsbD 7 then .remaining ((64 - (s.ioRead 0x20).toNat % 64) / 4) else ch.voice.length } } }

/-- 44_apu_registers.md R308, R319, R326, R327, R328, R329: registers that only store, routing (in both forms of the
output), and the enables. -/
def Obligations.StoreOnlyRoutingAndEnableWrites : Prop :=
  (∀ (d : Byte) (s : State),
    let mask (n : Nat) : BitVec 3 :=
      if s.config.stereo = true then BitVec.ofNat 3 (bitNat (d.getLsbD (3 + n)) + 2 * bitNat (d.getLsbD (n - 1)))
      else if d.getLsbD (3 + n) = true ∨ d.getLsbD (n - 1) = true then 4 else 0
    IoWriteDoes (.ioWriteR15 d) 0x15 d s s.apu ∧
    IoWriteDoes (.ioWriteR1F d) 0x1F d s s.apu ∧
    IoWriteDoes (.ioWriteR24 d) 0x24 d s s.apu ∧
    IoWriteDoes (.ioWriteR25 d) 0x25 d s
      { s.apu with
        ch1 := { s.apu.ch1 with voice := { s.apu.ch1.voice with route := mask 1 } }
        ch2 := { s.apu.ch2 with voice := { s.apu.ch2.voice with route := mask 2 } }
        ch3 := { s.apu.ch3 with voice := { s.apu.ch3.voice with route := mask 3 } }
        ch4 := { s.apu.ch4 with voice := { s.apu.ch4.voice with route := mask 4 } } }) ∧
  (∀ (n : BitVec 32) (e : Bool) (s : State), encode (.setChannelEnable n e) = pack 0x21 0 n (flagByte e) ∧
    (n.toNat < 1 ∨ 4 < n.toNat → exec (.setChannelEnable n e) s = .next { s with result := .fault .invalidArgument }) ∧
    (1 ≤ n.toNat → n.toNat ≤ 4 → ∃ t, exec (.setChannelEnable n e) s = .next t ∧
      (∀ m, 1 ≤ m → m ≤ 4 → t.apu.enabled m = if m = n.toNat then e else s.apu.enabled m) ∧
      t = { s with apu := { s.apu with chEnabled := t.apu.chEnabled }, result := .none })) ∧
  (∀ (e : Bool) (s : State), encode (.setSoundEnabled e) = pack 0x22 0 0 (flagByte e) ∧
    exec (.setSoundEnabled e) s = .next { s with apu := { s.apu with sndEnabled := e }, result := .none })

/-! ### Rendering (spec/45_apu_render.md) -/

/-- 45_apu_render.md R352, R353: the operand check, the gate, the length of the chunk (two lanes per sample frame with `STEREO`,
else one), and what stands still when the sound or a channel is off. -/
def Obligations.RenderIsGatedAndDisabledChannelsStandStill : Prop :=
  ∀ (count : BitVec 32) (s : State), encode (.render count) = pack 0x23 0 count 0 ∧
    (count.toInt < 0 → exec (.render count) s = .next { s with result := .fault .invalidArgument }) ∧
    (0 ≤ count.toInt → s.pace.counter + 1 < s.pace.divisor →
      exec (.render count) s =
        .next { s with pace := { s.pace with counter := s.pace.counter + 1 }, result := .bytes [] }) ∧
    (0 ≤ count.toInt → s.pace.divisor ≤ s.pace.counter + 1 →
      ∃ t l, exec (.render count) s = .next t ∧ (l.length : Int) = (if s.config.stereo = true then 2 else 1) * count.toInt ∧
        t = { s with pace := { s.pace with counter := 0 }, apu := t.apu, result := .bytes l } ∧
        (s.apu.sndEnabled = false → t.apu = s.apu ∧ ∀ b ∈ l, b = 0x80) ∧
        (s.apu.enabled 1 = false → t.apu.ch1 = s.apu.ch1 ∧ t.apu.sweep = s.apu.sweep) ∧
        (s.apu.enabled 2 = false → t.apu.ch2 = s.apu.ch2) ∧
        (s.apu.enabled 3 = false → t.apu.ch3 = s.apu.ch3) ∧
        (s.apu.enabled 4 = false → t.apu.ch4 = s.apu.ch4))

/-- 45_apu_render.md R354 to R357, R361: one ungated `render` takes every sounding channel one tick on: the length counter
down, the sweep and the envelope by their own counters, the phase by `count` samples; an exhausted channel stands still. -/
def Obligations.RenderTakesEachChannelOneTickOn : Prop :=
  (∀ e : Envelope, e.tick =
    if e.step = 0 then e
    else if e.ctr + 1 < e.step then { e with ctr := e.ctr + 1 }
    else { e with ctr := 0, amp := if e.up then min (e.amp + 2) 32 else e.amp - 2 }) ∧
  (∀ (cfg : Config) (w : Sweep) (c : Square), sweepTick cfg w c =
    if w.period = 0 then (w, c)
    else if w.ctr + 1 < w.period then ({ w with ctr := w.ctr + 1 }, c)
    else
      let x := if w.down then c.freq - c.freq / 2 ^ w.shift else min (c.freq + c.freq / 2 ^ w.shift) 2048
      ({ w with ctr := 0 }, { c with freq := x, voice := { c.voice with
        cycleLen := cycleLen cfg cfg.sqBase x, phase := c.voice.phase % cycleLen cfg cfg.sqBase x } })) ∧
  (∀ (count : BitVec 32) (s : State), 0 ≤ count.toInt → s.pace.divisor ≤ s.pace.counter + 1 →
    ∃ t, exec (.render count) s = .next t ∧
      (let a := s.apu
       let cfg := s.config
       let n := count.toInt.toNat
       let tickVoice (v : Voice) : Voice := { v with length := v.length.countDown, phase := v.phaseAt cfg n }
       t.apu = { a with
        sweep := if a.sounds 1 a.ch1.voice then (sweepTick cfg a.sweep a.ch1).1 else a.sweep
        ch1 := if a.sounds 1 a.ch1.voice then { a.ch1Now cfg with voice := tickVoice (a.ch1Now cfg).voice } else a.ch1
        ch2 := if a.sounds 2 a.ch2.voice then { a.ch2Now with voice := tickVoice a.ch2Now.voice } else a.ch2
        ch3 := if a.sounds 3 a.ch3.voice then { a.ch3 with voice := tickVoice a.ch3.voice } else a.ch3
        ch4 := if a.sounds 4 a.ch4.voice then { a.ch4Now with voice := tickVoice a.ch4Now.voice } else a.ch4 }))

/-- 45_apu_render.md R352, R353, R358, R359, R362, R363, read together: every byte of an ungated chunk is 128 plus the sum, over
the sounding channels routed to its lane (route bit 0 left, 1 right; without `STEREO` bit 2, R359), of their sample values at
the phase of that sample. No bit of the noise table is used. -/
def Obligations.RenderedByteIsTheSumOfTheChannels : Prop :=
  (∀ (c : Square) (p : Nat),
    c.sample p = if 8 * p / c.voice.cycleLen < c.dutyThr then (c.env.amp : Int) else -(c.env.amp : Int)) ∧
  (∀ (c : Wave) (table : Nat → Byte) (p : Nat), c.sample table p =
    let k := 32 * p / c.voice.cycleLen
    let b := table (0x30 + k / 2)
    let v := if k % 2 = 0 then b.toNat / 16 else b.toNat % 16
    if c.dacOn = false ∨ c.volCode = 0 then 0 else (((v : Int) - 8) * 4) / 2 ^ (c.volCode - 1)) ∧
  (∀ (cfg : Config) (c : Noise) (p : Nat), c.sample cfg p =
    if Config.noiseTable ((c.offset + p / c.stepLen) % cfg.noiseTableLen) then (c.env.amp : Int)
    else -(c.env.amp : Int)) ∧
  (∀ (count : BitVec 32) (s : State), 0 ≤ count.toInt → s.pace.divisor ≤ s.pace.counter + 1 →
    ∃ t l, exec (.render count) s = .next t ∧ t.result = .bytes l ∧
      ∀ i : Nat, (i : Int) < count.toInt →
        let lane (bit : Nat) : Int := s.apu.laneSum s.config s.ioRead (fun v => v.route.getLsbD bit) i
        if s.config.stereo = true then
          l[2 * i]? = some (BitVec.ofInt 8 (128 + lane 0)) ∧ l[2 * i + 1]? = some (BitVec.ofInt 8 (128 + lane 1))
        else l[i]? = some (BitVec.ofInt 8 (128 + lane 2)))

/-- 45_apu_render.md R360 (an inference of the spec): under the channel invariants every lane value lies in -128..124 and every
output byte in 0..252. -/
def Obligations.LanesNeverWrap : Prop :=
  ∀ (count : BitVec 32) (s : State), s.apu.Inv s.config → 0 ≤ count.toInt →
    (∀ (route : Voice → Bool) (i : Nat), -128 ≤ s.apu.laneSum s.config s.ioRead route i ∧ s.apu.laneSum s.config s.ioRead route i ≤ 124) ∧
    ∃ t l, exec (.render count) s = .next t ∧ t.result = .bytes l ∧ ∀ b ∈ l, b.toNat ≤ 252

/-! ### Invariants every step keeps -/

/-- 10_state.md R36 to R40, R42: the channel invariants, in every configuration that meets its constraints
(00_scope.md R10). -/
def Obligations.ChannelInvariantsKept : Prop :=
  ∀ s t : State, s.config.Valid → s.apu.Inv s.config → step s = .next t → t.apu.Inv t.config

/-- 10_state.md R48: `divisor >= 1` and `counter < divisor`. -/
def Obligations.PacingInvariantKept : Prop :=
  ∀ s t : State, s.pace.Inv → step s = .next t → t.pace.Inv

/-- 10_state.md R30, R31: the decoded colour table is the raw mirror decoded, and mono entries are shades. -/
def Obligations.PaletteTableInvariantsKept : Prop :=
  ∀ s t : State, s.ppu.ColourTableInv → s.ppu.MonoTableInv s.config → step s = .next t →
    t.ppu.ColourTableInv ∧ t.ppu.MonoTableInv t.config

/-- 20_memory.md R104: every cached tile equals the tile resolved against the current state: it holds at reset, and every
step keeps it. -/
def Obligations.TileCacheCoherenceKept : Prop :=
  State.reset.Coherent ∧ ∀ s t : State, s.Coherent → step s = .next t → t.Coherent

/-- Every memory keeps its canonical form and stays inside its space (20_memory.md R80; the form is the model's own,
notes/assumptions/12.md, 15.md). -/
def Obligations.MemoriesStayCanonical : Prop :=
  ∀ s t : State, s.MemoryInv → step s = .next t → t.MemoryInv

/-- 10_state.md R44, R45: bank counts are of the lists given, and `battery` is what the type code says. -/
def Obligations.CartridgeInvariantKept : Prop :=
  ∀ s t : State, (∀ c, s.cart = some c → c.Inv s.config) → step s = .next t → ∀ c, t.cart = some c → c.Inv t.config

/-- 10_state.md R34 (an inference of the spec): every stored pixel is opaque; with the palette invariants and coherence the
property is kept by every step. -/
def Obligations.StoredPixelsStayOpaque : Prop :=
  ∀ s t : State, s.config.Valid → s.FrameInv → step s = .next t → t.FrameInv

/-- 00_scope.md R10: the defaults of the table, which State.reset has, and the constraints a configuration must meet, which
they do (the defaults are PRESUMED, notes/assumptions/10.md); and no step changes the configuration, so its constraints hold
for ever (that it is a field of State is the model's own, 25.md). -/
def Obligations.ConfigurationHasItsDefaultsAndStaysFixed : Prop :=
  (∀ s t : State, step s = .next t → t.config = s.config) ∧
  (let c := Config.default
   State.reset = State.resetOf c ∧ (State.resetOf c).config = c ∧
   c.romBankSize = 0x4000 ∧ c.ramBankSize = 0x2000 ∧
   c.hdrColour = 0x143 ∧ c.hdrType = 0x147 ∧ c.hdrRomSize = 0x148 ∧ c.hdrRamSize = 0x149 ∧
   (∀ b : Byte, b ∈ c.batteryTypes ↔
     b.toNat ∈ [0x03, 0x06, 0x09, 0x0D, 0x0F, 0x10, 0x13, 0x1B, 0x1E, 0x22, 0xFF]) ∧
   c.monoShade 0 = 0xFFFFFFFF ∧ c.monoShade 1 = 0xFFAAAAAA ∧ c.monoShade 2 = 0xFF555555 ∧ c.monoShade 3 = 0xFF000000 ∧
   c.sampleRate = 44100 ∧ c.stereo = true ∧ c.sqBase = 131072 ∧ c.wvBase = 65536 ∧ c.nzBase = 524288 ∧
   c.phaseOne = 256 ∧ c.safeCycleLength = 65535 ∧ c.noiseTableLen = 32767 ∧ c.noiseShortLen = 127 ∧ c.Valid) ∧
  (∀ c : Config, c.Valid ↔
    c.hdrRamSize < c.romBankSize ∧ 0 < c.noiseShortLen ∧ c.noiseShortLen < c.noiseTableLen ∧ 0 < c.sampleRate ∧
      0 < c.phaseOne ∧ 1 ≤ c.safeCycleLength ∧ c.monoShade 0 = 0xFFFFFFFF ∧
      ∀ i : Fin 4, (c.monoShade i).toNat / 2 ^ 24 = 0xFF)

/-- 10_state.md R49: the values after reset, in every configuration that meets its constraints, and that every invariant above
holds there. The values are the spec's own decision (notes/assumptions/11.md), the canonical form of the memories and the
cache is the model's (12.md, 15.md), the opacity of the frame is an inference of the spec (10_state.md R34), and that
State.reset has the default configuration is 10.md. -/
def Obligations.ResetValuesAndInvariants : Prop :=
  State.reset = State.resetOf Config.default ∧
  ∀ cfg : Config, cfg.Valid →
  let s := State.resetOf cfg
  s.config = cfg ∧
  (∀ r : Fin 128, s.io[r.val] = 0) ∧ (∀ b a, s.ppu.vramRead b a = 0) ∧ s.ppu.vramBank = 0 ∧
  (∀ a, s.ppu.oamRead a = 0) ∧ s.ppu.lcdc = 0 ∧
  (∀ k : Fin 12, s.ppu.monoPal[k.val] = cfg.monoShade 0 ∧ s.ppu.monoPal[k.val] = white) ∧
  (∀ i : Fin 128, s.ppu.colRaw[i.val] = 0) ∧ (∀ e : Fin 64, s.ppu.colPal[e.val] = 0xFF000000) ∧
  s.ppu.cache = [] ∧ (∀ y x, s.ppu.fb.pixel y x = white) ∧ s.apu.sndEnabled = true ∧
  (∀ n, 1 ≤ n → n ≤ 4 → s.apu.enabled n = true) ∧
  (let v : Voice := { phase := 0, cycleLen := cfg.safeCycleLength, length := .remaining 0, route := 0 }
   let e : Envelope := { amp := 0, step := 0, ctr := 0, up := false }
   s.apu.ch1 = { voice := v, env := e, freq := 0, dutyThr := 1 } ∧
   s.apu.ch2 = { voice := v, env := e, freq := 0, dutyThr := 1 } ∧
   s.apu.sweep = { period := 0, shift := 0, down := false, ctr := 0 } ∧
   s.apu.ch3 = { voice := v, freq := 0, volCode := 0, dacOn := false } ∧
   s.apu.ch4 = { voice := { v with cycleLen := cfg.safeCycleLength * cfg.noiseTableLen }, env := e,
                 stepLen := cfg.safeCycleLength, shortMode := false, offset := 0 }) ∧
  s.cart = none ∧ s.pace = { counter := 0, divisor := 1 } ∧
  s.apu.Inv cfg ∧ s.pace.Inv ∧ s.MemoryInv ∧ s.FrameInv

/-! ### Whole-machine rules -/

/-- 20_memory.md R80, R104, 42_ppu_access.md R214, 10_state.md R22, R25 to R28, R30 to R32, R34, R35, R44, R46 to R48: each
piece of state is written only by the operations the spec lists for it. That no call writes the configuration or the ports
`pending` and `inputs` is the model's own (notes/assumptions/1.md, 2.md, 25.md). -/
def Obligations.EachPieceOfStateHasItsOwnWriters : Prop :=
  ∀ (i : Instr) (s t : State), exec i s = .next t →
    t.config = s.config ∧ t.pending = s.pending ∧ t.inputs = s.inputs ∧
    ((∀ r d, i ≠ .mirrorWrite r d) → (∀ d, ∀ call ∈ ioWriteCalls d, i ≠ call.2) → t.io = s.io) ∧
    ((∀ a d, i ≠ .writeVram a d) → t.ppu.vram0 = s.ppu.vram0 ∧ t.ppu.vram1 = s.ppu.vram1) ∧
    ((∀ b, i ≠ .setVramBank b) → t.ppu.vramBank = s.ppu.vramBank) ∧
    ((∀ a d, i ≠ .writeOam a d) → t.ppu.oam = s.ppu.oam) ∧
    ((∀ d, i ≠ .writeControlRegister d) → t.ppu.lcdc = s.ppu.lcdc) ∧
    ((∀ k d, i ≠ .setColorPalette k d) → t.ppu.colRaw = s.ppu.colRaw ∧ t.ppu.colPal = s.ppu.colPal) ∧
    ((∀ k d, i ≠ .setMonoPalette k d) → t.ppu.monoPal = s.ppu.monoPal) ∧
    ((∀ a d, i ≠ .writeVram a d) → (∀ k d, i ≠ .setColorPalette k d) → (∀ k d, i ≠ .setMonoPalette k d) → i ≠ .load →
      (∀ l, i ≠ .notifyScanline l) → t.ppu.cache = s.ppu.cache) ∧
    ((∀ l, i ≠ .notifyScanline l) → t.ppu.fb = s.ppu.fb) ∧
    ((∀ e, i ≠ .setSoundEnabled e) → t.apu.sndEnabled = s.apu.sndEnabled) ∧
    ((∀ n e, i ≠ .setChannelEnable n e) → t.apu.chEnabled = s.apu.chEnabled) ∧
    ((∀ d, ∀ call ∈ ioWriteCalls d, i ≠ call.2) → (∀ n e, i ≠ .setChannelEnable n e) → (∀ e, i ≠ .setSoundEnabled e) →
      (∀ n, i ≠ .render n) → t.apu = s.apu) ∧
    ((∀ n, i ≠ .setSpeed n) → t.pace.divisor = s.pace.divisor) ∧
    ((∀ n, i ≠ .setSpeed n) → i ≠ .tick → i ≠ .endFrame → (∀ n, i ≠ .render n) → t.pace = s.pace) ∧
    (i ≠ .load → t.cart.map (fun c => (c.nrom, c.rom, c.nram, c.typeCode, c.colour, c.battery)) =
      s.cart.map (fun c => (c.nrom, c.rom, c.nram, c.typeCode, c.colour, c.battery))) ∧
    (i ≠ .load → (∀ b o d, i ≠ .ramWrite b o d) → i ≠ .loadSave → t.cart.map (·.ram) = s.cart.map (·.ram)) ∧
    (i ≠ .load → i ≠ .loadSave → (∀ k d, i ≠ .rtcWrite k d) → i ≠ .tickRtc → i ≠ .skipRtc →
      t.cart.map (·.rtc) = s.cart.map (·.rtc)) ∧
    (i ≠ .load → i ≠ .loadSave → i ≠ .tickRtc → t.cart.map (·.rtcLast) = s.cart.map (·.rtcLast))

/-- 41_cartridge.md R169: while the clock is halted it does not advance, and the clock never clears its carry flag. -/
def Obligations.HaltStopsTheClockAndCarryIsSticky : Prop :=
  ∀ (s : State) (c : Cartridge), s.cart = some c →
    ∃ t u ct cu, exec .tickRtc s = .next t ∧ t.cart = some ct ∧ exec .skipRtc s = .next u ∧ u.cart = some cu ∧
      (c.rtc.halt = true → ct.rtc = c.rtc ∧ cu.rtc = c.rtc ∧ ct.rtcLast = some s.inputs.now) ∧
      (c.rtc.carry = true → ct.rtc.carry = true ∧ cu.rtc.carry = true) ∧
      ct.rtc.halt = c.rtc.halt ∧ cu.rtc.halt = c.rtc.halt
end

