-- ==== Sys2Proof/Laws/State.lean ====
section
/-! SUPPORT. One lemma per field per update, true by rfl, so that no later proof unfolds a record update; and what the
two ways of ending a call answer. -/

namespace Sys2Proof.Machine

/-! ### Ports -/

@[simp] theorem finish_eq (r : Result) (s : State) : finish r s = .next { s with result := r } := rfl
@[simp] theorem raise_eq (f : Fault) (s : State) : raise f s = .next { s with result := .fault f } := rfl
@[simp] theorem finishCart_eq (c : Cartridge) (s : State) :
    finishCart c s = .next { s with cart := some c, result := .none } := rfl

@[simp] theorem withCart_none (s : State) (k : Cartridge → Out) (h : s.cart = none) :
    withCart s k = .refused .noCartridge := by simp [withCart, h]
@[simp] theorem withCart_some (s : State) (k : Cartridge → Out) (c : Cartridge) (h : s.cart = some c) :
    withCart s k = k c := by simp [withCart, h]

/-- What a cartridge operation can do: it is refused, or it runs on the loaded cartridge. -/
theorem withCart_cases (s : State) (k : Cartridge → Out) :
    (s.cart = none ∧ withCart s k = .refused .noCartridge) ∨ ∃ c, s.cart = some c ∧ withCart s k = k c := by
  cases h : s.cart with
  | none => exact .inl ⟨rfl, withCart_none s k h⟩
  | some c => exact .inr ⟨c, rfl, withCart_some s k c h⟩

@[simp] theorem latch_config (s : State) (c : Call) (l : List Call) : (s.latch c l).config = s.config := rfl
@[simp] theorem latch_io (s : State) (c : Call) (l : List Call) : (s.latch c l).io = s.io := rfl
@[simp] theorem latch_ppu (s : State) (c : Call) (l : List Call) : (s.latch c l).ppu = s.ppu := rfl
@[simp] theorem latch_apu (s : State) (c : Call) (l : List Call) : (s.latch c l).apu = s.apu := rfl
@[simp] theorem latch_cart (s : State) (c : Call) (l : List Call) : (s.latch c l).cart = s.cart := rfl
@[simp] theorem latch_pace (s : State) (c : Call) (l : List Call) : (s.latch c l).pace = s.pace := rfl
@[simp] theorem latch_pending (s : State) (c : Call) (l : List Call) : (s.latch c l).pending = l := rfl
@[simp] theorem latch_inputs (s : State) (c : Call) (l : List Call) : (s.latch c l).inputs = c.inputs := rfl
@[simp] theorem latch_result (s : State) (c : Call) (l : List Call) : (s.latch c l).result = s.result := rfl

@[simp] theorem colourMode_latch (s : State) (c : Call) (l : List Call) : (s.latch c l).colourMode = s.colourMode := rfl

theorem step_idle (s : State) (h : s.pending = []) : step s = .next s := by simp [step, h]
theorem step_call (s : State) (c : Call) (l : List Call) (h : s.pending = c :: l) :
    step s = runVerdict (decode c.word) (s.latch c l) := by simp [step, h]

/-! ### The register file -/

@[simp] theorem ioStore_config (s : State) (r : Nat) (d : Byte) : (s.ioStore r d).config = s.config := rfl
@[simp] theorem ioStore_ppu (s : State) (r : Nat) (d : Byte) : (s.ioStore r d).ppu = s.ppu := rfl
@[simp] theorem ioStore_apu (s : State) (r : Nat) (d : Byte) : (s.ioStore r d).apu = s.apu := rfl
@[simp] theorem ioStore_cart (s : State) (r : Nat) (d : Byte) : (s.ioStore r d).cart = s.cart := rfl
@[simp] theorem ioStore_pace (s : State) (r : Nat) (d : Byte) : (s.ioStore r d).pace = s.pace := rfl
@[simp] theorem ioStore_pending (s : State) (r : Nat) (d : Byte) : (s.ioStore r d).pending = s.pending := rfl
@[simp] theorem ioStore_inputs (s : State) (r : Nat) (d : Byte) : (s.ioStore r d).inputs = s.inputs := rfl
@[simp] theorem ioStore_result (s : State) (r : Nat) (d : Byte) : (s.ioStore r d).result = s.result := rfl

/-- A stored register byte reads back. -/
theorem ioRead_ioStore_same (s : State) (r : Nat) (d : Byte) (h : r < 128) : (s.ioStore r d).ioRead r = d := by
  simp [State.ioStore, State.ioRead, h]

/-- Every other register byte reads as before. -/
theorem ioRead_ioStore_other (s : State) (r q : Nat) (d : Byte) (h : q ≠ r) :
    (s.ioStore r d).ioRead q = s.ioRead q := by
  simp [State.ioStore, State.ioRead, Ne.symm h]

/-- An `ioWrite` to a register of the table answers a next state: the mirror first, then the register's own effect
(44_apu_registers.md R301). -/
theorem ioWriteReg_eq (r : Nat) (d : Byte) (f : State → Apu) (s : State) :
    ioWriteReg r d f s = .next { s.ioStore r d with apu := f (s.ioStore r d), result := .none } := rfl

/-! ### The configuration and the draw -/

/-- The draw depends on the port and on the configuration alone. -/
@[simp] theorem ioStore_noiseDraw (s : State) (r : Nat) (d : Byte) : (s.ioStore r d).noiseDraw = s.noiseDraw := rfl

@[simp] theorem resetOf_config (cfg : Config) : (State.resetOf cfg).config = cfg := rfl
@[simp] theorem resetOf_cart (cfg : Config) : (State.resetOf cfg).cart = none := rfl
@[simp] theorem resetOf_pending (cfg : Config) : (State.resetOf cfg).pending = [] := rfl
@[simp] theorem resetOf_colourMode (cfg : Config) : (State.resetOf cfg).colourMode = false := rfl

/-! ### PPU records -/

@[simp] theorem oamWrite_oam (p : Ppu) (a : Nat) (d : Byte) : (p.oamWrite a d).oam = p.oam.write a d := rfl
@[simp] theorem oamWrite_vram0 (p : Ppu) (a : Nat) (d : Byte) : (p.oamWrite a d).vram0 = p.vram0 := rfl
@[simp] theorem oamWrite_vram1 (p : Ppu) (a : Nat) (d : Byte) : (p.oamWrite a d).vram1 = p.vram1 := rfl
@[simp] theorem oamWrite_cache (p : Ppu) (a : Nat) (d : Byte) : (p.oamWrite a d).cache = p.cache := rfl
@[simp] theorem oamWrite_fb (p : Ppu) (a : Nat) (d : Byte) : (p.oamWrite a d).fb = p.fb := rfl
@[simp] theorem oamWrite_colRaw (p : Ppu) (a : Nat) (d : Byte) : (p.oamWrite a d).colRaw = p.colRaw := rfl
@[simp] theorem oamWrite_colPal (p : Ppu) (a : Nat) (d : Byte) : (p.oamWrite a d).colPal = p.colPal := rfl
@[simp] theorem oamWrite_monoPal (p : Ppu) (a : Nat) (d : Byte) : (p.oamWrite a d).monoPal = p.monoPal := rfl

/-- What a VRAM store leaves alone, whichever bank it goes to. -/
theorem vramWrite_eq (p : Ppu) (a : Nat) (d : Byte) :
    p.vramWrite a d = { p with vram0 := (p.vramWrite a d).vram0, vram1 := (p.vramWrite a d).vram1 } := by
  unfold Ppu.vramWrite; split <;> rfl

@[simp] theorem vramWrite_vramBank (p : Ppu) (a : Nat) (d : Byte) : (p.vramWrite a d).vramBank = p.vramBank := by
  rw [vramWrite_eq]
@[simp] theorem vramWrite_oam (p : Ppu) (a : Nat) (d : Byte) : (p.vramWrite a d).oam = p.oam := by rw [vramWrite_eq]
@[simp] theorem vramWrite_lcdc (p : Ppu) (a : Nat) (d : Byte) : (p.vramWrite a d).lcdc = p.lcdc := by rw [vramWrite_eq]
@[simp] theorem vramWrite_monoPal (p : Ppu) (a : Nat) (d : Byte) : (p.vramWrite a d).monoPal = p.monoPal := by
  rw [vramWrite_eq]
@[simp] theorem vramWrite_colRaw (p : Ppu) (a : Nat) (d : Byte) : (p.vramWrite a d).colRaw = p.colRaw := by
  rw [vramWrite_eq]
@[simp] theorem vramWrite_colPal (p : Ppu) (a : Nat) (d : Byte) : (p.vramWrite a d).colPal = p.colPal := by
  rw [vramWrite_eq]
@[simp] theorem vramWrite_cache (p : Ppu) (a : Nat) (d : Byte) : (p.vramWrite a d).cache = p.cache := by
  rw [vramWrite_eq]
@[simp] theorem vramWrite_fb (p : Ppu) (a : Nat) (d : Byte) : (p.vramWrite a d).fb = p.fb := by rw [vramWrite_eq]

@[simp] theorem putColour_vram0 (p : Ppu) (i : Nat) (d : Byte) : (p.putColour i d).vram0 = p.vram0 := rfl
@[simp] theorem putColour_vram1 (p : Ppu) (i : Nat) (d : Byte) : (p.putColour i d).vram1 = p.vram1 := rfl
@[simp] theorem putColour_monoPal (p : Ppu) (i : Nat) (d : Byte) : (p.putColour i d).monoPal = p.monoPal := rfl
@[simp] theorem putColour_colRaw (p : Ppu) (i : Nat) (d : Byte) :
    (p.putColour i d).colRaw = p.colRaw.setIfInBounds i d := rfl
@[simp] theorem putColour_cache (p : Ppu) (i : Nat) (d : Byte) :
    (p.putColour i d).cache = p.cache.invalidate (colourWriteStales (i / 2)) := rfl
@[simp] theorem putMono_vram0 (cfg : Config) (p : Ppu) (k : Nat) (d : Byte) : (p.putMono cfg k d).vram0 = p.vram0 := rfl
@[simp] theorem putMono_vram1 (cfg : Config) (p : Ppu) (k : Nat) (d : Byte) : (p.putMono cfg k d).vram1 = p.vram1 := rfl
@[simp] theorem putMono_colPal (cfg : Config) (p : Ppu) (k : Nat) (d : Byte) : (p.putMono cfg k d).colPal = p.colPal := rfl
@[simp] theorem putMono_colRaw (cfg : Config) (p : Ppu) (k : Nat) (d : Byte) : (p.putMono cfg k d).colRaw = p.colRaw := rfl
@[simp] theorem putMono_cache (cfg : Config) (p : Ppu) (k : Nat) (d : Byte) :
    (p.putMono cfg k d).cache = p.cache.invalidate (monoWriteStales k) := rfl

/-! ### Channel records -/

@[simp] theorem setCycle_cycleLen (v : Voice) (l : Nat) : (v.setCycle l).cycleLen = l := rfl
@[simp] theorem setCycle_phase (v : Voice) (l : Nat) : (v.setCycle l).phase = v.phase % l := rfl
@[simp] theorem setCycle_length (v : Voice) (l : Nat) : (v.setCycle l).length = v.length := rfl
@[simp] theorem setCycle_route (v : Voice) (l : Nat) : (v.setCycle l).route = v.route := rfl
@[simp] theorem setLength_cycleLen (v : Voice) (l : Length) : (v.setLength l).cycleLen = v.cycleLen := rfl
@[simp] theorem setLength_phase (v : Voice) (l : Length) : (v.setLength l).phase = v.phase := rfl
@[simp] theorem setLength_length (v : Voice) (l : Length) : (v.setLength l).length = l := rfl
@[simp] theorem setLength_route (v : Voice) (l : Length) : (v.setLength l).route = v.route := rfl
@[simp] theorem putRoute_cycleLen (cfg : Config) (v : Voice) (d : Byte) (n : Nat) : (v.putRoute cfg d n).cycleLen = v.cycleLen := rfl
@[simp] theorem putRoute_phase (cfg : Config) (v : Voice) (d : Byte) (n : Nat) : (v.putRoute cfg d n).phase = v.phase := rfl
@[simp] theorem putRoute_length (cfg : Config) (v : Voice) (d : Byte) (n : Nat) : (v.putRoute cfg d n).length = v.length := rfl

end Sys2Proof.Machine
end

