-- ==== Sys2Proof/Laws/Apu.lean ====
section
/-! SUPPORT. What the shared APU operations can do: lengths of cycles are positive, a new cycle length re-bases the phase, an
envelope step keeps the envelope in range, and the sample loop moves the phase alone (spec/44_apu_registers.md R302,
45_apu_render.md R354 to R357). -/

namespace Sys2Proof.Machine

theorem rateToLength_pos (cfg : Config) (h : cfg.Valid) (f : Nat) : 1 ≤ rateToLength cfg f := by
  have := h.safeCycle
  unfold rateToLength; split <;> omega

theorem cycleLen_pos (cfg : Config) (h : cfg.Valid) (base x : Nat) : 1 ≤ cycleLen cfg base x := by
  unfold cycleLen
  split
  · exact h.safeCycle
  · exact rateToLength_pos cfg h _

theorem noiseEntries_pos (cfg : Config) (h : cfg.Valid) (b : Bool) : 1 ≤ noiseEntries cfg b := by
  have := h.noiseShort
  have := h.noiseTable
  unfold noiseEntries; split <;> omega

/-- The draw is below `NOISE_TABLE_LEN` (44_apu_registers.md R321). -/
theorem noiseDraw_lt (s : State) (h : s.config.Valid) : s.noiseDraw < s.config.noiseTableLen :=
  Nat.mod_lt _ (Nat.lt_trans h.noiseShort h.noiseTable)

/-- A new cycle length leaves a voice in range (10_state.md R42). -/
theorem setCycle_inv (v : Voice) (l : Nat) (h : 1 ≤ l) : (v.setCycle l).Inv := ⟨h, Nat.mod_lt _ h⟩

/-- What an envelope byte sets (44_apu_registers.md R302). -/
theorem envelopeSet_inv (e : Byte) : (envelopeSet e).Inv := by
  revert e; decide

/-- An envelope step keeps the envelope in range (45_apu_render.md R357, 10_state.md R42). -/
theorem envelopeTick_inv (e : Envelope) (h : e.Inv) : e.tick.Inv := by
  obtain ⟨h1, h2, h3, h4⟩ := h
  unfold Envelope.tick
  split
  · exact ⟨h1, h2, h3, h4⟩
  · split
    · refine ⟨?_, ?_, h3, by simp⟩
      · cases e.up <;> simp <;> omega
      · cases e.up <;> simp; omega
    · exact ⟨h1, h2, h3, by simp only; omega⟩

theorem freqValue_le (high low : Byte) : freqValue high low ≤ 2047 := by
  have := low.isLt
  unfold freqValue Byte.bits bits; omega

/-- A length tick takes the counter down and changes nothing else (45_apu_render.md R354, R355). -/
theorem lengthTick_some (v w : Voice) (h : v.lengthTick = some w) :
    w.phase = v.phase ∧ w.cycleLen = v.cycleLen ∧ w.route = v.route ∧ v.length ≠ .remaining 0 ∧
      ((v.length = .continuous ∧ w.length = .continuous) ∨ ∃ k, v.length = .remaining (k + 1) ∧ w.length = .remaining k) := by
  unfold Voice.lengthTick at h
  split at h
  · cases h
  · next k hk => cases h; simp [hk]
  · next hc => cases h; simp [hc]

theorem lengthTick_none (v : Voice) : v.lengthTick = none ↔ v.length = .remaining 0 := by
  unfold Voice.lengthTick
  split <;> simp_all

@[simp] theorem sampleLoop_length (cfg : Config) (f : Nat → Int) (v : Voice) (buf : List LaneFrame) :
    (sampleLoop cfg f v buf).2.length = buf.length := by
  induction buf generalizing v with
  | nil => rfl
  | cons x r ih => simp [sampleLoop, ih]

/-- The sample loop moves the phase and nothing else of the voice (45_apu_render.md R354). -/
theorem sampleLoop_voice (cfg : Config) (f : Nat → Int) (v : Voice) (buf : List LaneFrame) :
    (sampleLoop cfg f v buf).1 = { v with phase := v.phaseAt cfg buf.length } := by
  induction buf generalizing v with
  | nil => simp [sampleLoop, Voice.phaseAt]
  | cons x r ih =>
    simp only [sampleLoop, ih, Voice.phaseAt, List.length_cons]
    have key : (v.phase + cfg.phaseOne) % v.cycleLen + cfg.phaseOne * r.length ≡
        v.phase + cfg.phaseOne * (r.length + 1) [MOD v.cycleLen] := by
      have := (Nat.mod_modEq (v.phase + cfg.phaseOne) v.cycleLen).add_right (cfg.phaseOne * r.length)
      rwa [show v.phase + cfg.phaseOne + cfg.phaseOne * r.length = v.phase + cfg.phaseOne * (r.length + 1) by ring]
        at this
    cases hr : r.length with
    | zero => simp
    | succ n => rw [hr] at key; simp only [Nat.add_one_ne_zero, if_false]; rw [key]

theorem phaseAt_lt (cfg : Config) (v : Voice) (h : v.Inv) (i : Nat) : v.phaseAt cfg i < v.cycleLen := by
  unfold Voice.phaseAt
  split
  · exact h.2
  · exact Nat.mod_lt _ h.1

end Sys2Proof.Machine
end

