-- ==== Sys2Proof/Laws/Memory.lean ====
section
/-! SUPPORT. The laws of the memories: a read after a write to the same place gives the value written, a write leaves every
other place alone, and every operation keeps the canonical form. -/

namespace Sys2Proof.Machine

section Maps
variable {κ α : Type}

theorem lookupKey_removeKeys [DecidableEq κ] (m : List (κ × α)) (p : κ → Bool) (k : κ) :
    lookupKey (removeKeys m p) k = if p k then none else lookupKey m k := by
  induction m with
  | nil => simp [removeKeys, lookupKey]
  | cons e r ih =>
    by_cases hp : p e.1 = true
    · by_cases he : e.1 = k
      · subst he; simp_all [removeKeys]
      · simp_all [removeKeys, lookupKey]
    · by_cases he : e.1 = k
      · subst he; simp_all [removeKeys, lookupKey]
      · simp_all [removeKeys, lookupKey]

theorem lookupKey_insertKey_other [DecidableEq κ] (code : κ → Nat) (m : List (κ × α)) (k q : κ) (v : α) (h : q ≠ k) :
    lookupKey (insertKey code m k v) q = lookupKey m q := by
  induction m with
  | nil => simp [insertKey, lookupKey, Ne.symm h]
  | cons e r ih =>
    unfold insertKey
    split
    · simp [lookupKey, Ne.symm h]
    · simp [lookupKey, ih]

theorem lookupKey_insertKey_same [DecidableEq κ] (code : κ → Nat) (m : List (κ × α)) (k : κ) (v : α)
    (h : lookupKey m k = none) : lookupKey (insertKey code m k v) k = some v := by
  induction m with
  | nil => simp [insertKey, lookupKey]
  | cons e r ih =>
    unfold insertKey
    split
    · simp [lookupKey]
    · by_cases he : e.1 = k
      · simp [lookupKey, he] at h
      · simp only [lookupKey, he, if_false] at h ⊢; exact ih h

theorem lookupKey_append [DecidableEq κ] (m n : List (κ × α)) (k : κ) :
    lookupKey (m ++ n) k = (lookupKey m k).or (lookupKey n k) := by
  induction m with
  | nil => simp [lookupKey]
  | cons e r ih => by_cases he : e.1 = k <;> simp [lookupKey, he, ih]

theorem lookupKey_eq_none [DecidableEq κ] (m : List (κ × α)) (k : κ) (h : ∀ e ∈ m, e.1 ≠ k) :
    lookupKey m k = none := by
  induction m with
  | nil => rfl
  | cons e r ih =>
    simp [lookupKey, h e (by simp), ih fun x hx => h x (by simp [hx])]

theorem mem_of_lookupKey [DecidableEq κ] (m : List (κ × α)) (k : κ) (v : α) (h : lookupKey m k = some v) :
    (k, v) ∈ m := by
  induction m with
  | nil => simp [lookupKey] at h
  | cons e r ih =>
    by_cases he : e.1 = k
    · simp only [lookupKey, he, if_true] at h
      subst he; cases h; simp
    · simp only [lookupKey, he, if_false] at h
      exact List.mem_cons_of_mem _ (ih h)

theorem mem_removeKeys (m : List (κ × α)) (p : κ → Bool) (e : κ × α) : e ∈ removeKeys m p ↔ e ∈ m ∧ p e.1 = false := by
  simp [removeKeys]

theorem mem_insertKey (code : κ → Nat) (m : List (κ × α)) (k : κ) (v : α) (e : κ × α) :
    e ∈ insertKey code m k v ↔ e = (k, v) ∨ e ∈ m := by
  induction m with
  | nil => simp [insertKey]
  | cons x r ih =>
    unfold insertKey
    split
    · simp
    · simp only [List.mem_cons, ih]; tauto

theorem KeysRise.removeKeys {code : κ → Nat} {m : List (κ × α)} (h : KeysRise code m) (p : κ → Bool) :
    KeysRise code (removeKeys m p) := List.Pairwise.filter _ h

theorem KeysRise.insertKey {code : κ → Nat} {m : List (κ × α)} (h : KeysRise code m) (k : κ) (v : α)
    (hk : ∀ e ∈ m, code e.1 ≠ code k) : KeysRise code (insertKey code m k v) := by
  induction m with
  | nil => simp [KeysRise, Machine.insertKey]
  | cons x r ih =>
    obtain ⟨hx, hr⟩ := List.pairwise_cons.mp h
    unfold Machine.insertKey
    split
    · next hlt =>
      refine List.pairwise_cons.mpr ⟨fun e he => ?_, h⟩
      rcases List.mem_cons.mp he with rfl | he
      · exact hlt
      · exact lt_trans hlt (hx e he)
    · next hge =>
      refine List.pairwise_cons.mpr ⟨fun e he => ?_, ih hr fun e he => hk e (by simp [he])⟩
      rcases (mem_insertKey code r k v e).mp he with rfl | he
      · have := hk x (by simp); simp only; omega
      · exact hx e he

end Maps

/-! ### Byte memories -/

theorem read_write_same (m : Memory) (a : Nat) (v : Byte) : (m.write a v).read a = v := by
  unfold Memory.write Memory.read
  split
  · next h => simp [lookupKey_removeKeys, h]
  · rw [lookupKey_insertKey_same _ _ _ _ (by simp [lookupKey_removeKeys])]; rfl

theorem read_write_other (m : Memory) (a b : Nat) (v : Byte) (h : b ≠ a) : (m.write a v).read b = m.read b := by
  unfold Memory.write Memory.read
  split
  · simp [lookupKey_removeKeys, h]
  · rw [lookupKey_insertKey_other _ _ _ _ _ h]; simp [lookupKey_removeKeys, h]

theorem write_keeps_wf (m : Memory) (a : Nat) (v : Byte) (h : m.wf) : (m.write a v).wf := by
  obtain ⟨hr, hz⟩ := h
  unfold Memory.write
  split
  · exact ⟨hr.removeKeys _, fun c hc => hz c ((mem_removeKeys _ _ _).mp hc).1⟩
  · next hv =>
    refine ⟨(hr.removeKeys _).insertKey _ _ fun e he => ?_, fun c hc => ?_⟩
    · simpa using ((mem_removeKeys _ _ _).mp he).2
    · rcases (mem_insertKey _ _ _ _ _).mp hc with rfl | hc
      · exact hv
      · exact hz c ((mem_removeKeys _ _ _).mp hc).1

theorem write_keeps_below (m : Memory) (a n : Nat) (v : Byte) (h : m.below n) (ha : a < n) : (m.write a v).below n := by
  intro c hc
  unfold Memory.write at hc
  split at hc
  · exact h c ((mem_removeKeys _ _ _).mp hc).1
  · rcases (mem_insertKey _ _ _ _ _).mp hc with rfl | hc
    · exact ha
    · exact h c ((mem_removeKeys _ _ _).mp hc).1

theorem cellsFrom_bounds (l : List Byte) (a : Nat) :
    ∀ c ∈ Memory.cellsFrom a l, a ≤ c.1 ∧ c.1 < a + l.length ∧ c.2 ≠ Memory.unlisted := by
  induction l generalizing a with
  | nil => simp [Memory.cellsFrom]
  | cons v r ih =>
    intro c hc
    unfold Memory.cellsFrom at hc
    split at hc
    · have := ih (a + 1) c hc; simp only [List.length_cons]; exact ⟨by omega, by omega, this.2.2⟩
    · next hv =>
      rcases List.mem_cons.mp hc with rfl | hc
      · exact ⟨le_rfl, by simp, hv⟩
      · have := ih (a + 1) c hc; simp only [List.length_cons]; exact ⟨by omega, by omega, this.2.2⟩

theorem cellsFrom_rise (l : List Byte) (a : Nat) : KeysRise id (Memory.cellsFrom a l) := by
  induction l generalizing a with
  | nil => simp [Memory.cellsFrom, KeysRise]
  | cons v r ih =>
    unfold Memory.cellsFrom
    split
    · exact ih _
    · refine List.pairwise_cons.mpr ⟨fun c hc => ?_, ih _⟩
      have := cellsFrom_bounds r (a + 1) c hc; simp only [id]; omega

theorem read_cellsFrom (l : List Byte) (a k : Nat) :
    Memory.read (Memory.cellsFrom a l) (a + k) = l.getD k Memory.unlisted := by
  induction l generalizing a k with
  | nil => simp [Memory.cellsFrom, Memory.read, lookupKey]
  | cons v r ih =>
    have hz : Memory.read (Memory.cellsFrom (a + 1) r) a = Memory.unlisted := by
      unfold Memory.read
      rw [lookupKey_eq_none _ _ fun e he => ?_]
      · rfl
      · have := cellsFrom_bounds r (a + 1) e he; omega
    unfold Memory.cellsFrom
    cases k with
    | zero =>
      split
      · next h => simpa [h] using hz
      · simp [Memory.read, lookupKey]
    | succ k =>
      have := ih (a + 1) k
      split
      · simpa [Nat.add_assoc, Nat.add_comm 1 k] using this
      · rw [List.getD_cons_succ, ← this]
        simp only [Memory.read, lookupKey]
        rw [if_neg (by omega)]
        congr 2; omega

/-- The bytes laid out from address 0 read back; beyond them every address is unlisted. -/
theorem read_ofBytes (l : List Byte) (k : Nat) : (Memory.ofBytes l).read k = l.getD k Memory.unlisted := by
  simpa [Memory.ofBytes] using read_cellsFrom l 0 k

theorem ofBytes_wf (l : List Byte) : (Memory.ofBytes l).wf :=
  ⟨cellsFrom_rise l 0, fun c hc => (cellsFrom_bounds l 0 c hc).2.2⟩

theorem ofBytes_below (l : List Byte) : (Memory.ofBytes l).below l.length := fun c hc => by
  have := cellsFrom_bounds l 0 c hc; omega

/-- An overlay reads as the bytes laid over, and beyond them as the memory under them. -/
theorem read_overlay (m : Memory) (l : List Byte) (k : Nat) :
    (m.overlay l).read k = if k < l.length then l.getD k Memory.unlisted else m.read k := by
  have h0 := read_ofBytes l k
  unfold Memory.overlay
  unfold Memory.read at h0 ⊢
  rw [lookupKey_append, lookupKey_removeKeys]
  by_cases h : k < l.length
  · rw [if_pos h, ← h0]; simp [h]
  · rw [if_neg h]
    have hn : lookupKey (Memory.ofBytes l) k = none :=
      lookupKey_eq_none _ _ fun e he => by
        have := cellsFrom_bounds l 0 e he; simp only [Nat.zero_add] at this; omega
    simp [h, hn]

theorem overlay_keeps_wf (m : Memory) (l : List Byte) (h : m.wf) : (m.overlay l).wf := by
  refine ⟨List.pairwise_append.mpr ⟨(ofBytes_wf l).1, h.1.removeKeys _, fun a ha b hb => ?_⟩, fun c hc => ?_⟩
  · have h1 := cellsFrom_bounds l 0 a ha
    have h2 := ((mem_removeKeys _ _ _).mp hb).2
    simp only [decide_eq_false_iff_not, id] at h2 ⊢; omega
  · rcases List.mem_append.mp hc with hc | hc
    · exact (ofBytes_wf l).2 c hc
    · exact h.2 c ((mem_removeKeys _ _ _).mp hc).1

theorem overlay_keeps_below (m : Memory) (l : List Byte) (n : Nat) (h : m.below n) (hl : l.length ≤ n) :
    (m.overlay l).below n := by
  intro c hc
  rcases List.mem_append.mp hc with hc | hc
  · have := cellsFrom_bounds l 0 c hc; omega
  · exact h c ((mem_removeKeys _ _ _).mp hc).1

@[simp] theorem length_toBytes (m : Memory) (n : Nat) : (m.toBytes n).length = n := by simp [Memory.toBytes]

theorem getD_toBytes (m : Memory) (n k : Nat) (h : k < n) : (m.toBytes n).getD k 0 = m.read k := by
  simp [Memory.toBytes, h]

/-- Two canonical memories that read alike are equal. -/
theorem Memory.ext_of_wf (m n : Memory) (hm : m.wf) (hn : n.wf) (h : ∀ k, m.read k = n.read k) : m = n := by
  induction m generalizing n with
  | nil =>
    cases n with
    | nil => rfl
    | cons e r =>
      exact absurd (h e.1).symm (by simpa [Memory.read, lookupKey] using hn.2 e (by simp))
  | cons x m ih =>
    obtain ⟨hx, hmr⟩ := List.pairwise_cons.mp hm.1
    have out : ∀ (l : Memory) (a : Nat), (∀ e ∈ l, a < e.1) → Memory.read l a = Memory.unlisted := fun l a hl => by
      rw [Memory.read, lookupKey_eq_none _ _ fun e he => by have := hl e he; omega]; rfl
    cases n with
    | nil => exact absurd (h x.1) (by simpa [Memory.read, lookupKey] using hm.2 x (by simp))
    | cons y n =>
      obtain ⟨hy, hnr⟩ := List.pairwise_cons.mp hn.1
      have key : x.1 = y.1 := by
        rcases lt_trichotomy x.1 y.1 with hlt | heq | hgt
        · exfalso
          refine hm.2 x (by simp) ?_
          have h1 := h x.1
          rw [out (y :: n) x.1 fun e he => ?_] at h1
          · simpa [Memory.read, lookupKey] using h1
          · rcases List.mem_cons.mp he with rfl | he
            · exact hlt
            · exact lt_trans hlt (hy e he)
        · exact heq
        · exfalso
          refine hn.2 y (by simp) ?_
          have h1 := h y.1
          rw [out (x :: m) y.1 fun e he => ?_] at h1
          · simpa [Memory.read, lookupKey] using h1.symm
          · rcases List.mem_cons.mp he with rfl | he
            · exact hgt
            · exact lt_trans hgt (hx e he)
      have val : x.2 = y.2 := by simpa [Memory.read, lookupKey, key] using h x.1
      have hxy : x = y := Prod.ext key val
      subst hxy
      rw [ih n ⟨hmr, fun c hc => hm.2 c (by simp [hc])⟩ ⟨hnr, fun c hc => hn.2 c (by simp [hc])⟩ fun k => ?_]
      by_cases hk : x.1 = k
      · subst hk; rw [out m x.1 hx, out n x.1 hy]
      · simpa [Memory.read, lookupKey, hk] using h k

/-! ### The frame buffer -/

theorem lineCells_bounds (y : Nat) (line : Nat → Colour) :
    ∀ c ∈ FrameBuf.lineCells y line, 160 * y ≤ c.1 ∧ c.1 < 160 * y + 160 ∧ c.2 ≠ white ∧ c.2 = line (c.1 - 160 * y) := by
  intro c hc
  simp only [FrameBuf.lineCells, List.mem_filterMap, List.mem_range] at hc
  obtain ⟨x, hx, hc⟩ := hc
  split at hc
  · cases hc
  · next hw => cases hc; exact ⟨by simp, by simp [hx], hw, by simp⟩

theorem lineCells_rise (y : Nat) (line : Nat → Colour) : KeysRise id (FrameBuf.lineCells y line) := by
  unfold FrameBuf.lineCells KeysRise
  rw [List.pairwise_filterMap]
  refine List.Pairwise.imp (R := (· < ·)) (fun {a b} hab => ?_) List.pairwise_lt_range
  intro u hu v hv
  split at hu <;> cases hu
  split at hv <;> cases hv
  simpa using hab

theorem read_lineCells (y x : Nat) (line : Nat → Colour) (hx : x < 160) :
    FrameBuf.read (FrameBuf.lineCells y line) (160 * y + x) = line x := by
  unfold FrameBuf.read
  cases h : lookupKey (FrameBuf.lineCells y line) (160 * y + x) with
  | some v =>
    have := lineCells_bounds y line _ (mem_of_lookupKey _ _ _ h)
    simpa using this.2.2.2
  | none =>
    by_contra hne
    have hmem : (160 * y + x, line x) ∈ FrameBuf.lineCells y line := by
      simp only [FrameBuf.lineCells, List.mem_filterMap, List.mem_range]
      exact ⟨x, hx, by rw [if_neg]; intro hw; exact hne (by simp [hw])⟩
    have contra : ∀ l : FrameBuf, lookupKey l (160 * y + x) = none → (160 * y + x, line x) ∉ l := by
      intro l
      induction l with
      | nil => simp
      | cons e r ih =>
        intro hl hm
        by_cases he : e.1 = 160 * y + x
        · simp [lookupKey, he] at hl
        · rw [lookupKey, if_neg he] at hl
          rcases List.mem_cons.mp hm with rfl | hm
          · exact he rfl
          · exact ih hl hm
    exact contra _ h hmem

/-- A stored line shows its pixels. -/
theorem pixel_setLine_same (fb : FrameBuf) (y x : Nat) (line : Nat → Colour) (hx : x < 160) :
    (fb.setLine y line).pixel y x = line x := by
  rw [← read_lineCells y x line hx]
  unfold FrameBuf.pixel FrameBuf.read FrameBuf.setLine
  rw [lookupKey_append, lookupKey_append, lookupKey_removeKeys, lookupKey_removeKeys]
  simp [hx]

/-- Storing a line leaves every other line alone. -/
theorem pixel_setLine_other (fb : FrameBuf) (y y' x : Nat) (line : Nat → Colour) (hx : x < 160) (h : y' ≠ y) :
    (fb.setLine y line).pixel y' x = fb.pixel y' x := by
  have hn : lookupKey (FrameBuf.lineCells y line) (160 * y' + x) = none :=
    lookupKey_eq_none _ _ fun e he => by have := lineCells_bounds y line e he; omega
  unfold FrameBuf.pixel FrameBuf.read FrameBuf.setLine
  rw [lookupKey_append, lookupKey_append, lookupKey_removeKeys, lookupKey_removeKeys, hn]
  rcases Nat.lt_or_gt_of_ne h with hlt | hgt
  · have h1 : ¬ 160 * y ≤ 160 * y' + x := by omega
    have h2 : 160 * y' + x < 160 * y + 160 := by omega
    simp [h1, h2]
  · have h1 : 160 * y ≤ 160 * y' + x := by omega
    have h2 : ¬ 160 * y' + x < 160 * y + 160 := by omega
    simp [h1, h2]

theorem setLine_keeps_wf (fb : FrameBuf) (y : Nat) (line : Nat → Colour) (h : fb.wf) (hy : y < 144) :
    (fb.setLine y line).wf := by
  obtain ⟨hr, hw, hb⟩ := h
  have h1 : ∀ e ∈ removeKeys fb (fun k => decide (160 * y ≤ k)), e ∈ fb ∧ e.1 < 160 * y := fun e he => by
    simpa using (mem_removeKeys _ _ _).mp he
  have h2 : ∀ e ∈ removeKeys fb (fun k => decide (k < 160 * y + 160)), e ∈ fb ∧ 160 * y + 160 ≤ e.1 := fun e he => by
    simpa using (mem_removeKeys _ _ _).mp he
  have h3 := lineCells_bounds y line
  refine ⟨?_, fun c hc => ?_, fun c hc => ?_⟩
  · refine List.pairwise_append.mpr ⟨List.pairwise_append.mpr ⟨hr.removeKeys _, lineCells_rise y line, ?_⟩,
      hr.removeKeys _, ?_⟩
    · intro a ha b hb'; have := (h1 a ha).2; have := (h3 b hb').1; simp only [id]; omega
    · intro a ha b hb'
      have hb2 := (h2 b hb').2
      rcases List.mem_append.mp ha with ha | ha
      · have := (h1 a ha).2; simp only [id]; omega
      · have := (h3 a ha).2.1; simp only [id]; omega
  all_goals
    rcases List.mem_append.mp hc with hc | hc
    · rcases List.mem_append.mp hc with hc | hc
      · first | exact hw c (h1 c hc).1 | exact hb c (h1 c hc).1
      · have := h3 c hc
        first | exact this.2.2.1 | omega
    · first | exact hw c (h2 c hc).1 | exact hb c (h2 c hc).1

/-! ### The tile cache -/

theorem find_invalidate (c : Cache) (p : CacheKey → Bool) (k : CacheKey) :
    (c.invalidate p).find k = if p k then none else c.find k := lookupKey_removeKeys c p k

theorem find_put_same (c : Cache) (k : CacheKey) (e : CacheEntry) : (c.put k e).find k = some e :=
  lookupKey_insertKey_same _ _ _ _ (by simp [lookupKey_removeKeys])

theorem find_put_other (c : Cache) (k q : CacheKey) (e : CacheEntry) (h : q ≠ k) : (c.put k e).find q = c.find q := by
  unfold Cache.put Cache.find
  rw [lookupKey_insertKey_other _ _ _ _ _ h]; simp [lookupKey_removeKeys, h]

theorem mem_put (c : Cache) (k : CacheKey) (e : CacheEntry) (x : CacheKey × CacheEntry) (h : x ∈ c.put k e) :
    x = (k, e) ∨ x ∈ c := by
  rcases (mem_insertKey _ _ _ _ _).mp h with h | h
  · exact .inl h
  · exact .inr ((mem_removeKeys _ _ _).mp h).1

/-- Keys that name tiles 0..767 have different codes. -/
theorem code_injective (k q : CacheKey) (hk : k.n < 768) (hq : q.n < 768) (h : k.code = q.code) : k = q := by
  obtain ⟨kk, kn, ka⟩ := k
  obtain ⟨qk, qn, qa⟩ := q
  have h1 := ka.isLt
  have h2 := qa.isLt
  simp only [CacheKey.code] at h hk hq ⊢
  cases kk <;> cases qk <;> simp only at h
  all_goals first
    | (have e1 : kn = qn := by omega
       have e2 : ka = qa := BitVec.eq_of_toNat_eq (by omega)
       subst e1 e2; rfl)
    | omega

theorem put_keeps_rise (c : Cache) (k : CacheKey) (e : CacheEntry) (h : KeysRise CacheKey.code c)
    (hn : ∀ x ∈ c, x.1.n < 768) (hk : k.n < 768) : KeysRise CacheKey.code (c.put k e) := by
  refine (h.removeKeys _).insertKey _ _ fun x hx hc => ?_
  obtain ⟨hx1, hx2⟩ := (mem_removeKeys _ _ _).mp hx
  have := code_injective x.1 k (hn x hx1) hk hc
  simp [this] at hx2

end Sys2Proof.Machine
end

