-- ==== Sys2Proof/Laws/Cart.lean ====
section
/-! SUPPORT. What the cartridge's shared operations can do: RTC registers by index, the flags, the day counter, the catch-up
loop (spec/41_cartridge.md R167 to R173). -/

namespace Sys2Proof.Machine

@[simp] theorem Rtc.get_put_same (r : Rtc) (i : Nat) (d : Byte) (h : i ≤ 4) : (r.put i d).get i = d := by
  interval_cases i <;> rfl

theorem Rtc.get_put_other (r : Rtc) (i j : Nat) (d : Byte) (hi : i ≤ 4) (hj : j ≤ 4) (h : j ≠ i) :
    (r.put i d).get j = r.get j := by
  interval_cases i <;> interval_cases j <;> first | rfl | exact absurd rfl h

theorem Rtc.day_lt (r : Rtc) : r.day < 512 := by
  have h1 := r.dayLow.isLt
  have h2 : ∀ b : Bool, bitNat b ≤ 1 := by decide
  have := h2 (Byte.bit r.dayHigh 0)
  unfold Rtc.day; omega

/-- The bits of the high day register after a store of the day: bit 0 is the day's bit 8, the others stay (R172). -/
theorem putDay_high (h : Byte) (d : Nat) (i : Nat) (hi : i < 8) :
    Byte.bit ((h &&& 0xFE) ||| BitVec.ofNat 8 (bits d 8 8)) i =
      if i = 0 then decide (bits d 8 8 = 1) else Byte.bit h i := by
  have key : ∀ (b : Bool) (h : Byte) (i : Fin 8),
      Byte.bit ((h &&& 0xFE) ||| BitVec.ofNat 8 (bitNat b)) i = if i = 0 then b else Byte.bit h i := by decide
  have hd : bits d 8 8 = bitNat (decide (bits d 8 8 = 1)) := by
    have : bits d 8 8 < 2 := by unfold bits; exact Nat.mod_lt _ (by decide)
    unfold bitNat; split
    · next h => simpa using h
    · next h => simp at h; omega
  rw [hd]
  have := key (decide (bits d 8 8 = 1)) h ⟨i, hi⟩
  simp only [Fin.mk_eq_zero] at this
  rw [this, ← hd]

/-- The day counter reads back what was stored (R172). -/
theorem Rtc.day_putDay (r : Rtc) (d : Nat) (h : d < 512) : (r.putDay d).day = d := by
  have hb : bits d 8 8 = d / 256 := by unfold bits; rw [Nat.shiftRight_eq_div_pow]; omega
  have h0 := putDay_high r.dayHigh d 0 (by decide)
  simp only [if_true] at h0
  unfold Rtc.day Rtc.putDay
  simp only
  rw [h0, hb]
  simp only [BitVec.toNat_ofNat, bitNat]
  split
  · next h1 => simp at h1; omega
  · next h1 => simp at h1; omega

theorem Rtc.halt_putDay (r : Rtc) (d : Nat) : (r.putDay d).halt = r.halt := by
  simpa [Rtc.halt, Rtc.putDay] using putDay_high r.dayHigh d 6 (by decide)

theorem Rtc.carry_putDay (r : Rtc) (d : Nat) : (r.putDay d).carry = r.carry := by
  simpa [Rtc.carry, Rtc.putDay] using putDay_high r.dayHigh d 7 (by decide)

/-- Setting the carry flag sets bit 7 of the high day register and leaves its other bits (R172). -/
theorem orCarry_high (h : Byte) (i : Nat) (hi : i < 8) :
    Byte.bit (h ||| 0x80) i = if i = 7 then true else Byte.bit h i := by
  have key : ∀ (h : Byte) (i : Fin 8), Byte.bit (h ||| 0x80) i = if i = 7 then true else Byte.bit h i := by decide
  have := key h ⟨i, hi⟩
  simpa [Fin.ext_iff] using this

theorem Rtc.halt_orCarry (r : Rtc) (b : Bool) : (r.orCarry b).halt = r.halt := by
  cases b
  · rfl
  · simpa [Rtc.halt, Rtc.orCarry] using orCarry_high r.dayHigh 6 (by decide)

theorem Rtc.carry_orCarry (r : Rtc) (b : Bool) : (r.orCarry b).carry = (b || r.carry) := by
  cases b
  · rfl
  · simpa [Rtc.carry, Rtc.orCarry] using orCarry_high r.dayHigh 7 (by decide)

theorem Rtc.day_orCarry (r : Rtc) (b : Bool) : (r.orCarry b).day = r.day := by
  cases b
  · rfl
  · have := orCarry_high r.dayHigh 0 (by decide)
    simp only [Rtc.orCarry, if_true, Rtc.day, this]; simp

theorem Rtc.advanceSeconds_add (a b : Nat) (r : Rtc) :
    Rtc.advanceSeconds (a + b) r = Rtc.advanceSeconds b (Rtc.advanceSeconds a r) := by
  induction a generalizing r with
  | zero => simp [Rtc.advanceSeconds]
  | succ a ih => rw [Nat.succ_add]; simp [Rtc.advanceSeconds, ih]

/-- The four ways `tickRtc` can end (R170). -/
theorem tickRtc_cases (c : Cartridge) (now : BitVec 64) :
    (c.rtcLast = none ∧ c.tickRtc now = { c with rtcLast := some now }) ∨
    (∃ t0, c.rtcLast = some t0 ∧ c.rtc.halt = true ∧ c.tickRtc now = { c with rtcLast := some now }) ∨
    (∃ t0, c.rtcLast = some t0 ∧ c.rtc.halt = false ∧ now.toNat < t0.toNat ∧
      c.tickRtc now = { c with rtcLast := some now }) ∨
    (∃ t0, c.rtcLast = some t0 ∧ c.rtc.halt = false ∧ t0.toNat ≤ now.toNat ∧
      c.tickRtc now =
        { c with
          rtcLast := some (BitVec.ofNat 64 (t0.toNat + 1000 * ((now.toNat - t0.toNat) / 1000)))
          rtc := c.rtc.advanceSeconds ((now.toNat - t0.toNat) / 1000) }) := by
  unfold Cartridge.tickRtc
  cases h0 : c.rtcLast with
  | none => simp
  | some t0 =>
    cases hh : c.rtc.halt
    · by_cases hn : now.toNat < t0.toNat
      · simp [hn]
      · have := Nat.le_of_not_lt hn; simp [hn, this]
    · simp

end Sys2Proof.Machine
end

