-- ==== Sys2Proof/Laws/Decode.lean ====
section
/-! SUPPORT. The fields of a packed word are the fields it was packed from, and a word is packed from its fields
(spec/30_encoding.md R122); what a form's decoding can answer. -/

namespace Sys2Proof

theorem toNat_pack (op : Byte) (a : BitVec 16) (b : BitVec 32) (d : Byte) :
    (pack op a b d).toNat = op.toNat * 2 ^ 56 + a.toNat * 2 ^ 40 + b.toNat * 2 ^ 8 + d.toNat := by
  have h1 := op.isLt
  have h2 := a.isLt
  have h3 := b.isLt
  have h4 := d.isLt
  show (op ++ a ++ b ++ d).toNat = _
  simp only [BitVec.toNat_append]
  rw [← Nat.shiftLeft_add_eq_or_of_lt h4, ← Nat.shiftLeft_add_eq_or_of_lt h3, ← Nat.shiftLeft_add_eq_or_of_lt h2]
  simp only [Nat.shiftLeft_eq]
  omega

/-- The fields of a packed word (R122). -/
theorem of_pack (op : Byte) (a : BitVec 16) (b : BitVec 32) (d : Byte) :
    CmdFields.of (pack op a b d) = { op := op, a := a, b := b, d := d } := by
  have h1 := op.isLt
  have h2 := a.isLt
  have h3 := b.isLt
  have h4 := d.isLt
  have hp := toNat_pack op a b d
  simp only [CmdFields.of, CmdFields.mk.injEq]
  refine ⟨?_, ?_, ?_, ?_⟩ <;> apply BitVec.eq_of_toNat_eq <;>
    simp only [BitVec.extractLsb'_toNat, Nat.shiftRight_eq_div_pow, hp] <;> omega

/-- A word is the pack of its fields (R122). -/
theorem pack_of (w : CmdWord) :
    pack (CmdFields.of w).op (CmdFields.of w).a (CmdFields.of w).b (CmdFields.of w).d = w := by
  have hw := w.isLt
  apply BitVec.eq_of_toNat_eq
  rw [toNat_pack]
  simp only [CmdFields.of, BitVec.extractLsb'_toNat, Nat.shiftRight_eq_div_pow]
  omega

@[simp] theorem flagByte_bit (e : Bool) : (flagByte e).getLsbD 0 = e := by cases e <;> rfl
@[simp] theorem flagByte_unused (e : Bool) : (flagByte e).extractLsb' 1 7 = 0 := by cases e <;> rfl

/-- A byte whose bits 7:1 are zero is the byte of its flag (R123). -/
theorem flagByte_of (d : Byte) (h : d.extractLsb' 1 7 = 0) : flagByte (d.getLsbD 0) = d := by
  revert d; decide

@[simp] theorem gate_true (f : CmdFields) (v : Verdict) : f.gate true v = v := rfl

/-- A gated verdict is a call only if the unused fields are zero. -/
theorem gate_eq_instr (f : CmdFields) (z : Bool) (v : Verdict) (i : Instr) :
    f.gate z v = .instr i ↔ z = true ∧ v = .instr i := by
  cases z <;> simp [CmdFields.gate]

end Sys2Proof
end

