-- ==== Sys2Proof/Laws/PerInstr.lean ====
section
/-! SUPPORT. A law of each call as syntax: its command word lies in its row of spec/opcode_table.json, that is, the word's
bits under the row's mask are the row's match (spec/30_encoding.md R121 to R124). -/

namespace Sys2Proof.Laws.Row

/-- Packing commutes with masking. -/
theorem pack_and (op op' : Byte) (a a' : BitVec 16) (b b' : BitVec 32) (d d' : Byte) :
    pack op a b d &&& pack op' a' b' d' = pack (op &&& op') (a &&& a') (b &&& b') (d &&& d') := by
  apply BitVec.eq_of_getLsbD_eq
  intro i _
  simp only [pack, BitVec.getLsbD_and, BitVec.getLsbD_append]
  split <;> [rfl; split] <;> [rfl; split] <;> rfl

/-- The mask and the match of the row of a call. -/
def row : Instr → CmdWord × CmdWord
  | .writeControlRegister _ => (0xFFFFFFFFFFFFFF00, 0x0100000000000000)
  | .writeVram _ _ => (0xFFFFFF0000000000, 0x0200000000000000)
  | .setVramBank _ => (0xFFFFFFFFFFFFFF00, 0x0300000000000000)
  | .setColorPalette _ _ => (0xFFFFFF0000000000, 0x0400000000000000)
  | .setMonoPalette _ _ => (0xFFFFFF0000000000, 0x0500000000000000)
  | .writeOam _ _ => (0xFFFFFF0000000000, 0x0600000000000000)
  | .notifyScanline _ => (0xFFFFFF00000000FF, 0x0700000000000000)
  | .endFrame => (0xFFFFFFFFFFFFFFFF, 0x0800000000000000)
  | .mirrorWrite _ _ => (0xFFFFFF0000000000, 0x1000000000000000)
  | .tick => (0xFFFFFFFFFFFFFFFF, 0x1100000000000000)
  | .setSpeed _ => (0xFFFFFF00000000FF, 0x1200000000000000)
  | .ioWriteR10 _ => (0xFFFFFFFFFFFFFF00, 0x2000000000001000)
  | .ioWriteR11 _ => (0xFFFFFFFFFFFFFF00, 0x2000000000001100)
  | .ioWriteR12 _ => (0xFFFFFFFFFFFFFF00, 0x2000000000001200)
  | .ioWriteR13 _ => (0xFFFFFFFFFFFFFF00, 0x2000000000001300)
  | .ioWriteR14 _ => (0xFFFFFFFFFFFFFF00, 0x2000000000001400)
  | .ioWriteR15 _ => (0xFFFFFFFFFFFFFF00, 0x2000000000001500)
  | .ioWriteR16 _ => (0xFFFFFFFFFFFFFF00, 0x2000000000001600)
  | .ioWriteR17 _ => (0xFFFFFFFFFFFFFF00, 0x2000000000001700)
  | .ioWriteR18 _ => (0xFFFFFFFFFFFFFF00, 0x2000000000001800)
  | .ioWriteR19 _ => (0xFFFFFFFFFFFFFF00, 0x2000000000001900)
  | .ioWriteR1A _ => (0xFFFFFFFFFFFFFF00, 0x2000000000001A00)
  | .ioWriteR1B _ => (0xFFFFFFFFFFFFFF00, 0x2000000000001B00)
  | .ioWriteR1C _ => (0xFFFFFFFFFFFFFF00, 0x2000000000001C00)
  | .ioWriteR1D _ => (0xFFFFFFFFFFFFFF00, 0x2000000000001D00)
  | .ioWriteR1E _ => (0xFFFFFFFFFFFFFF00, 0x2000000000001E00)
  | .ioWriteR1F _ => (0xFFFFFFFFFFFFFF00, 0x2000000000001F00)
  | .ioWriteR20 _ => (0xFFFFFFFFFFFFFF00, 0x2000000000002000)
  | .ioWriteR21 _ => (0xFFFFFFFFFFFFFF00, 0x2000000000002100)
  | .ioWriteR22 _ => (0xFFFFFFFFFFFFFF00, 0x2000000000002200)
  | .ioWriteR23 _ => (0xFFFFFFFFFFFFFF00, 0x2000000000002300)
  | .ioWriteR24 _ => (0xFFFFFFFFFFFFFF00, 0x2000000000002400)
  | .ioWriteR25 _ => (0xFFFFFFFFFFFFFF00, 0x2000000000002500)
  | .setChannelEnable _ _ => (0xFFFFFF00000000FE, 0x2100000000000000)
  | .setSoundEnabled _ => (0xFFFFFFFFFFFFFFFE, 0x2200000000000000)
  | .render _ => (0xFFFFFF00000000FF, 0x2300000000000000)
  | .load => (0xFFFFFFFFFFFFFFFF, 0x3000000000000000)
  | .hasBattery => (0xFFFFFFFFFFFFFFFF, 0x3100000000000000)
  | .tickRtc => (0xFFFFFFFFFFFFFFFF, 0x3200000000000000)
  | .skipRtc => (0xFFFFFFFFFFFFFFFF, 0x3300000000000000)
  | .dumpSave => (0xFFFFFFFFFFFFFFFF, 0x3400000000000000)
  | .loadSave => (0xFFFFFFFFFFFFFFFF, 0x3500000000000000)
  | .romRead _ _ => (0xFF000000000000FF, 0x3600000000000000)
  | .ramRead _ _ => (0xFF000000000000FF, 0x3700000000000000)
  | .ramWrite _ _ _ => (0xFF00000000000000, 0x3800000000000000)
  | .rtcRead _ => (0xFFFFFF00000000FF, 0x3900000000000000)
  | .rtcWrite _ _ => (0xFFFFFF0000000000, 0x3A00000000000000)

/-- The word of `i` lies in the row of `i`. -/
def Statement (i : Instr) : Prop := encode i &&& (row i).1 = (row i).2

/-- What proves a row: the mask and the match by fields, and the word's fields under the mask. -/
theorem of_fields {op op' : Byte} {a a' : BitVec 16} {b b' : BitVec 32} {d d' : Byte} {mask mtch : CmdWord}
    (hm : mask = pack op' a' b' d') (ht : mtch = pack (op &&& op') (a &&& a') (b &&& b') (d &&& d')) :
    pack op a b d &&& mask = mtch := by rw [hm, ht, pack_and]

@[simp] theorem flagByte_mask (e : Bool) : flagByte e &&& 254#8 = 0#8 := by cases e <;> rfl

theorem writeControlRegister (d : Byte) : Statement (.writeControlRegister d) :=
  of_fields (op' := 0xFF) (a' := 0xFFFF) (b' := 0xFFFFFFFF) (d' := 0x0) rfl (by simp [row, pack])
theorem writeVram (b : BitVec 32) (d : Byte) : Statement (.writeVram b d) :=
  of_fields (op' := 0xFF) (a' := 0xFFFF) (b' := 0x0) (d' := 0x0) rfl (by simp [row, pack])
theorem setVramBank (d : Byte) : Statement (.setVramBank d) :=
  of_fields (op' := 0xFF) (a' := 0xFFFF) (b' := 0xFFFFFFFF) (d' := 0x0) rfl (by simp [row, pack])
theorem setColorPalette (b : BitVec 32) (d : Byte) : Statement (.setColorPalette b d) :=
  of_fields (op' := 0xFF) (a' := 0xFFFF) (b' := 0x0) (d' := 0x0) rfl (by simp [row, pack])
theorem setMonoPalette (b : BitVec 32) (d : Byte) : Statement (.setMonoPalette b d) :=
  of_fields (op' := 0xFF) (a' := 0xFFFF) (b' := 0x0) (d' := 0x0) rfl (by simp [row, pack])
theorem writeOam (b : BitVec 32) (d : Byte) : Statement (.writeOam b d) :=
  of_fields (op' := 0xFF) (a' := 0xFFFF) (b' := 0x0) (d' := 0x0) rfl (by simp [row, pack])
theorem notifyScanline (b : BitVec 32) : Statement (.notifyScanline b) :=
  of_fields (op' := 0xFF) (a' := 0xFFFF) (b' := 0x0) (d' := 0xFF) rfl (by simp [row, pack])
theorem endFrame : Statement (.endFrame) :=
  of_fields (op' := 0xFF) (a' := 0xFFFF) (b' := 0xFFFFFFFF) (d' := 0xFF) rfl (by simp [row, pack])
theorem mirrorWrite (b : BitVec 32) (d : Byte) : Statement (.mirrorWrite b d) :=
  of_fields (op' := 0xFF) (a' := 0xFFFF) (b' := 0x0) (d' := 0x0) rfl (by simp [row, pack])
theorem tick : Statement (.tick) :=
  of_fields (op' := 0xFF) (a' := 0xFFFF) (b' := 0xFFFFFFFF) (d' := 0xFF) rfl (by simp [row, pack])
theorem setSpeed (b : BitVec 32) : Statement (.setSpeed b) :=
  of_fields (op' := 0xFF) (a' := 0xFFFF) (b' := 0x0) (d' := 0xFF) rfl (by simp [row, pack])
theorem ioWriteR10 (d : Byte) : Statement (.ioWriteR10 d) :=
  of_fields (op' := 0xFF) (a' := 0xFFFF) (b' := 0xFFFFFFFF) (d' := 0x0) rfl (by simp [row, pack])
theorem ioWriteR11 (d : Byte) : Statement (.ioWriteR11 d) :=
  of_fields (op' := 0xFF) (a' := 0xFFFF) (b' := 0xFFFFFFFF) (d' := 0x0) rfl (by simp [row, pack])
theorem ioWriteR12 (d : Byte) : Statement (.ioWriteR12 d) :=
  of_fields (op' := 0xFF) (a' := 0xFFFF) (b' := 0xFFFFFFFF) (d' := 0x0) rfl (by simp [row, pack])
theorem ioWriteR13 (d : Byte) : Statement (.ioWriteR13 d) :=
  of_fields (op' := 0xFF) (a' := 0xFFFF) (b' := 0xFFFFFFFF) (d' := 0x0) rfl (by simp [row, pack])
theorem ioWriteR14 (d : Byte) : Statement (.ioWriteR14 d) :=
  of_fields (op' := 0xFF) (a' := 0xFFFF) (b' := 0xFFFFFFFF) (d' := 0x0) rfl (by simp [row, pack])
theorem ioWriteR15 (d : Byte) : Statement (.ioWriteR15 d) :=
  of_fields (op' := 0xFF) (a' := 0xFFFF) (b' := 0xFFFFFFFF) (d' := 0x0) rfl (by simp [row, pack])
theorem ioWriteR16 (d : Byte) : Statement (.ioWriteR16 d) :=
  of_fields (op' := 0xFF) (a' := 0xFFFF) (b' := 0xFFFFFFFF) (d' := 0x0) rfl (by simp [row, pack])
theorem ioWriteR17 (d : Byte) : Statement (.ioWriteR17 d) :=
  of_fields (op' := 0xFF) (a' := 0xFFFF) (b' := 0xFFFFFFFF) (d' := 0x0) rfl (by simp [row, pack])
theorem ioWriteR18 (d : Byte) : Statement (.ioWriteR18 d) :=
  of_fields (op' := 0xFF) (a' := 0xFFFF) (b' := 0xFFFFFFFF) (d' := 0x0) rfl (by simp [row, pack])
theorem ioWriteR19 (d : Byte) : Statement (.ioWriteR19 d) :=
  of_fields (op' := 0xFF) (a' := 0xFFFF) (b' := 0xFFFFFFFF) (d' := 0x0) rfl (by simp [row, pack])
theorem ioWriteR1A (d : Byte) : Statement (.ioWriteR1A d) :=
  of_fields (op' := 0xFF) (a' := 0xFFFF) (b' := 0xFFFFFFFF) (d' := 0x0) rfl (by simp [row, pack])
theorem ioWriteR1B (d : Byte) : Statement (.ioWriteR1B d) :=
  of_fields (op' := 0xFF) (a' := 0xFFFF) (b' := 0xFFFFFFFF) (d' := 0x0) rfl (by simp [row, pack])
theorem ioWriteR1C (d : Byte) : Statement (.ioWriteR1C d) :=
  of_fields (op' := 0xFF) (a' := 0xFFFF) (b' := 0xFFFFFFFF) (d' := 0x0) rfl (by simp [row, pack])
theorem ioWriteR1D (d : Byte) : Statement (.ioWriteR1D d) :=
  of_fields (op' := 0xFF) (a' := 0xFFFF) (b' := 0xFFFFFFFF) (d' := 0x0) rfl (by simp [row, pack])
theorem ioWriteR1E (d : Byte) : Statement (.ioWriteR1E d) :=
  of_fields (op' := 0xFF) (a' := 0xFFFF) (b' := 0xFFFFFFFF) (d' := 0x0) rfl (by simp [row, pack])
theorem ioWriteR1F (d : Byte) : Statement (.ioWriteR1F d) :=
  of_fields (op' := 0xFF) (a' := 0xFFFF) (b' := 0xFFFFFFFF) (d' := 0x0) rfl (by simp [row, pack])
theorem ioWriteR20 (d : Byte) : Statement (.ioWriteR20 d) :=
  of_fields (op' := 0xFF) (a' := 0xFFFF) (b' := 0xFFFFFFFF) (d' := 0x0) rfl (by simp [row, pack])
theorem ioWriteR21 (d : Byte) : Statement (.ioWriteR21 d) :=
  of_fields (op' := 0xFF) (a' := 0xFFFF) (b' := 0xFFFFFFFF) (d' := 0x0) rfl (by simp [row, pack])
theorem ioWriteR22 (d : Byte) : Statement (.ioWriteR22 d) :=
  of_fields (op' := 0xFF) (a' := 0xFFFF) (b' := 0xFFFFFFFF) (d' := 0x0) rfl (by simp [row, pack])
theorem ioWriteR23 (d : Byte) : Statement (.ioWriteR23 d) :=
  of_fields (op' := 0xFF) (a' := 0xFFFF) (b' := 0xFFFFFFFF) (d' := 0x0) rfl (by simp [row, pack])
theorem ioWriteR24 (d : Byte) : Statement (.ioWriteR24 d) :=
  of_fields (op' := 0xFF) (a' := 0xFFFF) (b' := 0xFFFFFFFF) (d' := 0x0) rfl (by simp [row, pack])
theorem ioWriteR25 (d : Byte) : Statement (.ioWriteR25 d) :=
  of_fields (op' := 0xFF) (a' := 0xFFFF) (b' := 0xFFFFFFFF) (d' := 0x0) rfl (by simp [row, pack])
theorem setChannelEnable (b : BitVec 32) (e : Bool) : Statement (.setChannelEnable b e) :=
  of_fields (op' := 0xFF) (a' := 0xFFFF) (b' := 0x0) (d' := 0xFE) rfl (by simp [row, pack])
theorem setSoundEnabled (e : Bool) : Statement (.setSoundEnabled e) :=
  of_fields (op' := 0xFF) (a' := 0xFFFF) (b' := 0xFFFFFFFF) (d' := 0xFE) rfl (by simp [row, pack])
theorem render (b : BitVec 32) : Statement (.render b) :=
  of_fields (op' := 0xFF) (a' := 0xFFFF) (b' := 0x0) (d' := 0xFF) rfl (by simp [row, pack])
theorem load : Statement (.load) :=
  of_fields (op' := 0xFF) (a' := 0xFFFF) (b' := 0xFFFFFFFF) (d' := 0xFF) rfl (by simp [row, pack])
theorem hasBattery : Statement (.hasBattery) :=
  of_fields (op' := 0xFF) (a' := 0xFFFF) (b' := 0xFFFFFFFF) (d' := 0xFF) rfl (by simp [row, pack])
theorem tickRtc : Statement (.tickRtc) :=
  of_fields (op' := 0xFF) (a' := 0xFFFF) (b' := 0xFFFFFFFF) (d' := 0xFF) rfl (by simp [row, pack])
theorem skipRtc : Statement (.skipRtc) :=
  of_fields (op' := 0xFF) (a' := 0xFFFF) (b' := 0xFFFFFFFF) (d' := 0xFF) rfl (by simp [row, pack])
theorem dumpSave : Statement (.dumpSave) :=
  of_fields (op' := 0xFF) (a' := 0xFFFF) (b' := 0xFFFFFFFF) (d' := 0xFF) rfl (by simp [row, pack])
theorem loadSave : Statement (.loadSave) :=
  of_fields (op' := 0xFF) (a' := 0xFFFF) (b' := 0xFFFFFFFF) (d' := 0xFF) rfl (by simp [row, pack])
theorem romRead (a : BitVec 16) (b : BitVec 32) : Statement (.romRead a b) :=
  of_fields (op' := 0xFF) (a' := 0x0) (b' := 0x0) (d' := 0xFF) rfl (by simp [row, pack])
theorem ramRead (a : BitVec 16) (b : BitVec 32) : Statement (.ramRead a b) :=
  of_fields (op' := 0xFF) (a' := 0x0) (b' := 0x0) (d' := 0xFF) rfl (by simp [row, pack])
theorem ramWrite (a : BitVec 16) (b : BitVec 32) (d : Byte) : Statement (.ramWrite a b d) :=
  of_fields (op' := 0xFF) (a' := 0x0) (b' := 0x0) (d' := 0x0) rfl (by simp [row, pack])
theorem rtcRead (b : BitVec 32) : Statement (.rtcRead b) :=
  of_fields (op' := 0xFF) (a' := 0xFFFF) (b' := 0x0) (d' := 0xFF) rfl (by simp [row, pack])
theorem rtcWrite (b : BitVec 32) (d : Byte) : Statement (.rtcWrite b d) :=
  of_fields (op' := 0xFF) (a' := 0xFFFF) (b' := 0x0) (d' := 0x0) rfl (by simp [row, pack])

end Sys2Proof.Laws.Row
end

