-- ==== Sys2Proof/Laws/Ppu.lean ====
section
/-! SUPPORT. What the tile cache can do: under the coherence invariant (spec/20_memory.md R104) a lookup returns the resolved
tile, and it keeps the invariant; what a segment and a sprite leave at a pixel of the line. -/

namespace Sys2Proof.Machine

/-- A resolved tile depends on the VRAM and the palette tables only (42_ppu_access.md R212). -/
theorem resolveTile_congr (p q : Ppu) (colour : Bool) (key : CacheKey) (h0 : p.vram0 = q.vram0) (h1 : p.vram1 = q.vram1)
    (hm : p.monoPal = q.monoPal) (hc : p.colPal = q.colPal) : p.resolveTile colour key = q.resolveTile colour key := by
  have hv : p.vramRead = q.vramRead := by funext b a; simp [Ppu.vramRead, h0, h1]
  have hi : p.pixelIndex = q.pixelIndex := by
    funext n a r c; simp [Ppu.pixelIndex, Ppu.tilePixelIndex, hv]
  have hx : p.paletteMux = q.paletteMux := by funext co k a i; simp [Ppu.paletteMux, hm, hc]
  simp [Ppu.resolveTile, Ppu.tileBlank, Ppu.tileColours, hi, hx]

/-- A lookup in a coherent cache answers the resolved tile (42_ppu_access.md R214). -/
theorem cacheLookup_entry (p : Ppu) (colour : Bool) (c : Cache) (key : CacheKey) (h : p.CoherentWith colour c) :
    (p.cacheLookup colour c key).1 = p.resolveTile colour key := by
  unfold Ppu.cacheLookup
  cases hf : c.find key with
  | none => rfl
  | some e => exact (h (key, e) (mem_of_lookupKey _ _ _ hf)).2

/-- A lookup keeps a coherent cache coherent (20_memory.md R104). -/
theorem cacheLookup_coherent (p : Ppu) (colour : Bool) (c : Cache) (key : CacheKey) (h : p.CoherentWith colour c)
    (hk : key.n < 768) : p.CoherentWith colour (p.cacheLookup colour c key).2 := by
  unfold Ppu.cacheLookup
  cases c.find key with
  | some e => exact h
  | none =>
    intro x hx
    rcases mem_put _ _ _ _ hx with rfl | hx
    · exact ⟨hk, rfl⟩
    · exact h x hx

/-- A lookup keeps the keys rising and naming tiles. -/
theorem cacheLookup_rise (p : Ppu) (colour : Bool) (c : Cache) (key : CacheKey) (h : KeysRise CacheKey.code c)
    (hn : ∀ e ∈ c, e.1.n < 768) (hk : key.n < 768) :
    KeysRise CacheKey.code (p.cacheLookup colour c key).2 ∧ ∀ e ∈ (p.cacheLookup colour c key).2, e.1.n < 768 := by
  unfold Ppu.cacheLookup
  cases c.find key with
  | some e => exact ⟨h, hn⟩
  | none =>
    refine ⟨put_keeps_rise c key _ h hn hk, fun x hx => ?_⟩
    rcases mem_put _ _ _ _ hx with rfl | hx
    · exact hk
    · exact hn x hx

/-- The colour a resolved background tile shows at a pixel (42_ppu_access.md R212). -/
theorem colourAt_resolveTile_bg (p : Ppu) (colour : Bool) (n : Nat) (attr : Byte) (r c : Nat) (hr : r < 8) (hc : c < 8) :
    (p.resolveTile colour { kind := .bg, n := n, attr := attr }).colourAt r c =
      p.paletteMux colour .bg attr (p.pixelIndex n attr r c) := by
  have h1 : (8 * r + c) / 8 = r := by omega
  have h2 : (8 * r + c) % 8 = c := by omega
  have h3 : 8 * r + c < 64 := by omega
  simp [Ppu.resolveTile, CacheEntry.colourAt, Ppu.tileColours, h1, h2, h3]

/-- Drawing a segment changes the pixels it covers and no other (43_ppu_scanline.md R256). -/
theorem drawSegment_line (v : Scene) (g : Segment) (k : Comp) (x : Nat) :
    (v.drawSegment g k).line x =
      if g.x0 ≤ (x : Int) ∧ (x : Int) < g.x0 + 8 ∧ (x : Int) ≤ g.xhi ∧ x ≤ 159 then
        { col := (v.ppu.cacheLookup v.colour k.cache { kind := .bg, n := g.n, attr := g.attr }).1.colourAt g.r
                   ((x : Int) - g.x0).toNat
          idx := v.ppu.pixelIndex g.n g.attr g.r ((x : Int) - g.x0).toNat }
      else k.line x := rfl

@[simp] theorem drawSegment_skipped (v : Scene) (g : Segment) (k : Comp) :
    (v.drawSegment g k).skipped = k.skipped := rfl

theorem drawSegment_cache (v : Scene) (g : Segment) (k : Comp) :
    (v.drawSegment g k).cache =
      (v.ppu.cacheLookup v.colour k.cache { kind := .bg, n := g.n, attr := g.attr }).2 := rfl

/-- Placing a segment either draws it or holds it back, never both (43_ppu_scanline.md R255, R258). -/
theorem placeSegment_cases (v : Scene) (t : Nat × Byte) (r : Nat) (x0 xhi : Int) (k : Comp) :
    ((v.colour && attrPriority t.2) = true ∧
      v.placeSegment t r x0 xhi k =
        { k with skipped := k.skipped ++ [{ n := t.1, attr := t.2, r := r, x0 := x0, xhi := xhi }] }) ∨
    ((v.colour && attrPriority t.2) = false ∧
      v.placeSegment t r x0 xhi k = v.drawSegment { n := t.1, attr := t.2, r := r, x0 := x0, xhi := 159 } k) := by
  unfold Scene.placeSegment
  cases v.colour && attrPriority t.2 <;> simp

theorem bitNat_le (b : Bool) : bitNat b ≤ 1 := by cases b <;> decide

/-- A map index byte names a tile of the bank (20_memory.md R94). -/
theorem mapTile_lt (u : Bool) (i : Byte) : mapTile u i < 384 := by
  have h1 := i.isLt
  have h2 := BitVec.toInt_lt (x := i)
  unfold mapTile sext8
  split <;> omega

/-- The bank bit of an attribute counts as 0 or 1, and as 0 in mono mode. -/
theorem bank_le (colour : Bool) (a : Byte) : (if colour then bitNat (attrBank a) else 0) ≤ 1 := by
  cases colour
  · simp
  · simpa using bitNat_le (attrBank a)

/-- A tile number of the map lies in 0..767 (43_ppu_scanline.md R254). -/
theorem fetchMapTile_lt (v : Scene) (sel : Bool) (mx my : Nat) : (v.fetchMapTile sel mx my).1 < 768 := by
  have hb := bank_le v.colour (v.fetchMapTile sel mx my).2
  have hm := mapTile_lt v.ppu.tileDataSelect (v.ppu.vramRead 0 ((if sel then 0x1C00 else 0x1800) + 32 * my + mx))
  unfold Scene.fetchMapTile tileNumber at *
  simp only at hb ⊢
  omega

/-- The even tile of an 8 by 16 sprite, or the odd one, is below 256 (43_ppu_scanline.md R261). -/
theorem tallTile_lt (t : Byte) (half : Nat) (h : half ≤ 1) : t.toNat - bitNat (Byte.bit t 0) + half < 256 := by
  have h1 := t.isLt
  have hbit : Byte.bit t 0 = decide (t.toNat % 2 = 1) := by
    simp [Byte.bit, BitVec.getLsbD, Nat.testBit_zero]
  rw [hbit]
  unfold bitNat
  split
  · omega
  · next hn => simp at hn; omega

/-- The row and the tile a sprite on the line shows (43_ppu_scanline.md R260, R261). -/
theorem spriteTile_bounds (v : Scene) (o : Sprite) (h : v.onLine o = true) :
    (v.spriteTile o).1 < 768 ∧ (v.spriteTile o).2 < 8 := by
  have hb := bank_le v.colour o.attr
  have h8 := o.tile.isLt
  simp only [Scene.onLine, Bool.and_eq_true, decide_eq_true_eq] at h
  cases hs : v.ppu.spriteSize
  · have hh : v.spriteHeight = 8 := by simp [Scene.spriteHeight, hs]
    simp only [Scene.spriteTile, hs, tileNumber, Bool.false_eq_true, if_false]
    omega
  · have hh : v.spriteHeight = 16 := by simp [Scene.spriteHeight, hs]
    have ht := tallTile_lt o.tile
      (if attrVflip o.attr then 1 - ((v.ly : Int) - o.sy).toNat / 8 else ((v.ly : Int) - o.sy).toNat / 8)
      (by split <;> omega)
    simp only [Scene.spriteTile, hs, tileNumber, if_true]
    omega

end Sys2Proof.Machine
end

