-- ==== Sys2Proof/Tests/Slice0.lean ====
section
/-! SUPPORT. Tests of the model. Expected values come from spec/: words from the encoding tables of 30_encoding.md R121 to R124,
results from the vectors TC, TP, TA, TR, TG and the programs of 95_test_vectors.md, or from the rule cited, by hand. Then one
witness for every obligation that has hypotheses. -/

namespace Sys2Proof.Tests

-- One thread for all the tests: compiled as one text, a thread each would ask for more memory than the check allows.
set_option Elab.async false

open Sys2Proof Sys2Proof.Machine

/-! ### Small states -/

/-- Reset, with a draw that is known, so that states can be compared. -/
def base : State := { State.reset with inputs := { bytes := [], now := 0, seconds := 0, draw := 99 } }

/-- The state after a call; the state before it where the call does not end normally or with a fault. -/
def after (i : Instr) (s : State) : State :=
  match exec i s with
  | .next t => t
  | .fault _ => s
  | .refused _ => s

/-- What a call answers. -/
def answer (i : Instr) (s : State) : Option Result :=
  match exec i s with
  | .next t => some t.result
  | .fault _ => none
  | .refused _ => none

/-- The result of an operand outside its domain. -/
def outside : Option Result := some (.fault .invalidArgument)

/-- The cartridge of vector TC1: 2 ROM banks, 1 RAM bank, type 0x13. -/
def tc1 : Cartridge :=
  { nrom := 2, rom := [(0x147, 0x13), (0x149, 0x02)], nram := 1, ram := [], typeCode := 0x13, colour := false, battery := true
    rtc := { sec := 0, min := 0, hour := 0, dayLow := 0, dayHigh := 0 }, rtcLast := none }

/-- `base` with a cartridge. -/
def withC (c : Cartridge) : State := { base with cart := some c }

/-- The RTC registers of a list of five. -/
def rtcOf (a b c d e : Byte) : Rtc := { sec := a, min := b, hour := c, dayLow := d, dayHigh := e }

/-- The RTC and `rtc_last` of a state. -/
def clock (s : State) : Option (Rtc × Option (BitVec 64)) := s.cart.map fun c => (c.rtc, c.rtcLast)

/-! ### The configuration (00_scope.md R10) -/

/-- A configuration with other values: mono output, small banks, a short noise table. -/
def other : Config :=
  { Config.default with
    stereo := false, romBankSize := 0x200, ramBankSize := 4, hdrRomSize := 2, batteryTypes := [7]
    noiseTableLen := 10, noiseShortLen := 3, safeCycleLength := 9, phaseOne := 2, sampleRate := 16, sqBase := 4096 }

theorem default_valid : Config.default.Valid :=
  ⟨by decide, by decide, by decide, by decide, by decide, by decide, by decide, by decide⟩
theorem other_valid : other.Valid :=
  ⟨by decide, by decide, by decide, by decide, by decide, by decide, by decide, by decide⟩
/-- R302, R327, R352, R359, R321, R411 m in that configuration: `cycleLen(SQ_BASE, 2046) = 32 div 2048`, at least 1; a route to
any side is MONO; one byte per sample frame; a draw of 0..9; the bank size. -/
theorem test_other_configuration :
    let s : State := { State.resetOf other with inputs := { bytes := [], now := 0, seconds := 0, draw := 27 } }
    let low (d : Byte) := (after (.ioWriteR13 d) (after (.mirrorWrite 0x14 7) s)).apu.ch1.voice.cycleLen
    low 0xFE = 1 ∧ s.apu.ch1.voice.cycleLen = 9 ∧ s.apu.ch4.voice.cycleLen = 90 ∧
      (after (.ioWriteR25 0x12) s).apu.ch1.voice.route = 4 ∧ (after (.ioWriteR25 0x12) s).apu.ch3.voice.route = 0 ∧
      answer (.render 3) s = some (.bytes [0x80, 0x80, 0x80]) ∧ (after (.ioWriteR22 0x08) s).apu.ch4.offset = 7 ∧
      answer (.ramWrite 0 4 1) { s with cart := some tc1 } = outside ∧
      answer (.ramWrite 0 3 1) { s with cart := some tc1 } = some .none ∧
      (Instr.ramRead 0 4).wellFormed other = false := by decide +kernel
/-- R359 without `STEREO`: a channel of amplitude 6 routed to MONO. -/
theorem test_render_mono :
    let v : Voice := { phase := 0, cycleLen := 5512, length := .continuous, route := 4 }
    let e : Envelope := { amp := 6, step := 0, ctr := 0, up := false }
    let s : State := State.resetOf { Config.default with stereo := false }
    answer (.render 2) { s with apu := { s.apu with ch1 := { voice := v, env := e, freq := 1984, dutyThr := 4 } } } =
      some (.bytes [0x86, 0x86]) := by decide +kernel

/-! ### WellFormed: each check refuses an ill-formed term (30_encoding.md R121) -/

theorem test_wf_vram : (Instr.writeVram 0x2000 0).wellFormed base.config = false ∧ (Instr.writeVram 0x1FFF 0).wellFormed base.config = true := by decide
theorem test_wf_bank : (Instr.setVramBank 2).wellFormed base.config = false ∧ (Instr.setVramBank 1).wellFormed base.config = true := by decide
theorem test_wf_colour : (Instr.setColorPalette 128 0).wellFormed base.config = false ∧ (Instr.setColorPalette 127 0).wellFormed base.config = true := by
  decide
theorem test_wf_mono : (Instr.setMonoPalette 3 0).wellFormed base.config = false ∧ (Instr.setMonoPalette 2 0).wellFormed base.config = true := by decide
theorem test_wf_oam : (Instr.writeOam 0xA0 0).wellFormed base.config = false ∧ (Instr.writeOam 0x9F 0).wellFormed base.config = true := by decide
theorem test_wf_line : (Instr.notifyScanline 154).wellFormed base.config = false ∧ (Instr.notifyScanline 153).wellFormed base.config = true := by decide
theorem test_wf_mirror : (Instr.mirrorWrite 0x80 0).wellFormed base.config = false ∧ (Instr.mirrorWrite 0x7F 0).wellFormed base.config = true := by decide
theorem test_wf_speed : (Instr.setSpeed 0).wellFormed base.config = false ∧ (Instr.setSpeed 0xFFFFFFFF).wellFormed base.config = false ∧
    (Instr.setSpeed 1).wellFormed base.config = true := by decide
theorem test_wf_channel : (Instr.setChannelEnable 0 true).wellFormed base.config = false ∧
    (Instr.setChannelEnable 5 true).wellFormed base.config = false ∧ (Instr.setChannelEnable 4 true).wellFormed base.config = true := by decide
theorem test_wf_count : (Instr.render 0x80000000).wellFormed base.config = false ∧ (Instr.render 0).wellFormed base.config = true := by decide
theorem test_wf_rom : (Instr.romRead 0 0x4000).wellFormed base.config = false ∧ (Instr.romRead 0 0x3FFF).wellFormed base.config = true := by decide
theorem test_wf_ram : (Instr.ramRead 0 0x2000).wellFormed base.config = false ∧ (Instr.ramWrite 0 0x2000 0).wellFormed base.config = false ∧
    (Instr.ramRead 0 0x1FFF).wellFormed base.config = true ∧ (Instr.ramWrite 0 0x1FFF 0).wellFormed base.config = true := by decide
theorem test_wf_rtc : (Instr.rtcRead 5).wellFormed base.config = false ∧ (Instr.rtcWrite 5 0).wellFormed base.config = false ∧
    (Instr.rtcRead 4).wellFormed base.config = true ∧ (Instr.rtcWrite 4 0).wellFormed base.config = true := by decide

/-! ### Decode: a word for every constructor, from the tables of 30_encoding.md R121 to R124 -/

theorem test_decode_ppu :
    decode 0x0100000000000091 = .instr (.writeControlRegister 0x91) ∧
    decode 0x020000000000103C = .instr (.writeVram 0x10 0x3C) ∧
    decode 0x0300000000000001 = .instr (.setVramBank 1) ∧
    decode 0x04000000000042E0 = .instr (.setColorPalette 66 0xE0) ∧
    decode 0x05000000000001E4 = .instr (.setMonoPalette 1 0xE4) ∧
    decode 0x0600000000000380 = .instr (.writeOam 3 0x80) ∧
    decode 0x0700000000009900 = .instr (.notifyScanline 153) ∧
    decode 0x0800000000000000 = .instr .endFrame := by decide
theorem test_decode_pace :
    decode 0x1000000000004303 = .instr (.mirrorWrite 0x43 3) ∧
    decode 0x1100000000000000 = .instr .tick ∧
    decode 0x120000FFFFFFFF00 = .instr (.setSpeed 0xFFFFFFFF) := by decide
theorem test_decode_square :
    decode 0x2000000000001011 = .instr (.ioWriteR10 0x11) ∧
    decode 0x2000000000001180 = .instr (.ioWriteR11 0x80) ∧
    decode 0x20000000000012F0 = .instr (.ioWriteR12 0xF0) ∧
    decode 0x20000000000013C0 = .instr (.ioWriteR13 0xC0) ∧
    decode 0x2000000000001487 = .instr (.ioWriteR14 0x87) ∧
    decode 0x20000000000015AA = .instr (.ioWriteR15 0xAA) ∧
    decode 0x2000000000001680 = .instr (.ioWriteR16 0x80) ∧
    decode 0x20000000000017F0 = .instr (.ioWriteR17 0xF0) ∧
    decode 0x20000000000018C0 = .instr (.ioWriteR18 0xC0) ∧
    decode 0x2000000000001987 = .instr (.ioWriteR19 0x87) := by decide
theorem test_decode_wave_noise :
    decode 0x2000000000001A80 = .instr (.ioWriteR1A 0x80) ∧
    decode 0x2000000000001BFC = .instr (.ioWriteR1B 0xFC) ∧
    decode 0x2000000000001C20 = .instr (.ioWriteR1C 0x20) ∧
    decode 0x2000000000001DFF = .instr (.ioWriteR1D 0xFF) ∧
    decode 0x2000000000001EC7 = .instr (.ioWriteR1E 0xC7) ∧
    decode 0x2000000000001FBB = .instr (.ioWriteR1F 0xBB) ∧
    decode 0x2000000000002001 = .instr (.ioWriteR20 0x01) ∧
    decode 0x20000000000021A0 = .instr (.ioWriteR21 0xA0) ∧
    decode 0x2000000000002253 = .instr (.ioWriteR22 0x53) ∧
    decode 0x2000000000002380 = .instr (.ioWriteR23 0x80) := by decide
theorem test_decode_apu_control :
    decode 0x2000000000002477 = .instr (.ioWriteR24 0x77) ∧
    decode 0x2000000000002511 = .instr (.ioWriteR25 0x11) ∧
    decode 0x2100000000000301 = .instr (.setChannelEnable 3 true) ∧
    decode 0x2200000000000000 = .instr (.setSoundEnabled false) ∧
    decode 0x2300000000001800 = .instr (.render 24) := by decide
theorem test_decode_cart :
    decode 0x3000000000000000 = .instr .load ∧
    decode 0x3100000000000000 = .instr .hasBattery ∧
    decode 0x3200000000000000 = .instr .tickRtc ∧
    decode 0x3300000000000000 = .instr .skipRtc ∧
    decode 0x3400000000000000 = .instr .dumpSave ∧
    decode 0x3500000000000000 = .instr .loadSave ∧
    decode 0x3600010000014800 = .instr (.romRead 1 0x148) ∧
    decode 0x3700000000010000 = .instr (.ramRead 0 0x100) ∧
    decode 0x380003000001005A = .instr (.ramWrite 3 0x100 0x5A) ∧
    decode 0x3900000000000400 = .instr (.rtcRead 4) ∧
    decode 0x3A000000000003FF = .instr (.rtcWrite 3 0xFF) := by decide
theorem test_decode_rejects :
    decode 0 = .invalid (.unknownOp 0) ∧
    decode 0x0900000000000000 = .invalid (.unknownOp 0x09) ∧
    decode 0x3B00000000000000 = .invalid (.unknownOp 0x3B) ∧
    decode 0x0100000000000191 = .invalid .unusedFieldNotZero ∧
    decode 0x0200010000001000 = .invalid .unusedFieldNotZero ∧
    decode 0x0800000000000001 = .invalid .unusedFieldNotZero ∧
    decode 0x2100000000000302 = .invalid .unusedFieldNotZero ∧
    decode 0x3600000000000001 = .invalid .unusedFieldNotZero := by decide
/-- R124: register numbers beside the 22 decode, as calls outside the domain; R123: so does an out-of-range address. -/
theorem test_decode_out_of_domain :
    decode 0x2000000000000F00 = .ioWriteOutside 0x0F 0 ∧ decode 0x2000000000002600 = .ioWriteOutside 0x26 0 ∧
    decode 0x2000000001001000 = .ioWriteOutside 0x10010 0 ∧
    decode 0x0200000000200000 = .instr (.writeVram 0x2000 0) := by decide
theorem test_encode :
    encode (.ramWrite 3 0x100 0x5A) = 0x380003000001005A ∧ encode (.setChannelEnable 3 true) = 0x2100000000000301 ∧
    encode (.setSpeed 0xFFFFFFFF) = 0x120000FFFFFFFF00 := by decide
theorem test_decodeTableWord :
    decodeTableWord 64 0x0100000000000091 = some (.writeControlRegister 0x91) ∧
    decodeTableWord 64 0x2000000000002600 = none ∧ decodeTableWord 64 0 = none := by decide

/-! ### Steps -/

/-- A command word placed with `withFetchWord` runs as the next step (program C step 6). -/
theorem test_step_word :
    (match step (State.reset.withFetchWord 64 0x0100000000000091) with
     | .next t => some (t.ppu.lcdc, t.pending.length)
     | .fault _ => none
     | .refused _ => none) = some (0x91, 0) := by decide
/-- 30_encoding.md R123: no step. -/
theorem test_step_invalid_word :
    (match step (State.reset.withFetchWord 64 0x0900000000000000) with
     | .next _ => none
     | .fault _ => none
     | .refused r => some r) = some Refusal.unknownOp := by decide
/-- TA10: `ioWrite(0x26, 0)` faults. -/
theorem test_step_ioWrite_outside :
    (match step (State.reset.withFetchWord 64 0x2000000000002600) with
     | .next t => some t.result
     | .fault _ => none
     | .refused _ => none) = outside := by decide
/-- TC15: no cartridge, refused. -/
theorem test_refused : exec (.ramRead 0 0) base = .refused .noCartridge := by rfl

/-! ### PPU access (vectors TP) -/

/-- TP1. -/
theorem test_writeControlRegister :
    let p := (after (.writeControlRegister 0x91) base).ppu
    p.lcdEnable = true ∧ p.winMapSelect = false ∧ p.winEnable = false ∧ p.tileDataSelect = true ∧ p.bgMapSelect = false ∧
      p.spriteSize = false ∧ p.spriteEnable = false ∧ p.bgEnable = true := by decide
/-- R203's example, from bank 1 so that the bank matters. -/
theorem test_writeVram :
    let s := { base with ppu := { base.ppu with
      vramBank := 1
      cache := [({ kind := .bg, n := 1, attr := 0 }, .transparent), ({ kind := .bg, n := 385, attr := 9 }, .transparent)] } }
    let t := after (.writeVram 0x12 0x3C) s
    t.ppu.vram1 = [(0x12, 0x3C)] ∧ t.ppu.vram0 = [] ∧ t.ppu.cache.map (·.1.n) = [1] := by decide
theorem test_writeVram_edge :
    (after (.writeVram 0x1FFF 7) base).ppu.vram0 = [(0x1FFF, 7)] ∧ answer (.writeVram 0x2000 0) base = outside := by decide
theorem test_setVramBank :
    (after (.setVramBank 1) base).ppu.vramBank = 1 ∧ answer (.setVramBank 2) base = outside := by decide
/-- TP2, TP3: `setColorPalette(0, 0xFF)`, then `(1, 0x7F)`; the sprite half. -/
theorem test_setColorPalette :
    let s := after (.setColorPalette 0 0xFF) base
    s.ppu.colPal[0] = 0xFFF83800 ∧ (after (.setColorPalette 1 0x7F) s).ppu.colPal[0] = 0xFFF8F8F8 ∧
      (after (.setColorPalette 67 0x7F) base).ppu.colPal[33] = 0xFF00C0F8 := by decide +kernel
/-- TP4; the last entry; an unchanged byte keeps the cache. -/
theorem test_setColorPalette_edge :
    let s := { base with ppu := { base.ppu with cache := [({ kind := .obj, n := 0, attr := 7 }, .transparent)] } }
    answer (.setColorPalette 128 0) base = outside ∧ (after (.setColorPalette 127 0x7C) s).ppu.colPal[63] = 0xFF0000F8 ∧
      (after (.setColorPalette 127 0x7C) s).ppu.cache = [] ∧ (after (.setColorPalette 127 0) s).ppu.cache.length = 1 := by decide +kernel
/-- TP5. -/
theorem test_setMonoPalette :
    let p := (after (.setMonoPalette 0 0xE4) base).ppu.monoPal
    let q := (after (.setMonoPalette 2 0x1B) base).ppu.monoPal
    [p[0], p[1], p[2], p[3]] = [0xFFFFFFFF, 0xFFAAAAAA, 0xFF555555, 0xFF000000] ∧
      [q[8], q[9], q[10], q[11]] = [0xFF000000, 0xFF555555, 0xFFAAAAAA, 0xFFFFFFFF] := by decide
/-- TP4; slot 1 removes sprite entries with attribute bit 4 clear only (R206). -/
theorem test_setMonoPalette_cache :
    let s := { base with ppu := { base.ppu with cache :=
      [({ kind := .bg, n := 0, attr := 0 }, .transparent), ({ kind := .obj, n := 0, attr := 0 }, .transparent),
       ({ kind := .obj, n := 0, attr := 0x10 }, .transparent)] } }
    answer (.setMonoPalette 3 0) base = outside ∧
      (after (.setMonoPalette 1 0) s).ppu.cache.map (fun e => (e.1.kind, e.1.attr)) = [(.bg, 0), (.obj, 0x10)] := by decide
theorem test_writeOam :
    (after (.writeOam 0x9F 5) base).ppu.oam = [(0x9F, 5)] ∧ answer (.writeOam 0xA0 0) base = outside := by decide

/-- `vram[0]` holds one tile row: tile 1, row 0. -/
def row (lo hi : Byte) : Ppu := { base.ppu with vram0 := [(0x10, lo), (0x11, hi)] }
/-- TP6. -/
theorem test_tilePixelIndex :
    (List.range 8).map ((row 0x3C 0x7E).tilePixelIndex 0 1 false false 0) = [0, 2, 3, 3, 3, 3, 2, 0] ∧
    (List.range 8).map ((row 0x0F 0x33).tilePixelIndex 0 1 false false 0) = [0, 0, 2, 2, 1, 1, 3, 3] ∧
    (List.range 8).map ((row 0x0F 0x33).tilePixelIndex 0 1 true false 0) = [3, 3, 1, 1, 2, 2, 0, 0] ∧
    (row 0x0F 0x33).tilePixelIndex 0 1 false true 7 7 = 3 := by decide
/-- R210's examples. -/
theorem test_interleave :
    interleave 0x00 = 0 ∧ interleave 0x01 = 1 ∧ interleave 0x80 = 0x4000 ∧ interleave 0xFF = 0x5555 := by decide
/-- TP8. -/
theorem test_mapTile :
    mapTile false 0x00 = 256 ∧ mapTile false 0x7F = 383 ∧ mapTile false 0x80 = 128 ∧ mapTile false 0xFF = 255 ∧
      mapTile true 0xFF = 255 := by decide
/-- TP9. -/
theorem test_paletteMux :
    let p := (after (.setMonoPalette 1 0xE4) base).ppu
    p.paletteMux false .obj 0x00 0 = 0x00FFFFFF ∧ p.paletteMux false .obj 0x00 1 = 0xFFAAAAAA := by decide

/-! ### Compositor (vectors TP10 to TP20; program C) -/

/-- The state of program C before step 16: tiles 1 and 2, map entry 0, palettes 0xE4, sprite 0 behind, no cartridge. -/
def progC (attr : Byte) : State :=
  { base with ppu := { base.ppu with
      vram0 := [(0x10, 0x3C), (0x11, 0x7E), (0x20, 0xFF), (0x1800, 0x01)]
      monoPal := #v[0xFFFFFFFF, 0xFFAAAAAA, 0xFF555555, 0xFF000000, 0xFFFFFFFF, 0xFFAAAAAA, 0xFF555555, 0xFF000000,
        0xFFFFFFFF, 0xFFFFFFFF, 0xFFFFFFFF, 0xFFFFFFFF]
      oam := [(0, 16), (1, 8), (2, 2), (3, attr)], lcdc := 0x93 } }
/-- The first pixels of line 0 after `notifyScanline(0)`. -/
def line0 (s : State) (xs : List Nat) : List Colour :=
  let k := (Scene.of s 0).compose
  xs.map fun x => (k.line x).col
/-- Program C step 16: a behind sprite shows over index 0 only. -/
theorem test_notifyScanline_behind :
    line0 (progC 0x80) [0, 1, 2, 6, 7, 8] =
      [0xFFAAAAAA, 0xFF555555, 0xFF000000, 0xFF555555, 0xFFAAAAAA, 0xFFFFFFFF] := by decide +kernel
/-- TP12: front sprite 1 over everything, behind sprite 0 over index 0. -/
theorem test_notifyScanline_two_sprites :
    let s := progC 0x80
    line0 { s with ppu := { s.ppu with
        oam := s.ppu.oam ++ [(4, 16), (5, 12), (6, 2), (7, 0x10)]
        monoPal := (after (.setMonoPalette 2 0x1B) s).ppu.monoPal } } [0, 1, 2, 3, 4, 11] =
      [0xFFAAAAAA, 0xFF555555, 0xFF000000, 0xFF000000, 0xFF555555, 0xFF555555] := by decide +kernel
/-- TP13: a sprite cut by the left edge. -/
theorem test_notifyScanline_clip :
    let s := progC 0x00
    line0 { s with ppu := { s.ppu with oam := [(0, 16), (1, 4), (2, 2)] } } [0, 3, 4, 5, 6, 7] =
      [0xFFAAAAAA, 0xFFAAAAAA, 0xFF000000, 0xFF000000, 0xFF555555, 0xFFFFFFFF] := by decide +kernel
/-- TP16, TP17: the window from column 4, and a window past the right edge. -/
theorem test_notifyScanline_window :
    let s := progC 0x00
    let w (wx : Byte) : State :=
      { s with io := s.io.set 0x4B wx, ppu := { s.ppu with lcdc := 0xF1, vram0 := s.ppu.vram0 ++ [(0x1C00, 2)] } }
    line0 (w 11) [0, 1, 2, 3, 4, 11, 12] =
        [0xFFFFFFFF, 0xFF555555, 0xFF000000, 0xFF000000, 0xFFAAAAAA, 0xFFAAAAAA, 0xFFFFFFFF] ∧
      line0 (w 167) [0, 1, 2, 5, 6, 7] =
        [0xFFFFFFFF, 0xFF555555, 0xFF000000, 0xFF000000, 0xFF555555, 0xFFFFFFFF] := by decide +kernel
/-- TP20: scrolled by 250. -/
theorem test_notifyScanline_scroll :
    let s := progC 0x00
    line0 { s with io := s.io.set 0x43 250, ppu := { s.ppu with lcdc := 0x91 } } [4, 6, 7, 8, 11, 12, 13] =
      [0xFFFFFFFF, 0xFFFFFFFF, 0xFF555555, 0xFF000000, 0xFF000000, 0xFF555555, 0xFFFFFFFF] := by decide +kernel
/-- TP19: 8 by 16 sprites: tile and row on lines 0 and 8, with T odd and with a vertical flip. -/
theorem test_spriteTile_tall :
    let v (ly : Nat) : Scene := Scene.of { base with ppu := { base.ppu with lcdc := 0x86 } } ly
    let o (t a : Byte) : Sprite := { y := 16, x := 8, tile := t, attr := a }
    (v 0).spriteTile (o 5 0x00) = (4, 0) ∧ (v 15).spriteTile (o 5 0x00) = (5, 7) ∧
      (v 0).spriteTile (o 4 0x40) = (5, 0) ∧ (v 8).spriteTile (o 4 0x40) = (4, 0) ∧
      (v 16).onLine (o 5 0x00) = false := by decide
/-- Program D, columns 0, 4, 8, 12: behind sprite over index 0, background over it, priority tile over a front sprite. -/
theorem test_notifyScanline_priority :
    let p := base.ppu
    let pal := ((p.colPal.set 0 0xFFF8F8F8).set 1 0xFFF80000).set 33 0xFF00F8F8
    let s : State := { withC { tc1 with colour := true } with ppu := { p with
      vram0 := [(0x10, 0x0F), (0x20, 0xFF), (0x1800, 1), (0x1801, 1)], vram1 := [(0x1801, 0x80)], colPal := pal
      oam := [(0, 16), (1, 8), (2, 2), (3, 0x80), (4, 16), (5, 16), (6, 2)], lcdc := 0x93 } }
    line0 s [0, 4, 8, 12, 16] = [0xFF00F8F8, 0xFFF80000, 0xFFF8F8F8, 0xFFF80000, 0xFFF8F8F8] ∧
      (Scene.of s 0).compose.cache.map (fun e => (e.1.kind, e.1.n, e.1.attr)) =
        [(.bg, 0, 0), (.bg, 1, 0), (.bg, 1, 0x80), (.obj, 2, 0), (.obj, 2, 0x80)] := by decide +kernel
/-- Program C step 16, the whole call: what it stores and keeps. -/
theorem test_notifyScanline :
    let t := after (.notifyScanline 0) (progC 0x80)
    t.ppu.fb.pixel 0 1 = 0xFF555555 ∧ t.ppu.fb.pixel 1 1 = white ∧
      t.ppu.cache.map (fun e => (e.1.kind, e.1.n, e.1.attr)) = [(.bg, 0, 0), (.bg, 1, 0), (.obj, 2, 0x80)] := by decide +kernel
/-- TP18. -/
theorem test_notifyScanline_edge :
    answer (.notifyScanline 154) base = outside ∧ answer (.notifyScanline 153) base = some .none := by decide
/-- TP10: LCD off at line 143. -/
theorem test_notifyScanline_lcd_off :
    let s := progC 0x00
    (after (.notifyScanline 143) { s with ppu := { s.ppu with lcdc := 0x11, fb := [(1, 0xFF000000)] } }).ppu.fb = [] := by
  decide +kernel
/-- R267, and TG5: with divisor 2 the first `endFrame` gives nothing. -/
theorem test_endFrame :
    let s := { base with ppu := { base.ppu with fb := [(3, 0xFF555555)] } }
    answer .endFrame s = some (.frame [(3, 0xFF555555)]) ∧
      answer .endFrame { s with pace := { counter := 0, divisor := 2 } } = some .none ∧
      (after .endFrame { s with pace := { counter := 0, divisor := 2 } }).pace.counter = 1 := by decide

/-! ### Pacing gate (vectors TG) -/

/-- TG2: divisor 3. -/
theorem test_tick :
    answer .tick { base with pace := { counter := 1, divisor := 3 } } = some (.bool false) ∧
      answer .tick { base with pace := { counter := 2, divisor := 3 } } = some (.bool true) ∧
      (after .tick { base with pace := { counter := 2, divisor := 3 } }).pace = { counter := 0, divisor := 3 } := by decide
/-- TG3, TG4. -/
theorem test_setSpeed :
    let s := { base with pace := { counter := 2, divisor := 3 } }
    (after (.setSpeed 2) s).pace = { counter := 0, divisor := 2 } ∧
      answer (.setSpeed 0) s = outside ∧ answer (.setSpeed 0xFFFFFFFF) s = outside ∧
      (after (.setSpeed 0xFFFFFFFF) s).pace = { counter := 2, divisor := 3 } := by decide
/-- TG6. -/
theorem test_mirrorWrite :
    let t := after (.mirrorWrite 0x40 0x91) base
    t.ioRead 0x40 = 0x91 ∧ t.ppu.lcdc = 0 ∧ (after (.mirrorWrite 0x7F 1) base).ioRead 0x7F = 1 ∧
      answer (.mirrorWrite 0x80 0) base = outside := by decide +kernel

/-! ### APU registers (vectors TA) -/

/-- `base` with bytes in the register file. -/
def withIo (l : List (Nat × Byte)) : State := l.foldl (fun s e => s.ioStore e.1 e.2) base

/-- TA5. -/
theorem test_ioWriteR10 :
    (after (.ioWriteR10 0x70) base).apu.sweep = { period := 4, shift := 0, down := false, ctr := 0 } ∧
      (after (.ioWriteR10 0x2A) base).apu.sweep = { period := 1, shift := 2, down := true, ctr := 0 } := by decide
/-- R304's examples. -/
theorem test_ioWriteR11 :
    let a (d : Byte) := (after (.ioWriteR11 d) base).apu.ch1
    (a 0x80).dutyThr = 4 ∧ (a 0x80).voice.length = .remaining 16 ∧ (a 0xFF).dutyThr = 6 ∧
      (a 0xFF).voice.length = .remaining 0 := by decide
/-- R305's example. -/
theorem test_ioWriteR12 :
    (after (.ioWriteR12 0xF3) base).apu.ch1.env = { amp := 30, step := 3, ctr := 0, up := false } := by decide
/-- Program E step 4; the high bits come from the mirror (R306). -/
theorem test_ioWriteR13 :
    let c (s : State) := (after (.ioWriteR13 0xC0) s).apu.ch1
    (c base).freq = 192 ∧ (c base).voice.cycleLen = 161280 ∧ (c (withIo [(0x14, 0x47)])).freq = 0x7C0 := by decide +kernel
/-- TA1, TA2. -/
theorem test_ioWriteR14 :
    let c (d : Byte) (s : State) := (after (.ioWriteR14 d) s).apu.ch1
    let s1 := withIo [(0x11, 0x80), (0x12, 0xF0), (0x13, 0xC0)]
    let s2 := withIo [(0x11, 0xB8), (0x12, 0x32), (0x13, 0xC0)]
    (c 0x87 s1).freq = 1984 ∧ (c 0x87 s1).voice.cycleLen = 5512 ∧ (c 0x87 s1).voice.length = .continuous ∧
      (c 0x87 s1).env.amp = 30 ∧ (c 0xC7 s2).voice.length = .remaining 2 ∧
      (c 0xC7 s2).env = { amp := 6, step := 2, ctr := 0, up := false } := by decide +kernel
/-- TA12: the trigger reads the mirror; without a trigger and with bit 6 set nothing is reloaded (R307). -/
theorem test_ioWriteR14_mirror :
    let s := withIo [(0x12, 0xF0)]
    (after (.ioWriteR14 0x80) s).apu.ch1.env.amp = 30 ∧ (after (.ioWriteR14 0x80) s).apu.ch1.voice.cycleLen = 176400 ∧
      (after (.ioWriteR14 0x40) s).apu.ch1.env.amp = 0 ∧
      (after (.ioWriteR14 0x40) s).apu.ch1.voice.length = .remaining 0 := by decide +kernel
/-- TA11. -/
theorem test_ioWrite_stored_only :
    (after (.ioWriteR15 0xAA) base) = { base with io := base.io.set 0x15 0xAA } ∧
      (after (.ioWriteR1F 0xBB) base) = { base with io := base.io.set 0x1F 0xBB } ∧
      (after (.ioWriteR24 0x77) base) = { base with io := base.io.set 0x24 0x77 } := by decide +kernel
/-- R309, R310 as R304, R305 on channel 2. -/
theorem test_ioWriteR16_R17 :
    (after (.ioWriteR16 0x80) base).apu.ch2.dutyThr = 4 ∧ (after (.ioWriteR16 0x80) base).apu.ch1.dutyThr = 1 ∧
      (after (.ioWriteR16 0xB8) base).apu.ch2.voice.length = .remaining 2 ∧
      (after (.ioWriteR17 0xF3) base).apu.ch2.env = { amp := 30, step := 3, ctr := 0, up := false } := by decide
/-- R311, R312 with the values of TA1 on channel 2. -/
theorem test_ioWriteR18_R19 :
    let s := withIo [(0x16, 0xB8), (0x17, 0xF0), (0x18, 0xC0), (0x19, 0x07)]
    (after (.ioWriteR18 0xC0) s).apu.ch2.voice.cycleLen = 5512 ∧ (after (.ioWriteR19 0xC7) s).apu.ch2.freq = 1984 ∧
      (after (.ioWriteR19 0xC7) s).apu.ch2.voice.length = .remaining 2 ∧
      (after (.ioWriteR19 0xC7) s).apu.ch2.env.amp = 30 := by decide +kernel
theorem test_ioWriteR1A_R1C :
    (after (.ioWriteR1A 0x80) base).apu.ch3.dacOn = true ∧ (after (.ioWriteR1A 0x7F) base).apu.ch3.dacOn = false ∧
      (after (.ioWriteR1C 0x60) base).apu.ch3.volCode = 3 ∧ (after (.ioWriteR1C 0x20) base).apu.ch3.volCode = 1 := by decide
/-- R315's examples. -/
theorem test_ioWriteR1B :
    (after (.ioWriteR1B 0x00) base).apu.ch3.voice.length = .remaining 64 ∧
      (after (.ioWriteR1B 0xFF) base).apu.ch3.voice.length = .remaining 0 := by decide
/-- R302: `cycleLen(WV_BASE, 2047) = 172`; TA6. -/
theorem test_ioWriteR1D_R1E :
    (after (.ioWriteR1D 0xFF) (withIo [(0x1E, 0x07)])).apu.ch3.voice.cycleLen = 172 ∧
      (after (.ioWriteR1E 0xC7) (withIo [(0x1B, 0xFC)])).apu.ch3.voice.length = .remaining 1 ∧
      (after (.ioWriteR1E 0xC7) (withIo [(0x1B, 0xFC)])).apu.ch3.voice.cycleLen = 44100 := by decide +kernel
/-- R322, R323. -/
theorem test_ioWriteR20_R21 :
    (after (.ioWriteR20 0xC0) base).apu.ch4.voice.length = .remaining 16 ∧
      (after (.ioWriteR21 0xA9) base).apu.ch4.env = { amp := 20, step := 1, ctr := 0, up := true } := by decide
/-- TA8, with draw 99. -/
theorem test_ioWriteR22 :
    let c (d : Byte) := (after (.ioWriteR22 d) base).apu.ch4
    let f (n : Noise) := (n.stepLen, n.voice.cycleLen, n.shortMode, n.offset)
    f (c 0x00) = (21, 688107, false, 0) ∧ f (c 0x08) = (21, 2667, true, 99) ∧
      f (c 0x53) = (4135, 135491545, false, 0) ∧ (c 0xF7).stepLen = 11289600 := by decide
/-- TA9. -/
theorem test_ioWriteR23 :
    let s := withIo [(0x20, 0x00), (0x21, 0xA0)]
    let t := { s with apu := { s.apu with ch4 := { s.apu.ch4 with shortMode := true } } }
    (after (.ioWriteR23 0x80) t).apu.ch4.offset = 99 ∧ (after (.ioWriteR23 0x80) t).apu.ch4.env.amp = 20 ∧
      (after (.ioWriteR23 0x80) t).apu.ch4.voice.length = .continuous ∧
      (after (.ioWriteR23 0xC0) s).apu.ch4.offset = 0 ∧
      (after (.ioWriteR23 0xC0) s).apu.ch4.voice.length = .remaining 16 := by decide +kernel
/-- TA7. -/
theorem test_ioWriteR25 :
    let a := (after (.ioWriteR25 0xF3) base).apu
    [a.ch1.voice.route, a.ch2.voice.route, a.ch3.voice.route, a.ch4.voice.route] = [3, 3, 1, 1] := by decide
/-- TA10; R328. -/
theorem test_setChannelEnable :
    let a := (after (.setChannelEnable 4 false) base).apu
    answer (.setChannelEnable 0 true) base = outside ∧ answer (.setChannelEnable 5 true) base = outside ∧
      [a.enabled 1, a.enabled 2, a.enabled 3, a.enabled 4] = [true, true, true, false] := by decide
theorem test_setSoundEnabled : (after (.setSoundEnabled false) base).apu.sndEnabled = false := by decide

/-! ### APU render (vectors TR) -/

/-- TR1, TR12. -/
theorem test_render :
    answer (.render 4) base = some (.bytes (List.replicate 8 0x80)) ∧ answer (.render 0xFFFFFFFF) base = outside ∧
      answer (.render 0) base = some (.bytes []) := by decide +kernel
/-- Channel 1 of TA2, routed to both lanes. -/
def ta2 : State :=
  let v : Voice := { phase := 0, cycleLen := 5512, length := .remaining 2, route := 3 }
  { base with apu := { base.apu with ch1 := { voice := v, env := { amp := 6, step := 2, ctr := 0, up := false }, freq := 1984, dutyThr := 4 } } }
/-- TR4, the first two calls. -/
theorem test_render_square :
    let t := after (.render 1) ta2
    answer (.render 1) ta2 = some (.bytes [0x86, 0x86]) ∧ t.apu.ch1.voice.length = .remaining 1 ∧ t.apu.ch1.env.ctr = 1 ∧
      answer (.render 1) t = some (.bytes [0x84, 0x84]) ∧ (after (.render 1) t).apu.ch1.voice.phase = 512 := by decide +kernel
/-- TR6, TR7: one sweep step up, saturating, and down. -/
theorem test_sweep :
    let c (f : Nat) : Square := base.apu.ch1.putFreq base.config f
    let up : Sweep := { period := 1, shift := 1, down := false, ctr := 0 }
    let down : Sweep := { period := 1, shift := 2, down := true, ctr := 0 }
    (sweepTick base.config up (c 1024)).2.freq = 1536 ∧ (sweepTick base.config up (c 1536)).2.freq = 2048 ∧
      (sweepTick base.config up (c 1536)).2.voice.cycleLen = 65535 ∧ (sweepTick base.config down (c 1024)).2.freq = 768 ∧
      (sweepTick base.config down (c 1024)).2.voice.cycleLen = 110682 := by decide
/-- TR5. -/
theorem test_envelope_clamp :
    let e : Envelope := { amp := 30, step := 1, ctr := 0, up := true }
    e.tick.amp = 32 ∧ e.tick.tick.amp = 32 := by decide
/-- TR9. -/
theorem test_wave_levels :
    let w (code : Nat) : Wave := { base.apu.ch3 with volCode := code, dacOn := true }
    [0, 7, 8, 9, 15].map (w 1).level = [-32, -4, 0, 4, 28] ∧ [0, 7, 8, 9, 15].map (w 2).level = [-16, -2, 0, 2, 14] ∧
      [0, 7, 8, 9, 15].map (w 3).level = [-8, -1, 0, 1, 7] ∧ [0, 15].map (w 0).level = [0, 0] := by decide
/-- TR8, the positions of its four samples. -/
theorem test_wave_nibbles :
    let w : Wave := { base.apu.ch3 with voice := { base.apu.ch3.voice with cycleLen := 172 } }
    let s := withIo [(0x30, 0x01), (0x37, 0xEF), (0x3F, 0x10)]
    [0, 84, 168, 80].map (w.nibble s.ioRead) = [0, 15, 0, 14] := by decide +kernel

/-! ### Cartridge and RTC (vectors TC) -/

/-- `base` with an image of the header of `IMG`, and of TC3. -/
def withImage (size : Byte) : State :=
  base.withBytes (List.replicate 0x147 0x00 ++ [0x13, size, 0x02])
/-- TC1. -/
theorem test_load : (after .load (withImage 0x00)).cart = some tc1 := by decide +kernel
/-- TC3; R151's special counts. -/
theorem test_load_rom_size :
    answer .load (withImage 0x08) = some (.fault .invalidCartridge) ∧
      [0x00, 0x07, 0x52, 0x53, 0x54, 0x08].map romBanks = [some 2, some 256, some 72, some 80, some 96, none] ∧
      [0, 1, 2, 3, 4, 5, 6, 7].map ramBanks = [1, 1, 1, 4, 16, 16, 16, 1] := by decide +kernel
/-- TC13. -/
theorem test_hasBattery :
    answer .hasBattery (withC tc1) = some (.bool true) ∧ batteryFlag base.config 0x13 = true ∧ batteryFlag base.config 0x00 = false := by decide
/-- TC4; TC5, the day rollover with two seconds applied. -/
theorem test_tickRtc :
    let c := { tc1 with rtcLast := some 5000, rtc := rtcOf 58 59 23 0xFF 0x01 }
    clock (after .tickRtc ((withC tc1).withNow 5000)) = some (rtcOf 0 0 0 0 0, some 5000) ∧
      clock (after .tickRtc ((withC c).withNow 7500)) = some (rtcOf 0 0 0 0x00 0x80, some 7000) := by decide
/-- TC6: halted time is not counted; R170: the clock going backwards. -/
theorem test_tickRtc_halt :
    let c := { tc1 with rtcLast := some 0, rtc := rtcOf 0 0 0 0 0x40 }
    clock (after .tickRtc ((withC c).withNow 10000)) = some (rtcOf 0 0 0 0 0x40, some 10000) ∧
      clock (after .tickRtc ((withC { tc1 with rtcLast := some 9000 }).withNow 8000)) =
        some (rtcOf 0 0 0 0 0, some 8000) := by decide
/-- `base` with a cartridge and the operand `seconds`. -/
def skipping (r : Rtc) (n : BitVec 64) : State :=
  { withC { tc1 with rtc := r } with inputs := { base.inputs with seconds := n } }
/-- TC7. -/
theorem test_skipRtc :
    clock (after .skipRtc (skipping (rtcOf 0 0 0 0 0) 90061)) = some (rtcOf 1 1 1 1 0x00, none) ∧
      clock (after .skipRtc (skipping (rtcOf 1 1 1 1 0) 44236800)) = some (rtcOf 1 1 1 1 0x80, none) ∧
      clock (after .skipRtc (skipping (rtcOf 1 1 1 1 0) (-1))) = some (rtcOf 1 1 1 1 0, none) := by decide
/-- TC8: an out-of-range register under the two ways to advance. -/
theorem test_rtc_out_of_range :
    (rtcOf 70 0 0 0 0).advanceSecond = rtcOf 0 1 0 0 0 ∧ (rtcOf 70 0 0 0 0).skip 1 = rtcOf 11 1 0 0 0 := by decide
/-- The trailer of R175's example. -/
theorem test_dumpSave_trailer :
    (rtcOf 1 2 3 4 0x41).bytes ++ be32 0x18C ++ be32 0x12345678 =
      [1, 2, 3, 4, 0x41, 0, 0, 1, 0x8C, 0x12, 0x34, 0x56, 0x78] := by decide
/-- R175: RAM first, on a record with no RAM bank, where the image is its trailer. -/
theorem test_dumpSave :
    answer .dumpSave ((withC { tc1 with nram := 0, rtc := rtcOf 1 2 3 4 0x41 }).withNow 0x0000018C12345678) =
      some (.bytes [1, 2, 3, 4, 0x41, 0, 0, 1, 0x8C, 0x12, 0x34, 0x56, 0x78]) := by decide
/-- TC12. -/
theorem test_loadSave_short :
    let t := after .loadSave ((withC { tc1 with ram := [(2, 5), (7, 6)] }).withBytes [7, 8, 9])
    t.cart.map (·.ram) = some [(0, 7), (1, 8), (2, 9), (7, 6)] ∧ clock t = some (rtcOf 0 0 0 0 0, none) := by decide +kernel
/-- TC9, TC10, TC11: the trailer with the offline seconds. -/
theorem test_restoredRtc :
    let trailer (h : Byte) : List Byte := [1, 2, 3, 4, h, 0, 0, 1, 0x8C, 0x12, 0x34, 0x56, 0x78]
    restoredRtc (trailer 0x01) 0x0000018C12346A00 = rtcOf 6 2 3 4 0x01 ∧
      restoredRtc (trailer 0x41) 0x0000018C12346A00 = rtcOf 1 2 3 4 0x41 ∧
      restoredRtc (trailer 0x01) 0x0000018C12340000 = rtcOf 1 2 3 4 0x01 := by decide
/-- Program A step 3; TC14; the last byte of the bank. -/
theorem test_ramWrite_ramRead :
    let s := after (.ramWrite 0 0x100 0x42) (withC tc1)
    answer (.ramRead 0 0x100) s = some (.byte 0x42) ∧ answer (.ramRead 0 0x1FFF) s = some (.byte 0) ∧
      answer (.ramRead 1 0) s = outside ∧ answer (.ramRead 0 0x2000) s = outside ∧
      answer (.ramWrite 1 0 0) s = outside := by decide
/-- R164's example; TC14. -/
theorem test_romRead :
    answer (.romRead 0 0x147) (withC tc1) = some (.byte 0x13) ∧ answer (.romRead 1 0x3FFF) (withC tc1) = some (.byte 0) ∧
      answer (.romRead 2 0) (withC tc1) = outside ∧ answer (.romRead 0 0x4000) (withC tc1) = outside := by decide
/-- Program B steps 7 and 10; TC14. -/
theorem test_rtcWrite_rtcRead :
    let s := after (.rtcWrite 4 0x80) (withC tc1)
    answer (.rtcRead 4) s = some (.byte 0x80) ∧ answer (.rtcRead 0) s = some (.byte 0) ∧
      answer (.rtcRead 5) s = outside ∧ answer (.rtcWrite 5 0) s = outside := by decide

/-! ### Witnesses: for each obligation with hypotheses, a state and operands that meet them, and its clauses at their
boundaries -/

/-- One call in the queue. -/
def calling (w : CmdWord) : State := { base with pending := [{ word := w, inputs := base.inputs }] }

theorem witness_DecodeEncode : encode .endFrame = 0x0800000000000000 ∧ decode 0x0800000000000000 = .instr .endFrame := by
  decide
theorem witness_IoWriteOutsideItsRangeFaults :
    (calling (pack 0x20 0 0x0F 1)).pending = { word := pack 0x20 0 0x0F 1, inputs := base.inputs } :: [] ∧
      ((0x0F : BitVec 32).toNat < 0x10 ∨ 0x25 < (0x0F : BitVec 32).toNat) ∧
      ((0x26 : BitVec 32).toNat < 0x10 ∨ 0x25 < (0x26 : BitVec 32).toNat) := by decide +kernel
theorem witness_StepRunsTheDecodedCall :
    decode 0x0800000000000000 = .instr .endFrame ∧ base.pending = [] ∧ (∃ why, decode 0 = .invalid why) ∧
      (calling 0).pending ≠ [] := ⟨by decide, by decide, ⟨.unknownOp 0, by decide⟩, by decide +kernel⟩
theorem witness_FaultLeavesTheStateUnchanged :
    exec (.setSpeed 0) base = .next { base with result := .fault .invalidArgument } := by rfl
theorem witness_InvalidArgumentExactlyOutsideTheDomain :
    (needsCart (.ramRead 1 0) = true → (withC tc1).cart ≠ none) ∧ OutOfDomain (.ramRead 1 0) (withC tc1) ∧
      ¬ needsCart .tick = true := by
  refine ⟨fun _ => by simp [withC], .inr ⟨tc1, rfl, by decide⟩, by decide⟩
theorem witness_RefusedExactlyWithoutCartridge : needsCart .hasBattery = true ∧ base.cart = none := by decide
theorem witness_EveryCallInItsDomainCompletes :
    (Instr.ramWrite 0 0x1FFF 1).wellFormed base.config = true ∧ (withC tc1).cart = some tc1 ∧
      bankInRange tc1 (.ramWrite 0 0x1FFF 1) = true ∧
      byteAt (withImage 0x54).inputs.bytes base.config.hdrRomSize ∈ romSizeBytes := by decide +kernel
theorem witness_LoadMakesTheCartridge :
    byteAt (withImage 0x54).inputs.bytes base.config.hdrRomSize ∈ romSizeBytes ∧
      byteAt (withImage 0x08).inputs.bytes base.config.hdrRomSize ∉ romSizeBytes := by decide +kernel
/-- For CartridgeReads…, RamWrite…, RtcWrite…, the clocks, the save image: a cartridge with operands at the ends of their
ranges. -/
theorem witness_cartridge :
    (withC tc1).cart = some tc1 ∧ (1 : BitVec 16).toNat < tc1.nrom ∧ (0x3FFF : BitVec 32).toNat < base.config.romBankSize ∧
      (0 : BitVec 16).toNat < tc1.nram ∧ (0x1FFF : BitVec 32).toNat < base.config.ramBankSize ∧
      tc1.nram ≤ (1 : BitVec 16).toNat ∧ base.config.ramBankSize ≤ (0x2000 : BitVec 32).toNat ∧
      (4 : BitVec 32).toNat ≤ 4 ∧ 4 < (5 : BitVec 32).toNat := by decide +kernel
theorem witness_TickRtcCatchesUpByWholeSeconds :
    tc1.rtcLast = none ∧ ({ tc1 with rtcLast := some 5 } : Cartridge).rtcLast = some 5 ∧
      (rtcOf 0 0 0 0 0x40).halt = true ∧ (rtcOf 0 0 0 0 0x80).halt = false ∧
      (4 : BitVec 64).toNat < (5 : BitVec 64).toNat ∧ (5 : BitVec 64).toNat ≤ (5 : BitVec 64).toNat := by decide +kernel
theorem witness_AdvanceSecondIsTheCarryChain :
    (rtcOf 58 0 0 0 0).sec.toNat + 1 < 60 ∧ 60 ≤ (rtcOf 59 58 0 0 0).sec.toNat + 1 ∧ (rtcOf 59 58 0 0 0).min.toNat + 1 < 60 ∧
      60 ≤ (rtcOf 59 59 22 0 0).min.toNat + 1 ∧ (rtcOf 59 59 22 0 0).hour.toNat + 1 < 24 ∧
      24 ≤ (rtcOf 59 59 23 0xFF 1).hour.toNat + 1 ∧ (rtcOf 59 59 23 0xFF 1).day = 511 := by decide +kernel
theorem witness_TickRtcDecomposes :
    let c := { tc1 with rtcLast := some 0 }
    (withC c).cart = some c ∧ c.rtcLast = some 0 ∧ c.rtc.halt = false ∧ (0 : BitVec 64).toNat ≤ (1500 : BitVec 64).toNat ∧
      (1500 : BitVec 64).toNat ≤ (3000 : BitVec 64).toNat := by decide +kernel
theorem witness_SkipRtc :
    (skipping (rtcOf 59 59 23 0 0) 1).cart = some { tc1 with rtc := rtcOf 59 59 23 0 0 } ∧
      (rtcOf 59 59 23 0 0).sec.toNat < 60 ∧ (rtcOf 59 59 23 0 0).min.toNat < 60 ∧ (rtcOf 59 59 23 0 0).hour.toNat < 24 ∧
      (rtcOf 59 59 23 0 0).halt = false ∧ 1 ≤ (skipping (rtcOf 59 59 23 0 0) 1).inputs.seconds.toInt ∧
      (skipping (rtcOf 59 59 23 0 0) 0).inputs.seconds.toInt ≤ 0 := by decide +kernel
theorem witness_LoadSaveRestoresTheImage :
    (List.replicate (tc1.nram * base.config.ramBankSize + 13) (0 : Byte)).length = tc1.nram * base.config.ramBankSize + 13 ∧
      ([7, 8, 9] : List Byte).length ≠ tc1.nram * base.config.ramBankSize + 13 := ⟨List.length_replicate, by decide⟩
theorem witness_SaveRoundTripRestoresTheCartridge :
    let c := { tc1 with ram := [(0x100, 0x42), (0x1FFF, 1)] }
    (withC c).cart = some c ∧ c.ram.wf ∧ c.ram.below (c.ramSize base.config) := by decide +kernel
theorem witness_PpuRegisterWritesStore :
    (1 : Byte).toNat ≤ 1 ∧ 1 < (2 : Byte).toNat ∧ (0x9F : BitVec 32).toNat ≤ 0x9F ∧ 0x9F < (0xA0 : BitVec 32).toNat := by decide
theorem witness_WriteVramStoresAndInvalidates :
    0x1FFF < (0x2000 : BitVec 32).toNat ∧ (0x1FFF : BitVec 32).toNat ≤ 0x1FFF ∧ (0x17FF : BitVec 32).toNat ≤ 0x17FF := by
  decide
theorem witness_SetColorPaletteDecodesAndInvalidates :
    127 < (128 : BitVec 32).toNat ∧ base.ppu.colRaw[(127 : BitVec 32).toNat]? = some 0 ∧
      (127 : BitVec 32).toNat ≤ 127 ∧ base.ppu.colRaw[(127 : BitVec 32).toNat]? ≠ some 1 := by decide +kernel
theorem witness_SetMonoPaletteFillsItsSlot : 2 < (3 : BitVec 32).toNat ∧ (2 : BitVec 32).toNat ≤ 2 := by decide
theorem witness_PaletteTables :
    base.config.Valid ∧ base.ppu.ColourTableInv ∧ base.ppu.MonoTableInv base.config :=
  ⟨default_valid, by decide +kernel, by decide +kernel⟩

/-- A state with decoded tiles in its cache, as program D leaves it. -/
def cached : State :=
  let s := progC 0x80
  let e (k : CacheKey) : CacheKey × CacheEntry := (k, s.ppu.resolveTile false k)
  { s with ppu := { s.ppu with cache := [e { kind := .bg, n := 1, attr := 0 }, e { kind := .obj, n := 2, attr := 0x80 }] } }

theorem witness_coherent : cached.Coherent := by
  intro e he
  have hm : cached.colourMode = false := by decide
  rw [hm, resolveTile_congr cached.ppu (progC 0x80).ppu false e.1 rfl rfl rfl rfl]
  simp only [cached, List.mem_cons, List.not_mem_nil, or_false] at he
  rcases he with rfl | rfl <;> exact ⟨by decide, by dsimp only⟩
theorem witness_NotifyScanline :
    (143 : BitVec 32).toNat ≤ 143 ∧ 143 < (144 : BitVec 32).toNat ∧ (153 : BitVec 32).toNat ≤ 153 ∧
      base.ppu.lcdEnable = false ∧ ¬ ((143 : BitVec 32).toNat = 143 ∧ (progC 0).ppu.lcdEnable = false) := by decide +kernel
theorem witness_ComposedPixelHasItsClosedForm :
    cached.config.Valid ∧ cached.Coherent ∧ cached.ppu.ColourTableInv ∧ cached.ppu.MonoTableInv cached.config ∧
      ((143 : BitVec 32).toNat = 143 → cached.ppu.lcdEnable = true) :=
  ⟨default_valid, witness_coherent, by decide +kernel, by decide +kernel, fun _ => by decide +kernel⟩
/-- For SceneReadsItsBytesAndBits: a colour cartridge, none, and the last pixel of a tile. -/
theorem witness_SceneReadsItsBytesAndBits :
    (withC { tc1 with colour := true }).cart = some { tc1 with colour := true } ∧ base.cart = none ∧ 7 < 8 := by decide +kernel
/-- For NoiseRegisterWrites and ChannelHelpers: the ends of the draw's and the frequency's range. -/
theorem witness_helpers : 32766 < base.config.noiseTableLen ∧ 2048 ≤ base.config.sqBase ∧ 2047 ≤ 2047 := by decide
theorem witness_pace :
    (1 : Nat) + 1 < 3 ∧ 3 ≤ 2 + 1 ∧ base.pace.counter = 0 ∧ 1 ≤ base.pace.divisor ∧ (0 : BitVec 32).toInt ≤ 0 ∧
      0 < (1 : BitVec 32).toInt ∧ 0x7F < (0x80 : BitVec 32).toNat ∧ (0x7F : BitVec 32).toNat ≤ 0x7F := by decide
theorem witness_channels :
    ((0 : BitVec 32).toNat < 1 ∨ 4 < (0 : BitVec 32).toNat) ∧ ((5 : BitVec 32).toNat < 1 ∨ 4 < (5 : BitVec 32).toNat) ∧
      1 ≤ (4 : BitVec 32).toNat ∧ (4 : BitVec 32).toNat ≤ 4 ∧ (base.apu.ch1.voice.setCycle 7).Inv := by decide
/-- For the statements of rendering: the gate open and closed, sound off, a channel off, the channel invariants. -/
theorem witness_render :
    (0xFFFFFFFF : BitVec 32).toInt < 0 ∧ 0 ≤ (0 : BitVec 32).toInt ∧ base.pace.divisor ≤ base.pace.counter + 1 ∧
      (after (.setSoundEnabled false) base).apu.sndEnabled = false ∧
      (after (.setChannelEnable 1 false) base).apu.enabled 1 = false ∧ ta2.apu.Inv ta2.config ∧
      ta2.apu.sounds 1 ta2.apu.ch1.voice = true := by decide +kernel
/-- For the invariants kept: a state with each, and a step it takes. -/
theorem witness_invariants :
    ta2.config.Valid ∧ ta2.apu.Inv ta2.config ∧ base.pace.Inv ∧ base.ppu.ColourTableInv ∧
      base.ppu.MonoTableInv base.config ∧ tc1.Inv base.config ∧ cached.ppu.MemoryInv ∧
      tc1.MemoryInv base.config ∧ (∃ t, step (calling 0x1100000000000000) = .next t) :=
  ⟨default_valid, by decide +kernel, by decide, by decide +kernel, by decide +kernel, by decide +kernel, by decide +kernel,
    by decide +kernel, ⟨_, rfl⟩⟩
theorem witness_StoredPixelsStayOpaque : cached.config.Valid ∧ cached.FrameInv :=
  ⟨default_valid, by decide +kernel, by decide +kernel, witness_coherent, fun c hc => by simp [cached, progC, base, State.reset, State.resetOf, Ppu.reset] at hc⟩
theorem witness_EachPieceOfStateHasItsOwnWriters :
    (∃ t, exec .tick base = .next t) ∧ (∀ a d, Instr.tick ≠ .writeVram a d) := ⟨⟨_, rfl⟩, fun _ _ h => by cases h⟩
theorem witness_HaltStopsTheClockAndCarryIsSticky :
    (rtcOf 0 0 0 0 0xC0).halt = true ∧ (rtcOf 0 0 0 0 0xC0).carry = true ∧
      (withC { tc1 with rtc := rtcOf 0 0 0 0 0xC0 }).cart = some { tc1 with rtc := rtcOf 0 0 0 0 0xC0 } := by decide +kernel

end Sys2Proof.Tests
end

section
/-! How a call ends, said once for every constructor of `Instr`: refused without a cartridge, a fault that changes the result
alone, or a normal end that keeps the configuration and the two input ports (spec/00_scope.md R5 to R7,
60_exceptions.md R411 to R417). What a step can do follows from it. -/

namespace Sys2Proof.Machine

/-! ### The ways a call can end -/

/-- `t` is `s` after a normal end: the result is no fault, and what no call writes is as before. -/
structure Completes (s t : State) : Prop where
  noFault : ∀ f, t.result ≠ .fault f
  config : t.config = s.config
  pending : t.pending = s.pending
  inputs : t.inputs = s.inputs

/-- The ways call `i` can end from `s`, each with the condition under which it does. -/
inductive CallEnds (i : Instr) (s : State) : Out → Prop
  | noCartridge (needs : needsCart i = true) (cart : s.cart = none) : CallEnds i s (.refused .noCartridge)
  | invalidArgument (cart : needsCart i = true → s.cart ≠ none) (outside : OutOfDomain i s) :
      CallEnds i s (.next { s with result := .fault .invalidArgument })
  | invalidCartridge (load : i = .load) (size : byteAt s.inputs.bytes s.config.hdrRomSize ∉ romSizeBytes) :
      CallEnds i s (.next { s with result := .fault .invalidCartridge })
  | completes {t : State} (cart : needsCart i = true → s.cart ≠ none) (inside : ¬ OutOfDomain i s)
      (size : i = .load → byteAt s.inputs.bytes s.config.hdrRomSize ∈ romSizeBytes) (done : Completes s t) :
      CallEnds i s (.next t)

/-- The operand check in front of an operation (60_exceptions.md R411). -/
theorem CallEnds.of_check {i : Instr} {s : State} {out : Out} {bad : Prop} {_ : Decidable bad}
    (cart : needsCart i = true → s.cart ≠ none) (hbad : bad ↔ OutOfDomain i s)
    (h : ¬ OutOfDomain i s → CallEnds i s out) :
    CallEnds i s (if bad then raise .invalidArgument s else out) := by
  split
  · next hb => exact .invalidArgument cart (hbad.mp hb)
  · next hb => exact h (mt hbad.mpr hb)

/-- A cartridge operation ends as it does on the loaded cartridge (60_exceptions.md R412). -/
theorem CallEnds.of_withCart {i : Instr} {s : State} {k : Cartridge → Out} (needs : needsCart i = true)
    (h : ∀ c, s.cart = some c → CallEnds i s (k c)) : CallEnds i s (withCart s k) := by
  obtain ⟨hc, hk⟩ | ⟨c, hc, hk⟩ := withCart_cases s k
  · rw [hk]; exact .noCartridge needs hc
  · rw [hk]; exact h c hc

/-- The ROM size bytes without a bank count are those outside the eleven of 41_cartridge.md R151. -/
theorem romBanks_eq_none_iff (v : Byte) : romBanks v = none ↔ v ∉ romSizeBytes := by
  revert v; decide

/-- `load` checks the ROM size byte alone (60_exceptions.md R414). -/
theorem execLoad_ends (s : State) : CallEnds .load s (execLoad s) := by
  have hsize := romBanks_eq_none_iff (byteAt s.inputs.bytes s.config.hdrRomSize)
  unfold execLoad
  split
  · next h => exact .invalidCartridge rfl (hsize.mp h)
  · next n h =>
    refine .completes nofun (by simp [OutOfDomain, Instr.wellFormed, bankInRange]) (fun _ => ?_) ⟨nofun, rfl, rfl, rfl⟩
    exact Decidable.not_not.mp (mt hsize.mpr (by simp [h]))

/-- Every call ends in one of the four ways, and never in `Outcome.fault`. -/
theorem exec_ends (i : Instr) (s : State) : CallEnds i s (exec i s) := by
  cases i with
  | writeControlRegister d | tick | setSoundEnabled e
  | ioWriteR10 d | ioWriteR11 d | ioWriteR12 d | ioWriteR13 d | ioWriteR14 d | ioWriteR15 d | ioWriteR16 d | ioWriteR17 d
  | ioWriteR18 d | ioWriteR19 d | ioWriteR1A d | ioWriteR1B d | ioWriteR1C d | ioWriteR1D d | ioWriteR1E d | ioWriteR1F d
  | ioWriteR20 d | ioWriteR21 d | ioWriteR22 d | ioWriteR23 d | ioWriteR24 d | ioWriteR25 d =>
    exact .completes nofun (by simp [OutOfDomain, Instr.wellFormed, bankInRange]) nofun ⟨nofun, rfl, rfl, rfl⟩
  | endFrame =>
    refine .completes nofun (by simp [OutOfDomain, Instr.wellFormed, bankInRange]) nofun ⟨fun f => ?_, rfl, rfl, rfl⟩
    dsimp only
    split <;> nofun
  | writeVram a d | setVramBank b | setMonoPalette k d | writeOam a d | mirrorWrite r d =>
    exact .of_check nofun (by simp [OutOfDomain, Instr.wellFormed, bankInRange])
      fun inside => .completes nofun inside nofun ⟨nofun, rfl, rfl, rfl⟩
  | setSpeed n | setChannelEnable n e =>
    exact .of_check nofun (by grind [OutOfDomain, Instr.wellFormed, bankInRange])
      fun inside => .completes nofun inside nofun ⟨nofun, rfl, rfl, rfl⟩
  | setColorPalette k d | notifyScanline l =>
    refine .of_check nofun (by simp [OutOfDomain, Instr.wellFormed, bankInRange]) fun inside => ?_
    split <;> exact .completes nofun inside nofun ⟨nofun, rfl, rfl, rfl⟩
  | render n =>
    refine .of_check nofun (by simp [OutOfDomain, Instr.wellFormed, bankInRange]) fun inside => ?_
    dsimp only
    split <;> exact .completes nofun inside nofun ⟨nofun, rfl, rfl, rfl⟩
  | load => exact execLoad_ends s
  | hasBattery | tickRtc | skipRtc | dumpSave | loadSave =>
    exact .of_withCart rfl fun c hc => .completes (by simp [hc]) (by simp [OutOfDomain, Instr.wellFormed, bankInRange]) nofun
      ⟨nofun, rfl, rfl, rfl⟩
  | romRead b o | ramRead b o | ramWrite b o d | rtcRead k | rtcWrite k d =>
    exact .of_withCart rfl fun c hc =>
      .of_check (by simp [hc]) (by simp [OutOfDomain, hc, Instr.wellFormed, bankInRange, or_comm])
        fun inside => .completes (by simp [hc]) inside nofun ⟨nofun, rfl, rfl, rfl⟩

theorem exec_ne_fault (i : Instr) (s : State) (f : Fault) : exec i s ≠ .fault f := by
  intro h
  nomatch h ▸ exec_ends i s

/-- No call writes the configuration or the two input ports. -/
theorem exec_next_keeps {i : Instr} {s t : State} (h : exec i s = .next t) :
    t.config = s.config ∧ t.pending = s.pending ∧ t.inputs = s.inputs := by
  cases h ▸ exec_ends i s with
  | invalidArgument | invalidCartridge => exact ⟨rfl, rfl, rfl⟩
  | completes _ _ _ done => exact ⟨done.config, done.pending, done.inputs⟩

/-- A call with its cartridge, its operands and its ROM size byte in order ends normally. -/
theorem exec_completes {i : Instr} {s : State} (cart : needsCart i = true → s.cart ≠ none) (inside : ¬ OutOfDomain i s)
    (size : i = .load → byteAt s.inputs.bytes s.config.hdrRomSize ∈ romSizeBytes) :
    ∃ t, exec i s = .next t ∧ Completes s t := by
  have ends := exec_ends i s
  generalize exec i s = out at ends
  cases ends with
  | noCartridge needs none => exact absurd none (cart needs)
  | invalidArgument _ outside => exact absurd outside inside
  | invalidCartridge load bad => exact absurd (size load) bad
  | completes _ _ _ done => exact ⟨_, rfl, done⟩

/-! ### What a step can do -/

/-- A step is idle, or runs the call its word decodes to, or faults for `ioWrite` outside its range, or refuses the word. -/
theorem step_cases (s : State) :
    (s.pending = [] ∧ step s = .next s) ∨
    ∃ c rest, s.pending = c :: rest ∧
      ((∃ i, decode c.word = .instr i ∧ step s = exec i (s.latch c rest)) ∨
       (∃ r d, decode c.word = .ioWriteOutside r d ∧
          step s = .next { s.latch c rest with result := .fault .invalidArgument }) ∨
       ∃ why, decode c.word = .invalid why ∧ step s = .refused (refuseWord why)) := by
  cases hp : s.pending with
  | nil => exact .inl ⟨rfl, step_idle s hp⟩
  | cons c rest =>
    refine .inr ⟨c, rest, rfl, ?_⟩
    rw [step_call s c rest hp]
    cases decode c.word with
    | instr i => exact .inl ⟨i, rfl, rfl⟩
    | ioWriteOutside r d => exact .inr (.inl ⟨r, d, rfl, rfl⟩)
    | invalid why => exact .inr (.inr ⟨why, rfl, rfl⟩)

theorem step_keeps_config {s t : State} (h : step s = .next t) : t.config = s.config := by
  obtain ⟨-, hs⟩ | ⟨c, rest, -, ⟨i, -, hs⟩ | ⟨r, d, -, hs⟩ | ⟨why, -, hs⟩⟩ := step_cases s <;> rw [hs] at h
  · cases h; rfl
  · exact (exec_next_keeps h).1
  · cases h; rfl
  · nomatch h

/-- Settles O7: a step is idle, runs a call, faults through its result or refuses the word; no call stops the machine. -/
theorem noStepStopsTheMachineWithAFault : Obligations.NoStepStopsTheMachineWithAFault := by
  intro s f
  obtain ⟨-, hs⟩ | ⟨c, rest, -, ⟨i, -, hs⟩ | ⟨r, d, -, hs⟩ | ⟨why, -, hs⟩⟩ := step_cases s <;> rw [hs]
  · nofun
  · exact exec_ne_fault i _ f
  · nofun
  · nofun

/-- Only a call that needs a cartridge has a bank operand. -/
theorem needsCart_of_bank_outside {c : Cartridge} {i : Instr} (h : bankInRange c i = false) : needsCart i = true := by
  unfold bankInRange at h
  split at h
  · rfl
  · rfl
  · rfl
  · nomatch h

/-- A well-formed call whose bank operand, where it needs a cartridge, is below the bank count is in its domain. -/
theorem not_outOfDomain {i : Instr} {s : State} (hwf : i.wellFormed s.config = true)
    (hcart : needsCart i = true → ∃ c, s.cart = some c ∧ bankInRange c i = true) : ¬ OutOfDomain i s := by
  rintro (bad | ⟨c, hc, bad⟩)
  · simp [hwf] at bad
  · obtain ⟨c', hc', good⟩ := hcart (needsCart_of_bank_outside bad)
    obtain rfl : c = c' := Option.some.inj (hc.symm.trans hc')
    simp [good] at bad

/-- Settles O11: of the ways a call can end, the hypotheses leave the normal one. -/
theorem everyCallInItsDomainCompletes : Obligations.EveryCallInItsDomainCompletes := by
  intro i s hwf hcart hsize
  have cart (needs : needsCart i = true) : s.cart ≠ none := by
    obtain ⟨c, hc, -⟩ := hcart needs
    simp [hc]
  obtain ⟨t, ht, done⟩ := exec_completes cart (not_outOfDomain hwf hcart) hsize
  exact ⟨t, ht, done.noFault⟩

/-- Settles O6, clause by clause from the one equation a step has on each form of the queue. -/
theorem stepRunsTheDecodedCall : Obligations.StepRunsTheDecodedCall := by
  refine ⟨fun s c rest i hp hd => ?_, step_idle, fun s c rest why hp hd => ⟨refuseWord why, ?_⟩⟩
  · rw [step_call s c rest hp, hd]; rfl
  · rw [step_call s c rest hp, hd]; rfl

/-! ### The configuration (spec/00_scope.md R10) -/

/-- Opaque as a number: the top byte of the colour is 0xFF (00_scope.md R14). -/
theorem opaque_iff_toNat (c : Colour) : Opaque c ↔ c.toNat / 2 ^ 24 = 0xFF := by
  have h := c.isLt
  unfold Opaque
  rw [← BitVec.toNat_inj, BitVec.extractLsb'_toNat, Nat.shiftRight_eq_div_pow, Nat.mod_eq_of_lt (by omega)]
  rfl

theorem config_valid_iff (c : Config) : c.Valid ↔
    c.hdrRamSize < c.romBankSize ∧ 0 < c.noiseShortLen ∧ c.noiseShortLen < c.noiseTableLen ∧ 0 < c.sampleRate ∧
      0 < c.phaseOne ∧ 1 ≤ c.safeCycleLength ∧ c.monoShade 0 = 0xFFFFFFFF ∧
      ∀ i : Fin 4, (c.monoShade i).toNat / 2 ^ 24 = 0xFF := by
  simp only [← opaque_iff_toNat]
  constructor
  · rintro ⟨rom, short, table, rate, phase, safe, white, shades⟩
    exact ⟨rom, short, table, rate, phase, safe, white, shades⟩
  · rintro ⟨rom, short, table, rate, phase, safe, white, shades⟩
    exact ⟨rom, short, table, rate, phase, safe, white, shades⟩

theorem default_batteryTypes (b : Byte) : b ∈ Config.default.batteryTypes ↔
    b.toNat ∈ [0x03, 0x06, 0x09, 0x0D, 0x0F, 0x10, 0x13, 0x1B, 0x1E, 0x22, 0xFF] := by
  simp [Config.default, ← BitVec.toNat_inj]

/-- Settles O57: no step changes the configuration, the defaults are read off, and the constraints are those of R10. -/
theorem configurationHasItsDefaultsAndStaysFixed : Obligations.ConfigurationHasItsDefaultsAndStaysFixed := by
  refine ⟨fun s t => step_keeps_config, ?_, config_valid_iff⟩
  have hvalid : Config.default.Valid := (config_valid_iff _).mpr (by decide)
  exact ⟨rfl, rfl, rfl, rfl, rfl, rfl, rfl, rfl, default_batteryTypes, rfl, rfl, rfl, rfl,
    rfl, rfl, rfl, rfl, rfl, rfl, rfl, rfl, rfl, hvalid⟩

end Sys2Proof.Machine
end

section
/-! What a step can write, said once: for each part of the state the list of its writers (spec/41_cartridge.md R152 to R176,
42_ppu_access.md R202 to R207, 43_ppu_scanline.md R251, 44_apu_registers.md R303 to R329, 45_apu_render.md R352,
46_pacing_gate.md R401, R402), and that every step stays within the four lists. An invariant of a part is then a case analysis
of its writers. -/

namespace Sys2Proof.Machine

/-! ### The writers of each part -/

/-- The register writes of a square channel (44_apu_registers.md R304 to R307, R309 to R312). -/
inductive SquareWrites (cfg : Config) (c : Square) : Square → Prop
  | dutyLength (d : Byte) : SquareWrites cfg c (c.putDutyLength d)
  | envelope (d : Byte) : SquareWrites cfg c (c.putEnvelope d)
  | freq (high low : Byte) : SquareWrites cfg c (c.putFreq cfg (freqValue high low))
  | control (d dutyLength envelope low : Byte) : SquareWrites cfg c (c.putControl cfg d dutyLength envelope low)

/-- The register writes of the wave channel (44_apu_registers.md R314 to R318). -/
inductive WaveWrites (cfg : Config) (c : Wave) : Wave → Prop
  | dac (d : Byte) : WaveWrites cfg c { c with dacOn := Byte.bit d 7 }
  | length (d : Byte) : WaveWrites cfg c { c with voice := c.voice.loadLength256 d }
  | volume (d : Byte) : WaveWrites cfg c { c with volCode := Byte.bits d 6 5 }
  | freq (high low : Byte) : WaveWrites cfg c (c.putFreq cfg (freqValue high low))
  | control (d length low : Byte) : WaveWrites cfg c (c.putControl cfg d length low)

/-- The register writes of the noise channel; the draw is below `NOISE_TABLE_LEN` (44_apu_registers.md R321 to R325). -/
inductive NoiseWrites (cfg : Config) (c : Noise) : Noise → Prop
  | length (d : Byte) : NoiseWrites cfg c { c with voice := c.voice.loadLength64 d }
  | envelope (d : Byte) : NoiseWrites cfg c { c with env := envelopeSet d }
  | polynomial (d : Byte) (draw : Nat) : NoiseWrites cfg c ((c.noiseSet cfg d).noiseRestart (draw % cfg.noiseTableLen))
  | control (d length envelope : Byte) (draw : Nat) :
      NoiseWrites cfg c (c.putControl d length envelope (draw % cfg.noiseTableLen))

/-- The writes of the APU. -/
inductive ApuWrites (cfg : Config) (a : Apu) : Apu → Prop
  | same : ApuWrites cfg a a
  | enables (snd : Bool) (ch : Vector Bool 4) : ApuWrites cfg a { a with sndEnabled := snd, chEnabled := ch }
  | sweep (d : Byte) : ApuWrites cfg a { a with
      sweep := { period := sweepPeriod (Byte.bits d 6 4), down := Byte.bit d 3, shift := Byte.bits d 2 0, ctr := 0 } }
  | ch1 {c : Square} (h : SquareWrites cfg a.ch1 c) : ApuWrites cfg a { a with ch1 := c }
  | ch2 {c : Square} (h : SquareWrites cfg a.ch2 c) : ApuWrites cfg a { a with ch2 := c }
  | ch3 {c : Wave} (h : WaveWrites cfg a.ch3 c) : ApuWrites cfg a { a with ch3 := c }
  | ch4 {c : Noise} (h : NoiseWrites cfg a.ch4 c) : ApuWrites cfg a { a with ch4 := c }
  | routes (d : Byte) : ApuWrites cfg a { a with
      ch1 := { a.ch1 with voice := a.ch1.voice.putRoute cfg d 1 }
      ch2 := { a.ch2 with voice := a.ch2.voice.putRoute cfg d 2 }
      ch3 := { a.ch3 with voice := a.ch3.voice.putRoute cfg d 3 }
      ch4 := { a.ch4 with voice := a.ch4.voice.putRoute cfg d 4 } }
  | render (table : Nat → Byte) (count : Nat) : ApuWrites cfg a (a.tick cfg table count).1

/-- The writes of the PPU, with the colour mode after them: only `load` may change it, and it empties the cache. -/
inductive PpuWrites (cfg : Config) (p : Ppu) (colour : Bool) : Ppu → Bool → Prop
  | same : PpuWrites cfg p colour p colour
  | control (d : Byte) : PpuWrites cfg p colour { p with lcdc := d } colour
  | vram (a : Nat) (d : Byte) (ha : a ≤ 0x1FFF) :
      PpuWrites cfg p colour
        ({ p with cache := p.cache.invalidate (vramWriteStales p.vramBank a) }.vramWrite a d) colour
  | bank (b : BitVec 1) : PpuWrites cfg p colour { p with vramBank := b } colour
  | colourPalette (i : Nat) (d : Byte) (hi : i ≤ 127) : PpuWrites cfg p colour (p.putColour i d) colour
  | monoPalette (k : Nat) (d : Byte) (hk : k ≤ 2) : PpuWrites cfg p colour (p.putMono cfg k d) colour
  | oam (a : Nat) (d : Byte) (ha : a ≤ 0x9F) : PpuWrites cfg p colour (p.oamWrite a d) colour
  | line (v : Scene) (ppu : v.ppu = p) (mode : v.colour = colour) (ly : v.ly ≤ 143) : PpuWrites cfg p colour v.result colour
  | load (mode : Bool) : PpuWrites cfg p colour { p with cache := [] } mode

/-- The writes of the cartridge slot. -/
inductive CartWrites (cfg : Config) : Option Cartridge → Option Cartridge → Prop
  | same (slot : Option Cartridge) : CartWrites cfg slot slot
  | load (slot : Option Cartridge) (image : List Byte) (nrom : Nat) (banks : romBanks (byteAt image cfg.hdrRomSize) = some nrom) :
      CartWrites cfg slot (some (Cartridge.ofImage cfg nrom image))
  | ram (c : Cartridge) (b o : Nat) (d : Byte) (hb : b < c.nram) (ho : o < cfg.ramBankSize) :
      CartWrites cfg (some c) (some (c.putRam cfg b o d))
  | clock (c : Cartridge) (rtc : Rtc) (last : Option (BitVec 64)) :
      CartWrites cfg (some c) (some { c with rtc := rtc, rtcLast := last })
  | save (c : Cartridge) (image : List Byte) (now : BitVec 64) : CartWrites cfg (some c) (some (c.loadSave cfg image now))

/-- The writes of the pacing gate. -/
inductive PaceWrites (p : Pace) : Pace → Prop
  | same : PaceWrites p p
  | tick : PaceWrites p p.tick.2
  | speed (n : Nat) (hn : 1 ≤ n) : PaceWrites p { counter := 0, divisor := n }

/-- What is answered from `s`: a refusal, or a next state that differs from `s` within the four lists. -/
inductive CallWrites (s : State) : Out → Prop
  | refused (r : Refusal) : CallWrites s (.refused r)
  | next {t : State} (ppu : PpuWrites s.config s.ppu s.colourMode t.ppu t.colourMode)
      (apu : ApuWrites s.config s.apu t.apu) (cart : CartWrites s.config s.cart t.cart) (pace : PaceWrites s.pace t.pace) :
      CallWrites s (.next t)

/-! ### Every call and every step stays within them -/

theorem CallWrites.of_check {s : State} {out : Out} {bad : Prop} {_ : Decidable bad} (h : ¬ bad → CallWrites s out) :
    CallWrites s (if bad then raise .invalidArgument s else out) := by
  split
  · exact .next .same .same (.same _) .same
  · next good => exact h good

theorem CallWrites.of_withCart {s : State} {k : Cartridge → Out} (h : ∀ c, s.cart = some c → CallWrites s (k c)) :
    CallWrites s (withCart s k) := by
  obtain ⟨-, hk⟩ | ⟨c, hc, hk⟩ := withCart_cases s k
  · rw [hk]; exact .refused _
  · rw [hk]; exact h c hc

/-- A call that stores a cartridge record of the same colour flag writes the cartridge slot alone. -/
theorem CallWrites.of_finishCart {s : State} {c c' : Cartridge} (hc : s.cart = some c) (colour : c'.colour = c.colour)
    (h : CartWrites s.config (some c) (some c')) : CallWrites s (finishCart c' s) := by
  have hmode : s.colourMode = c'.colour := by simp [State.colourMode, hc, colour]
  refine .next ?_ .same (hc ▸ h) .same
  rw [hmode]
  exact .same

theorem tickRtc_eq (c : Cartridge) (now : BitVec 64) : ∃ rtc last, c.tickRtc now = { c with rtc := rtc, rtcLast := last } := by
  obtain ⟨-, h⟩ | ⟨t0, -, -, h⟩ | ⟨t0, -, -, -, h⟩ | ⟨t0, -, -, -, h⟩ := tickRtc_cases c now <;> exact ⟨_, _, h⟩

theorem loadSave_colour (cfg : Config) (c : Cartridge) (l : List Byte) (now : BitVec 64) :
    (c.loadSave cfg l now).colour = c.colour := by
  unfold Cartridge.loadSave
  dsimp only
  split <;> rfl

theorem execLoad_writes (s : State) : CallWrites s (execLoad s) := by
  unfold execLoad
  split
  · exact .next .same .same (.same _) .same
  · next nrom banks => exact .next (.load _) .same (.load _ _ _ banks) .same

/-- Every call writes within the four lists. -/
theorem exec_writes (i : Instr) (s : State) : CallWrites s (exec i s) := by
  cases i with
  -- the PPU (42_ppu_access.md, 43_ppu_scanline.md)
  | writeControlRegister d => exact .next (.control d) .same (.same _) .same
  | writeVram a d => exact .of_check fun h => .next (.vram _ d (Nat.le_of_not_lt h)) .same (.same _) .same
  | setVramBank b => exact .of_check fun _ => .next (.bank _) .same (.same _) .same
  | setColorPalette i d =>
    refine .of_check fun h => ?_
    split
    · exact .next .same .same (.same _) .same
    · exact .next (.colourPalette _ d (Nat.le_of_not_lt h)) .same (.same _) .same
  | setMonoPalette k d => exact .of_check fun h => .next (.monoPalette _ d (Nat.le_of_not_lt h)) .same (.same _) .same
  | writeOam a d => exact .of_check fun h => .next (.oam _ d (Nat.le_of_not_lt h)) .same (.same _) .same
  | notifyScanline l =>
    refine .of_check fun _ => ?_
    split
    · exact .next .same .same (.same _) .same
    · next h => exact .next (.line (Scene.of s l.toNat) rfl rfl (Nat.le_of_not_lt h)) .same (.same _) .same
  -- the pacing gate (46_pacing_gate.md) and what it gates
  | endFrame | tick => exact .next .same .same (.same _) .tick
  | setSpeed n => exact .of_check fun h => .next .same .same (.same _) (.speed _ (by omega))
  | render n =>
    refine .of_check fun _ => ?_
    dsimp only
    split
    · exact .next .same (.render _ _) (.same _) .tick
    · exact .next .same .same (.same _) .tick
  -- the APU's registers and enables (44_apu_registers.md)
  | ioWriteR10 d => exact .next .same (.sweep d) (.same _) .same
  | ioWriteR11 d => exact .next .same (.ch1 (.dutyLength d)) (.same _) .same
  | ioWriteR12 d => exact .next .same (.ch1 (.envelope d)) (.same _) .same
  | ioWriteR13 d => exact .next .same (.ch1 (.freq _ d)) (.same _) .same
  | ioWriteR14 d => exact .next .same (.ch1 (.control d _ _ _)) (.same _) .same
  | ioWriteR16 d => exact .next .same (.ch2 (.dutyLength d)) (.same _) .same
  | ioWriteR17 d => exact .next .same (.ch2 (.envelope d)) (.same _) .same
  | ioWriteR18 d => exact .next .same (.ch2 (.freq _ d)) (.same _) .same
  | ioWriteR19 d => exact .next .same (.ch2 (.control d _ _ _)) (.same _) .same
  | ioWriteR1A d => exact .next .same (.ch3 (.dac d)) (.same _) .same
  | ioWriteR1B d => exact .next .same (.ch3 (.length d)) (.same _) .same
  | ioWriteR1C d => exact .next .same (.ch3 (.volume d)) (.same _) .same
  | ioWriteR1D d => exact .next .same (.ch3 (.freq _ d)) (.same _) .same
  | ioWriteR1E d => exact .next .same (.ch3 (.control d _ _)) (.same _) .same
  | ioWriteR20 d => exact .next .same (.ch4 (.length d)) (.same _) .same
  | ioWriteR21 d => exact .next .same (.ch4 (.envelope d)) (.same _) .same
  | ioWriteR22 d => exact .next .same (.ch4 (.polynomial d _)) (.same _) .same
  | ioWriteR23 d => exact .next .same (.ch4 (.control d _ _ _)) (.same _) .same
  | ioWriteR25 d => exact .next .same (.routes d) (.same _) .same
  | ioWriteR15 d | ioWriteR1F d | ioWriteR24 d => exact .next .same .same (.same _) .same
  | mirrorWrite r d => exact .of_check fun _ => .next .same .same (.same _) .same
  | setChannelEnable n e => exact .of_check fun _ => .next .same (.enables _ _) (.same _) .same
  | setSoundEnabled e => exact .next .same (.enables e _) (.same _) .same
  -- the cartridge (41_cartridge.md)
  | load => exact execLoad_writes s
  | hasBattery | dumpSave => exact .of_withCart fun _ _ => .next .same .same (.same _) .same
  | romRead b o | ramRead b o | rtcRead k =>
    exact .of_withCart fun _ _ => .of_check fun _ => .next .same .same (.same _) .same
  | ramWrite b o d =>
    refine .of_withCart fun c hc => .of_check fun inside => ?_
    exact .of_finishCart hc rfl (.ram c _ _ d (by omega) (by omega))
  | rtcWrite k d => exact .of_withCart fun c hc => .of_check fun _ => .of_finishCart hc rfl (.clock c _ _)
  | tickRtc =>
    refine .of_withCart fun c hc => ?_
    obtain ⟨rtc, last, h⟩ := tickRtc_eq c s.inputs.now
    rw [h]
    exact .of_finishCart hc rfl (.clock c _ _)
  | skipRtc => exact .of_withCart fun c hc => .of_finishCart hc rfl (.clock c _ _)
  | loadSave => exact .of_withCart fun c hc => .of_finishCart hc (loadSave_colour ..) (.save c _ _)

/-- Taking a call off the queue writes none of the four parts. -/
theorem CallWrites.of_latch {s : State} {c : Call} {rest : List Call} {out : Out} (h : CallWrites (s.latch c rest) out) :
    CallWrites s out := by
  cases h with
  | refused r => exact .refused r
  | next ppu apu cart pace => exact .next ppu apu cart pace

/-- Every step writes within the four lists. -/
theorem step_writes (s : State) : CallWrites s (step s) := by
  obtain ⟨-, hs⟩ | ⟨c, rest, -, ⟨i, -, hs⟩ | ⟨r, d, -, hs⟩ | ⟨why, -, hs⟩⟩ := step_cases s <;> rw [hs]
  · exact .next .same .same (.same _) .same
  · exact .of_latch (exec_writes i _)
  · exact .next .same .same (.same _) .same
  · exact .refused _

theorem step_next_writes {s t : State} (h : step s = .next t) :
    PpuWrites s.config s.ppu s.colourMode t.ppu t.colourMode ∧ ApuWrites s.config s.apu t.apu ∧
      CartWrites s.config s.cart t.cart ∧ PaceWrites s.pace t.pace := by
  cases h ▸ step_writes s with
  | next ppu apu cart pace => exact ⟨ppu, apu, cart, pace⟩

end Sys2Proof.Machine
end

section
/-! The channel invariants (spec/10_state.md R36 to R42): each write of a channel keeps its ranges, hence a tick does and every
step does. -/

namespace Sys2Proof.Machine

/-! ### Register values in range -/

theorem duty_mem (code : Nat) : duty code = 1 ∨ duty code = 2 ∨ duty code = 4 ∨ duty code = 6 := by
  unfold duty
  split <;> simp

theorem bits_lt (v hi lo : Nat) : bits v hi lo < 2 ^ (hi + 1 - lo) := Nat.mod_lt _ (by positivity)

theorem sweepNext_le (w : Sweep) (freq : Nat) (h : freq ≤ 2048) : w.next freq ≤ 2048 := by
  unfold Sweep.next
  split
  · exact (Nat.sub_le _ _).trans h
  · exact min_le_right _ _

/-! ### What a voice keeps -/

theorem Voice.applyLengthEnable_inv {v : Voice} (h : v.Inv) (d : Byte) : (v.applyLengthEnable d).Inv := by
  unfold Voice.applyLengthEnable
  split <;> exact h

@[simp] theorem Voice.applyLengthEnable_cycleLen (v : Voice) (d : Byte) : (v.applyLengthEnable d).cycleLen = v.cycleLen := by
  unfold Voice.applyLengthEnable
  split <;> rfl

theorem lengthTick_inv {v w : Voice} (hv : v.Inv) (h : v.lengthTick = some w) : w.Inv := by
  obtain ⟨hphase, hlen, -⟩ := lengthTick_some v w h
  simpa [Voice.Inv, hphase, hlen] using hv

theorem sampleLoop_inv {v : Voice} (cfg : Config) (f : Nat → Int) (buf : List LaneFrame) (h : v.Inv) :
    (sampleLoop cfg f v buf).1.Inv := by
  rw [sampleLoop_voice]
  exact ⟨h.1, phaseAt_lt cfg v h _⟩

@[simp] theorem sampleLoop_cycleLen (cfg : Config) (f : Nat → Int) (v : Voice) (buf : List LaneFrame) :
    (sampleLoop cfg f v buf).1.cycleLen = v.cycleLen := by
  rw [sampleLoop_voice]

/-! ### Square channels -/

theorem Square.putFreq_inv {cfg : Config} (hv : cfg.Valid) {c : Square} (h : c.Inv) {x : Nat} (hx : x ≤ 2048) :
    (c.putFreq cfg x).Inv := by
  obtain ⟨-, henv, -, hduty⟩ := h
  exact ⟨setCycle_inv _ _ (cycleLen_pos cfg hv _ _), henv, hx, hduty⟩

theorem Square.applyLengthEnable_inv {c : Square} (h : c.Inv) (d : Byte) :
    Square.Inv { c with voice := c.voice.applyLengthEnable d } := by
  obtain ⟨hvoice, hrest⟩ := h
  exact ⟨Voice.applyLengthEnable_inv hvoice d, hrest⟩

theorem SquareWrites.keeps_inv {cfg : Config} (hv : cfg.Valid) {c c' : Square} (w : SquareWrites cfg c c') (h : c.Inv) :
    c'.Inv := by
  have freq_le (high low : Byte) : freqValue high low ≤ 2048 := (freqValue_le high low).trans (by decide)
  obtain ⟨hvoice, henv, hfreq, hduty⟩ := h
  cases w with
  | dutyLength d => exact ⟨hvoice, henv, hfreq, duty_mem _⟩
  | envelope d => exact ⟨hvoice, envelopeSet_inv d, hfreq, hduty⟩
  | freq high low => exact Square.putFreq_inv hv ⟨hvoice, henv, hfreq, hduty⟩ (freq_le high low)
  | control d dutyLength envelope low =>
    have restarted : Square.Inv (if Byte.bit d 7 then
        { c with voice := c.voice.loadLength64 dutyLength, env := envelopeSet envelope } else c) := by
      split
      · exact ⟨hvoice, envelopeSet_inv envelope, hfreq, hduty⟩
      · exact ⟨hvoice, henv, hfreq, hduty⟩
    have enabled := Square.applyLengthEnable_inv restarted d
    exact Square.putFreq_inv hv enabled (freq_le d low)

theorem Square.loop_inv {cfg : Config} {c : Square} (buf : List LaneFrame) (h : c.Inv) : (c.loop cfg buf).1.Inv := by
  obtain ⟨hvoice, hrest⟩ := h
  exact ⟨sampleLoop_inv cfg _ buf hvoice, hrest⟩

/-- A sweep step keeps the sweep's period and shift, and the channel in range (45_apu_render.md R356). -/
theorem sweepTick_inv {cfg : Config} (hv : cfg.Valid) (w : Sweep) {c : Square} (h : c.Inv) :
    (sweepTick cfg w c).1.period = w.period ∧ (sweepTick cfg w c).1.shift = w.shift ∧ (sweepTick cfg w c).2.Inv := by
  have ⟨_, _, hfreq, _⟩ := h
  unfold sweepTick
  split
  · exact ⟨rfl, rfl, h⟩
  · split
    · exact ⟨rfl, rfl, Square.putFreq_inv hv h (sweepNext_le w _ hfreq)⟩
    · exact ⟨rfl, rfl, h⟩

theorem chRender1_inv {cfg : Config} (hv : cfg.Valid) (w : Sweep) {c : Square} (buf : List LaneFrame) (h : c.Inv) :
    (chRender1 cfg w c buf).1.period = w.period ∧ (chRender1 cfg w c buf).1.shift = w.shift ∧
      (chRender1 cfg w c buf).2.1.Inv := by
  unfold chRender1
  split
  · exact ⟨rfl, rfl, h⟩
  · next v hl =>
    obtain ⟨hvoice, hrest⟩ := h
    obtain ⟨hperiod, hshift, hsvoice, hsenv, hsrest⟩ := sweepTick_inv hv w (c := { c with voice := v })
      ⟨lengthTick_inv hvoice hl, hrest⟩
    exact ⟨hperiod, hshift, Square.loop_inv buf ⟨hsvoice, envelopeTick_inv _ hsenv, hsrest⟩⟩

theorem chRender2_inv (cfg : Config) {c : Square} (buf : List LaneFrame) (h : c.Inv) : (chRender2 cfg c buf).1.Inv := by
  unfold chRender2
  split
  · exact h
  · next v hl =>
    obtain ⟨hvoice, henv, hrest⟩ := h
    exact Square.loop_inv buf ⟨lengthTick_inv hvoice hl, envelopeTick_inv _ henv, hrest⟩

/-! ### The wave channel -/

theorem Wave.putFreq_inv {cfg : Config} (hv : cfg.Valid) {c : Wave} (h : c.Inv) {x : Nat} (hx : x ≤ 2047) :
    (c.putFreq cfg x).Inv := by
  obtain ⟨-, -, hvol⟩ := h
  exact ⟨setCycle_inv _ _ (cycleLen_pos cfg hv _ _), hx, hvol⟩

theorem Wave.applyLengthEnable_inv {c : Wave} (h : c.Inv) (d : Byte) :
    Wave.Inv { c with voice := c.voice.applyLengthEnable d } := by
  obtain ⟨hvoice, hrest⟩ := h
  exact ⟨Voice.applyLengthEnable_inv hvoice d, hrest⟩

theorem WaveWrites.keeps_inv {cfg : Config} (hv : cfg.Valid) {c c' : Wave} (w : WaveWrites cfg c c') (h : c.Inv) :
    c'.Inv := by
  obtain ⟨hvoice, hfreq, hvol⟩ := h
  cases w with
  | dac d | length d => exact ⟨hvoice, hfreq, hvol⟩
  | volume d => exact ⟨hvoice, hfreq, Nat.le_of_lt_succ (bits_lt d.toNat 6 5)⟩
  | freq high low => exact Wave.putFreq_inv hv ⟨hvoice, hfreq, hvol⟩ (freqValue_le high low)
  | control d length low =>
    have restarted : Wave.Inv (if Byte.bit d 7 then { c with voice := c.voice.loadLength256 length } else c) := by
      split <;> exact ⟨hvoice, hfreq, hvol⟩
    have enabled := Wave.applyLengthEnable_inv restarted d
    exact Wave.putFreq_inv hv enabled (freqValue_le d low)

theorem chRender3_inv (cfg : Config) (table : Nat → Byte) {c : Wave} (buf : List LaneFrame) (h : c.Inv) :
    (chRender3 cfg table c buf).1.Inv := by
  unfold chRender3
  split
  · exact h
  · next v hl =>
    obtain ⟨hvoice, hrest⟩ := h
    exact ⟨sampleLoop_inv cfg _ buf (lengthTick_inv hvoice hl), hrest⟩

/-! ### The noise channel -/

/-- A new polynomial sets the cycle to a whole number of steps (44_apu_registers.md R320, 10_state.md R40). -/
theorem Noise.noiseSet_inv {cfg : Config} (hv : cfg.Valid) {c : Noise} (h : c.Inv cfg) (d : Byte) :
    (c.noiseSet cfg d).Inv cfg := by
  obtain ⟨-, henv, -, -, hoffset⟩ := h
  have hlen := rateToLength_pos cfg hv (noiseFreq cfg (Byte.bits d 2 0) (Byte.bits d 7 4))
  exact ⟨setCycle_inv _ _ (Nat.mul_pos hlen (noiseEntries_pos cfg hv _)), henv, hlen, rfl, hoffset⟩

theorem Noise.noiseRestart_inv {cfg : Config} {c : Noise} (h : c.Inv cfg) {draw : Nat} (hd : draw < cfg.noiseTableLen) :
    (c.noiseRestart draw).Inv cfg := by
  obtain ⟨hvoice, henv, hstep, hcycle, hoffset⟩ := h
  refine ⟨hvoice, henv, hstep, hcycle, ?_⟩
  simp only [Noise.noiseRestart]
  split <;> omega

theorem Noise.applyLengthEnable_inv {cfg : Config} {c : Noise} (h : c.Inv cfg) (d : Byte) :
    Noise.Inv cfg { c with voice := c.voice.applyLengthEnable d } := by
  obtain ⟨hvoice, henv, hstep, hcycle, hoffset⟩ := h
  exact ⟨Voice.applyLengthEnable_inv hvoice d, henv, hstep, by simpa using hcycle, hoffset⟩

theorem Noise.putControl_inv {cfg : Config} {c : Noise} (h : c.Inv cfg) (d length envelope : Byte) {draw : Nat}
    (hd : draw < cfg.noiseTableLen) : (c.putControl d length envelope draw).Inv cfg := by
  refine Noise.applyLengthEnable_inv ?_ d
  split
  · obtain ⟨hvoice, -, hrest⟩ := h
    exact Noise.noiseRestart_inv
      (c := { c with voice := c.voice.loadLength64 length, env := envelopeSet envelope })
      ⟨hvoice, envelopeSet_inv envelope, hrest⟩ hd
  · exact h

theorem NoiseWrites.keeps_inv {cfg : Config} (hv : cfg.Valid) {c c' : Noise} (w : NoiseWrites cfg c c') (h : c.Inv cfg) :
    c'.Inv cfg := by
  have draw_lt (draw : Nat) : draw % cfg.noiseTableLen < cfg.noiseTableLen :=
    Nat.mod_lt _ (hv.noiseShort.trans hv.noiseTable)
  cases w with
  | length d => exact h
  | envelope d =>
    obtain ⟨hvoice, -, hrest⟩ := h
    exact ⟨hvoice, envelopeSet_inv d, hrest⟩
  | polynomial d draw => exact Noise.noiseRestart_inv (Noise.noiseSet_inv hv h d) (draw_lt draw)
  | control d length envelope draw => exact Noise.putControl_inv h d length envelope (draw_lt draw)

theorem chRender4_inv (cfg : Config) {c : Noise} (buf : List LaneFrame) (h : c.Inv cfg) :
    (chRender4 cfg c buf).1.Inv cfg := by
  unfold chRender4
  split
  · exact h
  · next v hl =>
    obtain ⟨hvoice, henv, hstep, hcycle, hoffset⟩ := h
    obtain ⟨-, hlen, -⟩ := lengthTick_some c.voice v hl
    exact ⟨sampleLoop_inv cfg _ buf (lengthTick_inv hvoice hl), envelopeTick_inv _ henv, hstep,
      by simpa [hlen] using hcycle, hoffset⟩

/-! ### The APU -/

section Tick
variable {cfg : Config} {t : Apu × List LaneFrame}

theorem Apu.step1_inv (hv : cfg.Valid) (h : t.1.Inv cfg) : (Apu.step1 cfg t).1.Inv cfg := by
  unfold Apu.step1
  split
  · obtain ⟨h1, hperiod, hshift, hrest⟩ := h
    obtain ⟨hp, hs, hc⟩ := chRender1_inv hv t.1.sweep t.2 h1
    exact ⟨hc, hp.trans_le hperiod, hs.trans_le hshift, hrest⟩
  · exact h

theorem Apu.step2_inv (h : t.1.Inv cfg) : (Apu.step2 cfg t).1.Inv cfg := by
  unfold Apu.step2
  split
  · obtain ⟨h1, hperiod, hshift, h2, hrest⟩ := h
    exact ⟨h1, hperiod, hshift, chRender2_inv cfg t.2 h2, hrest⟩
  · exact h

theorem Apu.step3_inv (table : Nat → Byte) (h : t.1.Inv cfg) : (Apu.step3 cfg table t).1.Inv cfg := by
  unfold Apu.step3
  split
  · obtain ⟨h1, hperiod, hshift, h2, h3, h4⟩ := h
    exact ⟨h1, hperiod, hshift, h2, chRender3_inv cfg table t.2 h3, h4⟩
  · exact h

theorem Apu.step4_inv (h : t.1.Inv cfg) : (Apu.step4 cfg t).1.Inv cfg := by
  unfold Apu.step4
  split
  · obtain ⟨h1, hperiod, hshift, h2, h3, h4⟩ := h
    exact ⟨h1, hperiod, hshift, h2, h3, chRender4_inv cfg t.2 h4⟩
  · exact h

end Tick

theorem Apu.tick_inv {cfg : Config} (hv : cfg.Valid) {a : Apu} (table : Nat → Byte) (count : Nat) (h : a.Inv cfg) :
    (a.tick cfg table count).1.Inv cfg := by
  unfold Apu.tick
  dsimp only
  split
  · exact Apu.step4_inv (Apu.step3_inv table (Apu.step2_inv (Apu.step1_inv hv h)))
  · exact h

theorem ApuWrites.keeps_inv {cfg : Config} (hv : cfg.Valid) {a a' : Apu} (w : ApuWrites cfg a a') (h : a.Inv cfg) :
    a'.Inv cfg := by
  obtain ⟨h1, hperiod, hshift, h2, h3, h4⟩ := h
  cases w with
  | same | enables snd ch | routes d => exact ⟨h1, hperiod, hshift, h2, h3, h4⟩
  | sweep d =>
    have htime : Byte.bits d 6 4 < 8 := bits_lt d.toNat 6 4
    have hshift : Byte.bits d 2 0 < 8 := bits_lt d.toNat 2 0
    exact ⟨h1, by simp only [sweepPeriod]; omega, Nat.le_of_lt_succ hshift, h2, h3, h4⟩
  | ch1 w => exact ⟨w.keeps_inv hv h1, hperiod, hshift, h2, h3, h4⟩
  | ch2 w => exact ⟨h1, hperiod, hshift, w.keeps_inv hv h2, h3, h4⟩
  | ch3 w => exact ⟨h1, hperiod, hshift, h2, w.keeps_inv hv h3, h4⟩
  | ch4 w => exact ⟨h1, hperiod, hshift, h2, h3, w.keeps_inv hv h4⟩
  | render table count => exact Apu.tick_inv hv table count ⟨h1, hperiod, hshift, h2, h3, h4⟩

/-- Settles O50: a step writes the APU within its list, and every write of the list keeps the channels in range. -/
theorem channelInvariantsKept : Obligations.ChannelInvariantsKept := by
  intro s t hv h hstep
  obtain ⟨-, hapu, -, -⟩ := step_next_writes hstep
  rw [step_keeps_config hstep]
  exact hapu.keeps_inv hv h

end Sys2Proof.Machine
end

section
/-! The invariants of the pacing gate and of the cartridge (spec/10_state.md R44, R45, R48). -/

namespace Sys2Proof.Machine

theorem PaceWrites.keeps_inv {p p' : Pace} (w : PaceWrites p p') (h : p.Inv) : p'.Inv := by
  obtain ⟨hdivisor, hcounter⟩ := h
  cases w with
  | same => exact ⟨hdivisor, hcounter⟩
  | tick =>
    unfold Pace.tick
    split
    · exact ⟨hdivisor, hdivisor⟩
    · exact ⟨hdivisor, by simp only; omega⟩
  | speed n hn => exact ⟨hn, hn⟩

/-- Settles O51: only `setSpeed` and the tick of the gate write it, and both keep the counter below the divisor. -/
theorem pacingInvariantKept : Obligations.PacingInvariantKept := by
  intro s t h hstep
  obtain ⟨-, -, -, hpace⟩ := step_next_writes hstep
  exact hpace.keeps_inv h

theorem romBanks_mem {v : Byte} {n : Nat} (h : romBanks v = some n) :
    n ∈ [2, 4, 8, 16, 32, 64, 128, 256, 72, 80, 96] := by
  have key : ∀ v : Byte, ∀ n ∈ romBanks v, n ∈ [2, 4, 8, 16, 32, 64, 128, 256, 72, 80, 96] := by decide
  exact key v n h

theorem ramBanks_mem (v : Byte) : ramBanks v ∈ [1, 4, 16] := by
  unfold ramBanks
  split_ifs <;> simp

/-- A loaded cartridge has the bank counts of the lists and its battery flag (41_cartridge.md R151 to R154). -/
theorem ofImage_inv {cfg : Config} {image : List Byte} {nrom : Nat} (h : romBanks (byteAt image cfg.hdrRomSize) = some nrom) :
    (Cartridge.ofImage cfg nrom image).Inv cfg :=
  ⟨romBanks_mem h, ramBanks_mem _, rfl⟩

theorem loadSave_inv {cfg : Config} {c : Cartridge} (l : List Byte) (now : BitVec 64) (h : c.Inv cfg) :
    (c.loadSave cfg l now).Inv cfg := by
  unfold Cartridge.loadSave
  dsimp only
  split <;> exact h

theorem CartWrites.keeps_inv {cfg : Config} {slot slot' : Option Cartridge} (w : CartWrites cfg slot slot')
    (h : ∀ c, slot = some c → c.Inv cfg) : ∀ c, slot' = some c → c.Inv cfg := by
  cases w with
  | same => exact h
  | load _ image nrom banks => rintro _ ⟨⟩; exact ofImage_inv banks
  | ram c b o d | clock c rtc last => rintro _ ⟨⟩; exact h c rfl
  | save c l now => rintro _ ⟨⟩; exact loadSave_inv l now (h c rfl)

/-- Settles O55: `load` makes a cartridge that has the invariant, and no other write touches the counts or the flag. -/
theorem cartridgeInvariantKept : Obligations.CartridgeInvariantKept := by
  intro s t h hstep
  obtain ⟨-, -, hcart, -⟩ := step_next_writes hstep
  rw [step_keeps_config hstep]
  exact hcart.keeps_inv h

end Sys2Proof.Machine
end

section
/-! The palette tables (spec/10_state.md R30, R31): a palette write changes the entries of its own slot, to a decoded colour or
a shade, and every step keeps both table invariants. -/

namespace Sys2Proof.Machine

/-- A property of every entry survives the store of a value that has it. -/
theorem forall_setIfInBounds {α : Type} {n : Nat} {P : α → Prop} {v : Vector α n} (hv : ∀ k : Fin n, P v[k.val]) {x : α}
    (hx : P x) (j : Nat) (k : Fin n) : P (v.setIfInBounds j x)[k.val] := by
  rw [Vector.getElem_setIfInBounds]
  split
  · exact hx
  · exact hv k

/-- Entry `i / 2` is decoded again from the new raw bytes, and every other entry has its two bytes as before. -/
theorem putColour_colourTable {p : Ppu} (h : p.ColourTableInv) (i : Nat) (d : Byte) : (p.putColour i d).ColourTableInv := by
  intro e
  have hlo : 2 * e.val < 128 := by omega
  have hhi : 2 * e.val + 1 < 128 := by omega
  by_cases he : i / 2 = e.val
  · simp [Ppu.putColour, he, hlo, hhi]
  · have hi0 : i ≠ 2 * e.val := by omega
    have hi1 : i ≠ 2 * e.val + 1 := by omega
    simpa [Ppu.putColour, Vector.getElem_setIfInBounds, he, hi0, hi1] using h e

theorem putMono_monoTable {cfg : Config} {p : Ppu} (h : p.MonoTableInv cfg) (slot : Nat) (d : Byte) :
    (p.putMono cfg slot d).MonoTableInv cfg :=
  List.foldlRecOn (motive := fun pal : Vector Colour 12 => ∀ k : Fin 12, ∃ i : Fin 4, pal[k.val] = cfg.monoShade i)
    _ _ h fun _ hpal _ _ => forall_setIfInBounds (P := fun c => ∃ i : Fin 4, c = cfg.monoShade i) hpal ⟨_, rfl⟩ _

theorem PpuWrites.keeps_colourTable {cfg : Config} {p p' : Ppu} {m m' : Bool} (w : PpuWrites cfg p m p' m')
    (h : p.ColourTableInv) : p'.ColourTableInv := by
  cases w with
  | same | control d | bank b | monoPalette k d | oam a d | load => exact h
  | vram a d => simpa only [Ppu.ColourTableInv, vramWrite_colPal, vramWrite_colRaw] using h
  | colourPalette i d => exact putColour_colourTable h i d
  | line v ppu => subst ppu; exact h

theorem PpuWrites.keeps_monoTable {cfg : Config} {p p' : Ppu} {m m' : Bool} (w : PpuWrites cfg p m p' m')
    (h : p.MonoTableInv cfg) : p'.MonoTableInv cfg := by
  cases w with
  | same | control d | bank b | colourPalette i d | oam a d | load => exact h
  | vram a d => simpa only [Ppu.MonoTableInv, vramWrite_monoPal] using h
  | monoPalette k d => exact putMono_monoTable h k d
  | line v ppu => subst ppu; exact h

/-- Settles O52: a palette write keeps the table it writes in step, and no other write touches a table. -/
theorem paletteTableInvariantsKept : Obligations.PaletteTableInvariantsKept := by
  intro s t hcolour hmono hstep
  obtain ⟨hppu, -, -, -⟩ := step_next_writes hstep
  rw [step_keeps_config hstep]
  exact ⟨hppu.keeps_colourTable hcolour, hppu.keeps_monoTable hmono⟩

end Sys2Proof.Machine
end

section
/-! What a resolved tile depends on (spec/42_ppu_access.md R211 to R213): the sixteen bytes of its tile and the four entries of
its palette slot. A write that changes one of them removes the tile's key (20_memory.md R104 to R106). -/

namespace Sys2Proof.Machine

theorem pixelIndex_lt (p : Ppu) (n : Nat) (attr : Byte) (r c : Nat) : p.pixelIndex n attr r c < 4 := by
  unfold Ppu.pixelIndex Ppu.tilePixelIndex
  dsimp only
  refine (bits_lt _ _ _).trans_le (Nat.pow_le_pow_right (by decide) ?_ : _ ≤ 2 ^ 2)
  omega

theorem attrPalette_lt (attr : Byte) : attrPalette attr < 8 := bits_lt _ 2 0

/-- A tile's indices depend on its sixteen bytes (42_ppu_access.md R211). -/
theorem pixelIndex_congr {p q : Ppu} {n : Nat} (attr : Byte) {r : Nat} (c : Nat) (hr : r < 8)
    (h : ∀ k < 16, p.vramRead (n / 384) (16 * (n % 384) + k) = q.vramRead (n / 384) (16 * (n % 384) + k)) :
    p.pixelIndex n attr r c = q.pixelIndex n attr r c := by
  unfold Ppu.pixelIndex Ppu.tilePixelIndex
  dsimp only
  have hrow : (if attrVflip attr then 7 - r else r) < 8 := by split <;> omega
  rw [h (2 * _) (by omega), Nat.add_assoc, h (2 * _ + 1) (by omega)]

/-- A resolved tile depends on its colour indices and on the colours they select (42_ppu_access.md R212). -/
theorem resolveTile_congr_pixels {p q : Ppu} {colour : Bool} {key : CacheKey}
    (hidx : ∀ r c, r < 8 → p.pixelIndex key.n key.attr r c = q.pixelIndex key.n key.attr r c)
    (hmux : ∀ idx < 4, p.paletteMux colour key.kind key.attr idx = q.paletteMux colour key.kind key.attr idx) :
    p.resolveTile colour key = q.resolveTile colour key := by
  have hblank : p.tileBlank key = q.tileBlank key := by
    unfold Ppu.tileBlank
    rw [Bool.eq_iff_iff, List.all_eq_true, List.all_eq_true]
    refine forall₂_congr fun k hk => ?_
    rw [hidx _ _ (Nat.div_lt_of_lt_mul (List.mem_range.mp hk))]
  have hcolours : p.tileColours colour key = q.tileColours colour key := by
    unfold Ppu.tileColours
    congr 1
    funext k
    rw [hmux _ (pixelIndex_lt ..), hidx _ _ (Nat.div_lt_of_lt_mul k.isLt)]
  simp only [Ppu.resolveTile, hblank, hcolours]

/-! ### The three writes that stale a tile -/

theorem vramRead_vramWrite_other (p : Ppu) {a b x : Nat} (d : Byte) (hb : b ≤ 1) (h : b = p.vramBank.toNat → x ≠ a) :
    (p.vramWrite a d).vramRead b x = p.vramRead b x := by
  obtain hbank | hbank : p.vramBank = 0 ∨ p.vramBank = 1 := by
    generalize p.vramBank = bank
    revert bank
    decide
  · by_cases hb0 : b = 0
    · simp [Ppu.vramWrite, Ppu.vramRead, hbank, hb0, read_write_other p.vram0 a x d (h (by simp [hbank, hb0]))]
    · simp [Ppu.vramWrite, Ppu.vramRead, hbank, hb0]
  · by_cases hb0 : b = 0
    · simp [Ppu.vramWrite, Ppu.vramRead, hbank, hb0]
    · have hb1 : b = 1 := by omega
      simp [Ppu.vramWrite, Ppu.vramRead, hbank, hb0, read_write_other p.vram1 a x d (h (by simp [hbank, hb1]))]

/-- A tile whose key a VRAM write leaves in the cache has all its bytes as before (42_ppu_access.md R203). -/
theorem resolveTile_vramWrite (p : Ppu) (a : Nat) (d : Byte) (colour : Bool) (key : CacheKey) (hn : key.n < 768)
    (fresh : vramWriteStales p.vramBank a key = false) :
    p.resolveTile colour key = (p.vramWrite a d).resolveTile colour key := by
  refine resolveTile_congr_pixels (fun r c hr => pixelIndex_congr _ c hr fun k hk => ?_) fun idx _ => ?_
  · refine (vramRead_vramWrite_other p d (by omega) fun hbank ha => ?_).symm
    simp only [vramWriteStales, tileNumber, ← hbank, ← ha, Bool.and_eq_false_iff, decide_eq_false_iff_not,
      beq_eq_false_iff_ne] at fresh
    omega
  · simp only [Ppu.paletteMux, vramWrite_colPal, vramWrite_monoPal]

/-- A tile whose key a colour palette write leaves in the cache has its palette slot as before (42_ppu_access.md R205). -/
theorem resolveTile_putColour (p : Ppu) {i : Nat} (d : Byte) (colour : Bool) (key : CacheKey)
    (fresh : colourWriteStales (i / 2) key = false) :
    p.resolveTile colour key = (p.putColour i d).resolveTile colour key := by
  refine resolveTile_congr_pixels (fun _ _ _ => rfl) fun idx hidx => ?_
  cases colour with
  | false => simp only [Ppu.paletteMux, putColour_monoPal, Bool.false_eq_true, if_false]
  | true =>
    have hslot := attrPalette_lt key.attr
    have entry (base : Nat) (h : 4 * (attrPalette key.attr + base) + idx ≠ i / 2) :
        (p.putColour i d).colPal[4 * (attrPalette key.attr + base) + idx]? =
          p.colPal[4 * (attrPalette key.attr + base) + idx]? := Vector.getElem?_setIfInBounds_ne h.symm
    cases hk : key.kind with
    | bg =>
      have hne : 4 * (attrPalette key.attr + 0) + idx ≠ i / 2 := by
        intro h
        have hs : paletteSlot (i / 2) = attrPalette key.attr := by unfold paletteSlot; omega
        simp [colourWriteStales, hk, hs, hslot, Nat.mod_eq_of_lt hslot] at fresh
      simp only [Ppu.paletteMux, if_true, entry 0 hne]
    | obj =>
      have hne : 4 * (attrPalette key.attr + 8) + idx ≠ i / 2 := by
        intro h
        have hs : paletteSlot (i / 2) = attrPalette key.attr + 8 := by unfold paletteSlot; omega
        simp [colourWriteStales, hk, hs, Nat.mod_eq_of_lt hslot] at fresh
      simp only [Ppu.paletteMux, if_true, entry 8 hne]

/-- A mono palette write leaves the entries of every other slot. -/
theorem putMono_monoPal_other (cfg : Config) (p : Ppu) {slot k : Nat} (d : Byte) (h : k / 4 ≠ slot) :
    (p.putMono cfg slot d).monoPal[k]? = p.monoPal[k]? := by
  refine List.foldlRecOn (motive := fun pal : Vector Colour 12 => pal[k]? = p.monoPal[k]?) _ _ rfl fun pal hpal i hi => ?_
  have hi4 := List.mem_range.mp hi
  rw [← hpal]
  exact Vector.getElem?_setIfInBounds_ne (by omega)

/-- A tile whose key a mono palette write leaves in the cache has its slot as before (42_ppu_access.md R206). -/
theorem resolveTile_putMono (cfg : Config) (p : Ppu) {slot : Nat} (d : Byte) (hs : slot ≤ 2) (colour : Bool) (key : CacheKey)
    (fresh : monoWriteStales slot key = false) :
    p.resolveTile colour key = (p.putMono cfg slot d).resolveTile colour key := by
  refine resolveTile_congr_pixels (fun _ _ _ => rfl) fun idx hidx => ?_
  cases colour with
  | true => simp only [Ppu.paletteMux, putMono_colPal, if_true]
  | false =>
    have entry (own : Nat) (h : own ≠ slot) :
        (p.putMono cfg slot d).monoPal[4 * own + idx]? = p.monoPal[4 * own + idx]? :=
      putMono_monoPal_other cfg p d (by omega)
    cases hk : key.kind with
    | bg =>
      have hne : 0 ≠ slot := by
        rintro rfl
        simp [monoWriteStales, hk] at fresh
      simp only [Ppu.paletteMux, entry 0 hne, Bool.false_eq_true, if_false]
    | obj =>
      have hne : 1 + bitNat (attrMonoPal key.attr) ≠ slot := by
        rintro rfl
        cases ha : attrMonoPal key.attr <;> simp [monoWriteStales, hk, ha, bitNat] at fresh
      simp only [Ppu.paletteMux, entry _ hne, Bool.false_eq_true, if_false]

/-! ### Coherence under a write -/

/-- A cache stays coherent when the keys whose tile may have changed are removed. -/
theorem coherentWith_invalidate {p q : Ppu} {colour : Bool} {c : Cache} (h : p.CoherentWith colour c)
    (stales : CacheKey → Bool)
    (hq : ∀ key : CacheKey, key.n < 768 → stales key = false → p.resolveTile colour key = q.resolveTile colour key) :
    q.CoherentWith colour (c.invalidate stales) := by
  intro e he
  obtain ⟨hmem, hfresh⟩ := (mem_removeKeys c stales e).mp he
  obtain ⟨hn, htile⟩ := h e hmem
  exact ⟨hn, htile.trans (hq e.1 hn hfresh)⟩

/-- Coherence looks at the VRAM and the palette tables only. -/
theorem coherentWith_congr {p q : Ppu} {colour : Bool} {c : Cache} (h : p.CoherentWith colour c) (h0 : p.vram0 = q.vram0)
    (h1 : p.vram1 = q.vram1) (hm : p.monoPal = q.monoPal) (hc : p.colPal = q.colPal) : q.CoherentWith colour c := by
  intro e he
  obtain ⟨hn, htile⟩ := h e he
  exact ⟨hn, htile.trans (resolveTile_congr p q colour e.1 h0 h1 hm hc)⟩

end Sys2Proof.Machine
end

section
/-! One induction over the composition of a line (spec/43_ppu_scanline.md R251 to R264): what drawing a segment, holding one back
and drawing a sprite keep holds of the composed line. Coherence of the cache is its first use. -/

namespace Sys2Proof.Machine

/-- The transients after sprite `o` of pass `behind`, on the line, was drawn (R262). -/
def Scene.withSprite (v : Scene) (behind : Bool) (o : Sprite) (k : Comp) : Comp :=
  let e := v.ppu.cacheLookup v.colour k.cache { kind := .obj, n := (v.spriteTile o).1, attr := o.attr }
  { k with cache := e.2, line := drawSprite behind o e.1 (v.spriteTile o).2 k.line }

theorem spriteStep_cases (v : Scene) (behind : Bool) (k : Comp) (i : Nat) :
    v.spriteStep behind k i = k ∨
      (v.onLine (v.ppu.sprite i) = true ∧ v.spriteStep behind k i = v.withSprite behind (v.ppu.sprite i) k) := by
  unfold Scene.spriteStep
  dsimp only
  split
  · exact .inl rfl
  · split
    · next hon => exact .inr ⟨hon, rfl⟩
    · exact .inl rfl

/-- Every segment held back names a tile and a row of it. -/
def Comp.HeldInRange (k : Comp) : Prop := ∀ g ∈ k.skipped, g.n < 768 ∧ g.r < 8

/-- `P` holds of the backdrop and is kept by each way the composition of a line moves on. -/
structure Scene.Keeps (v : Scene) (P : Comp → Prop) : Prop where
  backdrop : P (Comp.backdrop v.ppu.cache)
  hold : ∀ (k : Comp) (g : Segment), P k → P { k with skipped := k.skipped ++ [g] }
  draw : ∀ (k : Comp) (g : Segment), g.n < 768 → g.r < 8 → P k → P (v.drawSegment g k)
  sprite : ∀ (k : Comp) (behind : Bool) (o : Sprite), v.onLine o = true → P k → P (v.withSprite behind o k)

namespace Scene.Keeps

variable {v : Scene} {P : Comp → Prop} {k : Comp}

theorem placeSegment (h : v.Keeps P) {t : Nat × Byte} {r : Nat} (x0 xhi : Int) (ht : t.1 < 768) (hr : r < 8)
    (hk : P k ∧ k.HeldInRange) : P (v.placeSegment t r x0 xhi k) ∧ (v.placeSegment t r x0 xhi k).HeldInRange := by
  obtain ⟨hp, hheld⟩ := hk
  obtain ⟨-, heq⟩ | ⟨-, heq⟩ := placeSegment_cases v t r x0 xhi k <;> rw [heq]
  · refine ⟨h.hold _ _ hp, fun g hg => ?_⟩
    obtain hg | hg := List.mem_append.mp hg
    · exact hheld g hg
    · obtain rfl := List.mem_singleton.mp hg
      exact ⟨ht, hr⟩
  · exact ⟨h.draw _ _ ht hr hp, hheld⟩

theorem background (h : v.Keeps P) (hk : P k ∧ k.HeldInRange) : P (v.background k) ∧ (v.background k).HeldInRange := by
  unfold Scene.background
  split
  · refine List.foldlRecOn (motive := fun k => P k ∧ k.HeldInRange) _ _ hk fun k hk col _ => ?_
    unfold Scene.bgTile
    dsimp only
    split
    · exact hk
    · exact h.placeSegment _ _ (fetchMapTile_lt ..) (Nat.mod_lt _ (by decide)) hk
  · exact hk

theorem window (h : v.Keeps P) (hk : P k ∧ k.HeldInRange) : P (v.window k) ∧ (v.window k).HeldInRange := by
  unfold Scene.window
  split
  · refine List.foldlRecOn (motive := fun k => P k ∧ k.HeldInRange) _ _ hk fun k hk col _ => ?_
    unfold Scene.winTile
    dsimp only
    split
    · exact hk
    · exact h.placeSegment _ _ (fetchMapTile_lt ..) (Nat.mod_lt _ (by decide)) hk
  · exact hk

theorem spritePass (h : v.Keeps P) (behind : Bool) (hk : P k ∧ k.HeldInRange) :
    P (v.spritePass behind k) ∧ (v.spritePass behind k).HeldInRange := by
  refine List.foldlRecOn (motive := fun k => P k ∧ k.HeldInRange) _ _ hk fun k hk i _ => ?_
  obtain heq | ⟨hon, heq⟩ := spriteStep_cases v behind k i <;> rw [heq]
  · exact hk
  · exact ⟨h.sprite _ _ _ hon hk.1, hk.2⟩

theorem sprites (h : v.Keeps P) (hk : P k ∧ k.HeldInRange) : P (v.sprites k) ∧ (v.sprites k).HeldInRange := by
  unfold Scene.sprites
  split
  · exact h.spritePass false (h.spritePass true hk)
  · exact hk

theorem priorityTiles (h : v.Keeps P) (hk : P k ∧ k.HeldInRange) : P (v.priorityTiles k) := by
  obtain ⟨hp, hheld⟩ := hk
  refine List.foldlRecOn (motive := P) _ _ hp fun k hp g hg => ?_
  obtain ⟨hn, hr⟩ := hheld g hg
  exact h.draw k g hn hr hp

theorem compose (h : v.Keeps P) : P v.compose :=
  h.priorityTiles (h.sprites (h.window (h.background ⟨h.backdrop, by simp [Comp.HeldInRange, Comp.backdrop]⟩)))

end Scene.Keeps

/-- The cache of a composition stays coherent (20_memory.md R104). -/
theorem Scene.keeps_coherent {v : Scene} (h : v.ppu.CoherentWith v.colour v.ppu.cache) :
    v.Keeps fun k => v.ppu.CoherentWith v.colour k.cache where
  backdrop := h
  hold _ _ hk := hk
  draw _ _ hn _ hk := cacheLookup_coherent _ _ _ _ hk hn
  sprite _ _ o hon hk := cacheLookup_coherent _ _ _ _ hk (spriteTile_bounds v o hon).1

/-- Every write keeps the cache coherent (20_memory.md R104 to R106). -/
theorem PpuWrites.keeps_coherent {cfg : Config} {p p' : Ppu} {m m' : Bool} (w : PpuWrites cfg p m p' m')
    (h : p.CoherentWith m p.cache) : p'.CoherentWith m' p'.cache := by
  cases w with
  | same => exact h
  | control d | bank b | oam a d => exact coherentWith_congr h rfl rfl rfl rfl
  | vram a d =>
    rw [vramWrite_cache]
    exact coherentWith_invalidate (p := { p with cache := p.cache.invalidate (vramWriteStales p.vramBank a) })
      (coherentWith_congr h rfl rfl rfl rfl) _ fun key hn hfresh => resolveTile_vramWrite _ a d m key hn hfresh
  | colourPalette i d hi => exact coherentWith_invalidate h _ fun key _ => resolveTile_putColour p d m key
  | monoPalette k d hk => exact coherentWith_invalidate h _ fun key _ => resolveTile_putMono cfg p d hk m key
  | line v ppu mode =>
    subst ppu mode
    exact coherentWith_congr (Scene.keeps_coherent h).compose rfl rfl rfl rfl
  | load => nofun

end Sys2Proof.Machine
end

section
/-! Stored pixels are opaque (spec/10_state.md R34): the palette tables hold opaque colours, so a resolved tile shows opaque ones
and, for a sprite's index 0, one with alpha 0, which is never drawn (42_ppu_access.md R213, 43_ppu_scanline.md R263). -/

namespace Sys2Proof.Machine

/-- Every colour of the two palette tables is opaque. -/
def Ppu.TablesOpaque (p : Ppu) : Prop := (∀ e : Fin 64, Opaque p.colPal[e.val]) ∧ ∀ k : Fin 12, Opaque p.monoPal[k.val]

theorem white_opaque : Opaque white := by decide

theorem decodeColour_opaque (lo hi : Byte) : Opaque (decodeColour lo hi) := by
  rw [opaque_iff_toNat]
  unfold decodeColour
  have hr := bits_lt (lo.toNat + 256 * hi.toNat) 4 0
  have hg := bits_lt (lo.toNat + 256 * hi.toNat) 9 5
  have hb := bits_lt (lo.toNat + 256 * hi.toNat) 14 10
  simp only [BitVec.toNat_ofNat]
  omega

theorem tablesOpaque_of_inv {cfg : Config} (hv : cfg.Valid) {p : Ppu} (hc : p.ColourTableInv) (hm : p.MonoTableInv cfg) :
    p.TablesOpaque := by
  refine ⟨fun e => ?_, fun k => ?_⟩
  · rw [hc e]
    exact decodeColour_opaque _ _
  · obtain ⟨i, hi⟩ := hm k
    rw [hi]
    exact hv.shadesOpaque i

/-- Taking the opacity mask off an opaque colour leaves alpha 0 (42_ppu_access.md R213). -/
theorem alpha_sub_opacityMask {c : Colour} (h : Opaque c) : (c - opacityMask).extractLsb' 24 8 = 0x00 := by
  rw [opaque_iff_toNat] at h
  have hc := c.isLt
  have hmask : opacityMask.toNat = 0xFF000000 := rfl
  have hzero : (0x00 : Byte).toNat = 0 := rfl
  rw [← BitVec.toNat_inj, BitVec.extractLsb'_toNat, BitVec.toNat_sub, Nat.shiftRight_eq_div_pow, hmask, hzero]
  omega

/-- The mux picks an opaque colour, and takes its opacity off for a sprite's index 0 (42_ppu_access.md R213). -/
theorem paletteMux_cases {p : Ppu} (h : p.TablesOpaque) (colour : Bool) (kind : Kind) (attr : Byte) {idx : Nat}
    (hidx : idx < 4) : ∃ col, Opaque col ∧
      p.paletteMux colour kind attr idx = if kind = .obj ∧ idx = 0 then col - opacityMask else col := by
  obtain ⟨hcol, hmono⟩ := h
  have hslot := attrPalette_lt attr
  have hbit := bitNat_le (attrMonoPal attr)
  have colourEntry (e : Nat) (he : e < 64) : Opaque (p.colPal[e]?.getD 0) := by simpa [he] using hcol ⟨e, he⟩
  have monoEntry (e : Nat) (he : e < 12) : Opaque (p.monoPal[e]?.getD 0) := by simpa [he] using hmono ⟨e, he⟩
  cases colour <;> cases kind
  · exact ⟨_, monoEntry (4 * 0 + idx) (by omega), by simp [Ppu.paletteMux]⟩
  · exact ⟨_, monoEntry (4 * (1 + bitNat (attrMonoPal attr)) + idx) (by omega), by simp [Ppu.paletteMux]⟩
  · exact ⟨_, colourEntry (4 * (attrPalette attr + 0) + idx) (by omega), by simp [Ppu.paletteMux]⟩
  · exact ⟨_, colourEntry (4 * (attrPalette attr + 8) + idx) (by omega), by simp [Ppu.paletteMux]⟩

theorem paletteMux_bg_opaque {p : Ppu} (h : p.TablesOpaque) (colour : Bool) (attr : Byte) {idx : Nat} (hidx : idx < 4) :
    Opaque (p.paletteMux colour .bg attr idx) := by
  obtain ⟨col, hcol, heq⟩ := paletteMux_cases h colour .bg attr hidx
  simpa [heq] using hcol

theorem paletteMux_alpha {p : Ppu} (h : p.TablesOpaque) (colour : Bool) (kind : Kind) (attr : Byte) {idx : Nat}
    (hidx : idx < 4) : Opaque (p.paletteMux colour kind attr idx) ∨
      (p.paletteMux colour kind attr idx).extractLsb' 24 8 = 0x00 := by
  obtain ⟨col, hcol, heq⟩ := paletteMux_cases h colour kind attr hidx
  rw [heq]
  split
  · exact .inr (alpha_sub_opacityMask hcol)
  · exact .inl hcol

/-- A resolved tile shows an opaque colour or one of alpha 0 (42_ppu_access.md R212, R213). -/
theorem colourAt_resolveTile_alpha {p : Ppu} (h : p.TablesOpaque) (colour : Bool) (key : CacheKey) {r c : Nat} (hr : r < 8)
    (hc : c < 8) : Opaque ((p.resolveTile colour key).colourAt r c) ∨
      ((p.resolveTile colour key).colourAt r c).extractLsb' 24 8 = 0x00 := by
  have hk : 8 * r + c < 64 := by omega
  unfold Ppu.resolveTile
  split
  · exact .inr (by simp [CacheEntry.colourAt])
  · simpa [CacheEntry.colourAt, Ppu.tileColours, hk] using
      paletteMux_alpha h colour key.kind key.attr (pixelIndex_lt p key.n key.attr _ _)

theorem spritePixel_opaque (behind : Bool) {c : Colour} {under : LinePixel} (hu : Opaque under.col)
    (hc : Opaque c ∨ c.extractLsb' 24 8 = 0x00) : Opaque (spritePixel behind c under).col := by
  unfold spritePixel
  split
  · exact hu
  · next halpha =>
    split
    · exact hu
    · exact hc.resolve_right halpha

theorem drawSprite_opaque (behind : Bool) (o : Sprite) {e : CacheEntry} {r : Nat} {line : Nat → LinePixel}
    (hline : ∀ x, Opaque (line x).col)
    (he : ∀ c < 8, Opaque (e.colourAt r c) ∨ (e.colourAt r c).extractLsb' 24 8 = 0x00) (x : Nat) :
    Opaque (drawSprite behind o e r line x).col := by
  cases e with
  | transparent => exact hline x
  | pixels pix =>
    simp only [drawSprite]
    split
    · exact spritePixel_opaque behind (hline x) (he _ (by omega))
    · exact hline x

/-- A composition from a coherent cache and opaque tables keeps its line opaque (10_state.md R34). -/
theorem Scene.keeps_opaque {v : Scene} (htables : v.ppu.TablesOpaque) (h : v.ppu.CoherentWith v.colour v.ppu.cache) :
    v.Keeps fun k => v.ppu.CoherentWith v.colour k.cache ∧ ∀ x, Opaque (k.line x).col where
  backdrop := ⟨h, fun _ => white_opaque⟩
  hold _ _ hk := hk
  draw k g hn hr hk := by
    obtain ⟨hcoherent, hline⟩ := hk
    refine ⟨(Scene.keeps_coherent h).draw k g hn hr hcoherent, fun x => ?_⟩
    rw [drawSegment_line]
    split
    · dsimp only
      rw [cacheLookup_entry _ _ _ _ hcoherent, colourAt_resolveTile_bg _ _ _ _ _ _ hr (by omega)]
      exact paletteMux_bg_opaque htables _ _ (pixelIndex_lt ..)
    · exact hline x
  sprite k behind o hon hk := by
    obtain ⟨hcoherent, hline⟩ := hk
    obtain ⟨-, hr⟩ := spriteTile_bounds v o hon
    refine ⟨(Scene.keeps_coherent h).sprite k behind o hon hcoherent, drawSprite_opaque behind o hline fun c hc => ?_⟩
    rw [cacheLookup_entry _ _ _ _ hcoherent]
    exact colourAt_resolveTile_alpha htables _ _ hr hc

theorem setLine_opaque {fb : FrameBuf} (y : Nat) {line : Nat → Colour} (hfb : ∀ c ∈ fb, Opaque c.2)
    (hline : ∀ x, Opaque (line x)) : ∀ c ∈ fb.setLine y line, Opaque c.2 := by
  intro c hc
  obtain hc | hc := List.mem_append.mp hc
  · obtain hc | hc := List.mem_append.mp hc
    · exact hfb c ((mem_removeKeys _ _ _).mp hc).1
    · obtain ⟨-, -, -, heq⟩ := lineCells_bounds y line c hc
      rw [heq]
      exact hline _
  · exact hfb c ((mem_removeKeys _ _ _).mp hc).1

theorem result_fb_opaque {v : Scene} (htables : v.ppu.TablesOpaque) (hc : v.ppu.CoherentWith v.colour v.ppu.cache)
    (hfb : ∀ c ∈ v.ppu.fb, Opaque c.2) : ∀ c ∈ v.result.fb, Opaque c.2 := by
  simp only [Scene.result, Scene.finalize]
  split
  · nofun
  · exact setLine_opaque _ hfb (Scene.keeps_opaque htables hc).compose.2

/-- Only the composition of a line writes the frame buffer. -/
theorem PpuWrites.keeps_fb_opaque {cfg : Config} {p p' : Ppu} {m m' : Bool} (w : PpuWrites cfg p m p' m')
    (htables : p.TablesOpaque) (hc : p.CoherentWith m p.cache) (hfb : ∀ c ∈ p.fb, Opaque c.2) :
    ∀ c ∈ p'.fb, Opaque c.2 := by
  cases w with
  | same | control d | bank b | colourPalette i d | monoPalette k d | oam a d | load => exact hfb
  | vram a d => simpa only [vramWrite_fb] using hfb
  | line v ppu mode =>
    subst ppu mode
    exact result_fb_opaque htables hc hfb

/-- Settles O56: the tables and the cache keep their invariants, under which a composed line is opaque, and nothing else is
stored in the frame buffer. -/
theorem storedPixelsStayOpaque : Obligations.StoredPixelsStayOpaque := by
  intro s t hv h hstep
  obtain ⟨hcolour, hmono, hcoherent, hopaque⟩ := h
  obtain ⟨hppu, -, -, -⟩ := step_next_writes hstep
  unfold State.FrameInv
  rw [step_keeps_config hstep]
  exact ⟨hppu.keeps_colourTable hcolour, hppu.keeps_monoTable hmono, hppu.keeps_coherent hcoherent,
    hppu.keeps_fb_opaque (tablesOpaque_of_inv hv hcolour hmono) hcoherent hopaque⟩

end Sys2Proof.Machine
end

section
/-! The reset state (spec/10_state.md R49): its memories are empty, so every byte and pixel reads as an unlisted one, and it has
the invariants that the steps keep. -/

namespace Sys2Proof.Machine

@[simp] theorem read_nil (a : Nat) : Memory.read [] a = 0x00 := rfl
@[simp] theorem pixel_nil (y x : Nat) : FrameBuf.pixel [] y x = white := rfl

theorem reset_vramRead (cfg : Config) (b a : Nat) : (Ppu.reset cfg).vramRead b a = 0x00 := by
  simp [Ppu.vramRead, Ppu.reset]

theorem reset_enabled (cfg : Config) {n : Nat} (h1 : 1 ≤ n) (h4 : n ≤ 4) : (Apu.reset cfg).enabled n = true := by
  have hn : n - 1 < 4 := by omega
  simp [Apu.enabled, Apu.reset, hn]

theorem reset_voice_inv {cfg : Config} (hv : cfg.Valid) : (Voice.reset cfg).Inv := ⟨hv.safeCycle, hv.safeCycle⟩

theorem reset_envelope_inv : Envelope.reset.Inv := by decide

theorem reset_square_inv {cfg : Config} (hv : cfg.Valid) : (Square.reset cfg).Inv :=
  ⟨reset_voice_inv hv, reset_envelope_inv, by simp [Square.reset], .inl rfl⟩

theorem reset_apu_inv {cfg : Config} (hv : cfg.Valid) : (Apu.reset cfg).Inv cfg := by
  have htable : 0 < cfg.noiseTableLen := hv.noiseShort.trans hv.noiseTable
  have hcycle : 0 < cfg.safeCycleLength * cfg.noiseTableLen := Nat.mul_pos hv.safeCycle htable
  have hwave : (Apu.reset cfg).ch3.Inv := ⟨reset_voice_inv hv, by simp [Apu.reset], by simp [Apu.reset]⟩
  have hnoise : (Apu.reset cfg).ch4.Inv cfg := ⟨⟨hcycle, hcycle⟩, reset_envelope_inv, hv.safeCycle, rfl, htable⟩
  exact ⟨reset_square_inv hv, by simp [Apu.reset], by simp [Apu.reset], reset_square_inv hv, hwave, hnoise⟩

theorem nil_wf : Memory.wf [] := ⟨.nil, nofun⟩

theorem reset_memoryInv (cfg : Config) : (State.resetOf cfg).MemoryInv :=
  ⟨⟨nil_wf, nofun, nil_wf, nofun, nil_wf, nofun, ⟨.nil, nofun, nofun⟩, .nil, nofun⟩, nofun⟩

theorem reset_colourTable (cfg : Config) : (Ppu.reset cfg).ColourTableInv := by
  have hdecode : 0xFF000000 = decodeColour 0x00 0x00 := by decide
  intro e
  simpa [Ppu.reset] using hdecode

theorem reset_monoTable (cfg : Config) : (Ppu.reset cfg).MonoTableInv cfg :=
  fun _ => ⟨0, Vector.getElem_replicate _⟩

/-- The cache and the frame buffer are empty, so coherence and opacity hold of each of their entries. -/
theorem reset_frameInv (cfg : Config) : (State.resetOf cfg).FrameInv :=
  ⟨reset_colourTable cfg, reset_monoTable cfg, nofun, nofun⟩

/-- Settles O58: the values are read off the reset state, and each invariant is one of the lemmas above. -/
theorem resetValuesAndInvariants : Obligations.ResetValuesAndInvariants := by
  refine ⟨rfl, fun cfg hv => ?_⟩
  have hmono (k : Fin 12) : (Ppu.reset cfg).monoPal[k.val] = cfg.monoShade 0 := Vector.getElem_replicate _
  exact ⟨rfl, fun _ => Vector.getElem_replicate _, reset_vramRead cfg, rfl, read_nil, rfl,
    fun k => ⟨hmono k, (hmono k).trans hv.white⟩, fun _ => Vector.getElem_replicate _, fun _ => Vector.getElem_replicate _,
    rfl, pixel_nil, rfl, fun _ => reset_enabled cfg, ⟨rfl, rfl, rfl, rfl, rfl⟩, rfl, rfl,
    reset_apu_inv hv, ⟨le_rfl, Nat.zero_lt_one⟩, reset_memoryInv cfg, reset_frameInv cfg⟩

end Sys2Proof.Machine
end

section
/-! The tile cache against a cache-free composition (spec/20_memory.md R104, R105): every step keeps it coherent, and two
compositions of a line that start from different coherent caches draw the same line. -/

namespace Sys2Proof.Machine

/-- Settles O53: the cache is empty at reset, and every write of the PPU keeps it coherent. -/
theorem tileCacheCoherenceKept : Obligations.TileCacheCoherenceKept := by
  refine ⟨nofun, fun s t h hstep => ?_⟩
  obtain ⟨hppu, -, -, -⟩ := step_next_writes hstep
  exact hppu.keeps_coherent h

/-! ### Two compositions of one line -/

/-- Two transients of a line with the same pixels and the same segments held back; their caches may differ, and both are
coherent. -/
structure Scene.AgreeButCache (v : Scene) (k l : Comp) : Prop where
  line : k.line = l.line
  skipped : k.skipped = l.skipped
  held : k.HeldInRange
  left : v.ppu.CoherentWith v.colour k.cache
  right : v.ppu.CoherentWith v.colour l.cache

namespace Scene.AgreeButCache

variable {v : Scene} {k l : Comp}

/-- Both sides look up the same resolved tile (42_ppu_access.md R214). -/
theorem lookup (h : v.AgreeButCache k l) (key : CacheKey) :
    (v.ppu.cacheLookup v.colour k.cache key).1 = (v.ppu.cacheLookup v.colour l.cache key).1 := by
  rw [cacheLookup_entry _ _ _ _ h.left, cacheLookup_entry _ _ _ _ h.right]

theorem backdrop {c d : Cache} (hc : v.ppu.CoherentWith v.colour c) (hd : v.ppu.CoherentWith v.colour d) :
    v.AgreeButCache (Comp.backdrop c) (Comp.backdrop d) :=
  ⟨rfl, rfl, by simp [Comp.HeldInRange, Comp.backdrop], hc, hd⟩

theorem drawSegment (h : v.AgreeButCache k l) {g : Segment} (hn : g.n < 768) :
    v.AgreeButCache (v.drawSegment g k) (v.drawSegment g l) where
  line := by
    funext x
    rw [drawSegment_line, drawSegment_line, h.lookup, h.line]
  skipped := h.skipped
  held := h.held
  left := cacheLookup_coherent _ _ _ _ h.left hn
  right := cacheLookup_coherent _ _ _ _ h.right hn

theorem placeSegment (h : v.AgreeButCache k l) {t : Nat × Byte} {r : Nat} (x0 xhi : Int) (ht : t.1 < 768) (hr : r < 8) :
    v.AgreeButCache (v.placeSegment t r x0 xhi k) (v.placeSegment t r x0 xhi l) := by
  unfold Scene.placeSegment
  split
  · refine ⟨h.line, congrArg (· ++ _) h.skipped, fun g hg => ?_, h.left, h.right⟩
    obtain hg | hg := List.mem_append.mp hg
    · exact h.held g hg
    · obtain rfl := List.mem_singleton.mp hg
      exact ⟨ht, hr⟩
  · exact h.drawSegment ht

theorem background (h : v.AgreeButCache k l) : v.AgreeButCache (v.background k) (v.background l) := by
  unfold Scene.background
  split
  · refine List.foldl_rel h fun col _ k l h => ?_
    unfold Scene.bgTile
    dsimp only
    split
    · exact h
    · exact h.placeSegment _ _ (fetchMapTile_lt ..) (Nat.mod_lt _ (by decide))
  · exact h

theorem window (h : v.AgreeButCache k l) : v.AgreeButCache (v.window k) (v.window l) := by
  unfold Scene.window
  split
  · refine List.foldl_rel h fun col _ k l h => ?_
    unfold Scene.winTile
    dsimp only
    split
    · exact h
    · exact h.placeSegment _ _ (fetchMapTile_lt ..) (Nat.mod_lt _ (by decide))
  · exact h

theorem spriteStep (h : v.AgreeButCache k l) (behind : Bool) (i : Nat) :
    v.AgreeButCache (v.spriteStep behind k i) (v.spriteStep behind l i) := by
  unfold Scene.spriteStep
  dsimp only
  split
  · exact h
  · split
    · next hon =>
      obtain ⟨hn, -⟩ := spriteTile_bounds v _ hon
      exact ⟨by simp only [h.lookup, h.line], h.skipped, h.held, cacheLookup_coherent _ _ _ _ h.left hn,
        cacheLookup_coherent _ _ _ _ h.right hn⟩
    · exact h

theorem sprites (h : v.AgreeButCache k l) : v.AgreeButCache (v.sprites k) (v.sprites l) := by
  have pass (behind : Bool) {k l : Comp} (h : v.AgreeButCache k l) :
      v.AgreeButCache (v.spritePass behind k) (v.spritePass behind l) :=
    List.foldl_rel h fun i _ _ _ h => h.spriteStep behind i
  unfold Scene.sprites
  split
  · exact pass false (pass true h)
  · exact h

theorem priorityTiles (h : v.AgreeButCache k l) : v.AgreeButCache (v.priorityTiles k) (v.priorityTiles l) := by
  unfold Scene.priorityTiles
  rw [← h.skipped]
  exact List.foldl_rel h fun g hg _ _ h' => h'.drawSegment (h.held g hg).1

end Scene.AgreeButCache

/-! ### One line from an empty cache -/

/-- The scene with nothing in the cache. -/
def Scene.withoutCache (v : Scene) : Scene := { v with ppu := { v.ppu with cache := [] } }

/-- The steps of a composition read the memories of the scene, not its cache: that comes in with the backdrop (R250). -/
theorem Scene.withoutCache_compose (v : Scene) : v.withoutCache.compose =
    v.priorityTiles (v.sprites (v.window (v.background (Comp.backdrop [])))) := rfl

theorem Scene.compose_line_withoutCache {v : Scene} (h : v.ppu.CoherentWith v.colour v.ppu.cache) :
    v.compose.line = v.withoutCache.compose.line := by
  rw [Scene.withoutCache_compose]
  have hempty : v.ppu.CoherentWith v.colour [] := nofun
  exact (Scene.AgreeButCache.backdrop h hempty).background.window.sprites.priorityTiles.line

/-- A composed line leaves the same PPU, but for the cache, as from an empty cache (20_memory.md R105). -/
theorem Scene.result_withoutCache {v : Scene} (h : v.ppu.CoherentWith v.colour v.ppu.cache) :
    v.result = { v.withoutCache.result with cache := v.result.cache } := by
  unfold Scene.result
  dsimp only
  rw [Scene.compose_line_withoutCache h]
  rfl

/-- Settles O35: outside the frame the cache is not read, and a composed line does not depend on it. -/
theorem tileCacheIsUnobservable : Obligations.TileCacheIsUnobservable := by
  intro line s h
  show ∃ t u, execNotifyScanline line s = .next t ∧
    execNotifyScanline line { s with ppu := { s.ppu with cache := [] } } = .next u ∧ _
  unfold execNotifyScanline
  split
  · exact ⟨_, _, rfl, rfl, rfl⟩
  · split
    · exact ⟨_, _, rfl, rfl, rfl⟩
    · have hppu := Scene.result_withoutCache (v := Scene.of s line.toNat) h
      exact ⟨_, _, rfl, rfl, congrArg (fun p => { s with ppu := p, result := .none }) hppu⟩

end Sys2Proof.Machine
end

section
/-! The canonical form of the memories (spec/20_memory.md R80, 10_state.md R32): every write of the PPU and of the cartridge keeps
it, and keeps every cell inside its space. -/

namespace Sys2Proof.Machine

/-! ### The PPU -/

/-- The cache's keys rise and name tiles 0..767 (10_state.md R32). -/
def Cache.KeysInOrder (c : Cache) : Prop := KeysRise CacheKey.code c ∧ ∀ e ∈ c, e.1.n < 768

theorem Cache.KeysInOrder.invalidate {c : Cache} (h : c.KeysInOrder) (p : CacheKey → Bool) : (c.invalidate p).KeysInOrder :=
  ⟨h.1.removeKeys p, fun e he => h.2 e ((mem_removeKeys c p e).mp he).1⟩

/-- A composition puts the keys of tiles in their places. -/
theorem Scene.keeps_keysInOrder {v : Scene} (h : v.ppu.cache.KeysInOrder) : v.Keeps fun k => k.cache.KeysInOrder where
  backdrop := h
  hold _ _ hk := hk
  draw _ _ hn _ hk := cacheLookup_rise _ _ _ _ hk.1 hk.2 hn
  sprite _ _ o hon hk := cacheLookup_rise _ _ _ _ hk.1 hk.2 (spriteTile_bounds v o hon).1

theorem finalize_keeps_wf (v : Scene) {fb : FrameBuf} (h : fb.wf) : (v.finalize fb).wf := by
  unfold Scene.finalize
  split
  · exact ⟨.nil, nofun, nofun⟩
  · exact h

/-- A VRAM write goes to one of the two banks. -/
theorem vramWrite_cases (p : Ppu) (a : Nat) (d : Byte) :
    p.vramWrite a d = { p with vram0 := p.vram0.write a d } ∨ p.vramWrite a d = { p with vram1 := p.vram1.write a d } := by
  unfold Ppu.vramWrite
  split
  · exact .inl rfl
  · exact .inr rfl

theorem PpuWrites.keeps_memory {cfg : Config} {p p' : Ppu} {m m' : Bool} (w : PpuWrites cfg p m p' m')
    (h : p.MemoryInv) : p'.MemoryInv := by
  obtain ⟨hv0, hb0, hv1, hb1, ho, hbo, hfb, hcache⟩ := h
  have invalidated (stales : CacheKey → Bool) : (p.cache.invalidate stales).KeysInOrder :=
    Cache.KeysInOrder.invalidate hcache stales
  cases w with
  | same | control d | bank b => exact ⟨hv0, hb0, hv1, hb1, ho, hbo, hfb, hcache⟩
  | vram a d ha =>
    have inside : a < 0x2000 := Nat.lt_succ_of_le ha
    obtain heq | heq := vramWrite_cases { p with cache := p.cache.invalidate (vramWriteStales p.vramBank a) } a d <;> rw [heq]
    · exact ⟨write_keeps_wf _ a d hv0, write_keeps_below _ a _ d hb0 inside, hv1, hb1, ho, hbo, hfb, invalidated _⟩
    · exact ⟨hv0, hb0, write_keeps_wf _ a d hv1, write_keeps_below _ a _ d hb1 inside, ho, hbo, hfb, invalidated _⟩
  | colourPalette i d | monoPalette k d => exact ⟨hv0, hb0, hv1, hb1, ho, hbo, hfb, invalidated _⟩
  | oam a d ha =>
    exact ⟨hv0, hb0, hv1, hb1, write_keeps_wf _ a d ho, write_keeps_below _ a _ d hbo (Nat.lt_succ_of_le ha), hfb, hcache⟩
  | line v ppu mode ly =>
    subst ppu
    exact ⟨hv0, hb0, hv1, hb1, ho, hbo, finalize_keeps_wf v (setLine_keeps_wf _ _ _ hfb (Nat.lt_succ_of_le ly)),
      (Scene.keeps_keysInOrder hcache).compose⟩
  | load => exact ⟨hv0, hb0, hv1, hb1, ho, hbo, hfb, .nil, nofun⟩

/-! ### The cartridge -/

/-- A loaded cartridge holds as much of the image as its ROM takes, and an empty RAM (41_cartridge.md R152). -/
theorem ofImage_memory (cfg : Config) (nrom : Nat) (image : List Byte) : (Cartridge.ofImage cfg nrom image).MemoryInv cfg := by
  refine ⟨ofBytes_wf _, fun c hc => ?_, nil_wf, nofun⟩
  exact (ofBytes_below _ c hc).trans_le (List.length_take_le ..)

/-- Offset `o` of bank `b` lies inside the RAM. -/
theorem bank_offset_lt {b n o size : Nat} (hb : b < n) (ho : o < size) : b * size + o < n * size :=
  calc b * size + o < (b + 1) * size := by rw [Nat.succ_mul]; omega
    _ ≤ n * size := Nat.mul_le_mul_right size hb

theorem loadSave_memory {cfg : Config} {c : Cartridge} (l : List Byte) (now : BitVec 64) (h : c.MemoryInv cfg) :
    (c.loadSave cfg l now).MemoryInv cfg := by
  obtain ⟨hrom, hbrom, hram, hbram⟩ := h
  have hwf := overlay_keeps_wf c.ram (l.take (c.ramSize cfg)) hram
  have hbelow := overlay_keeps_below c.ram (l.take (c.ramSize cfg)) _ hbram (List.length_take_le ..)
  unfold Cartridge.loadSave
  dsimp only
  split <;> exact ⟨hrom, hbrom, hwf, hbelow⟩

theorem CartWrites.keeps_memory {cfg : Config} {slot slot' : Option Cartridge} (w : CartWrites cfg slot slot')
    (h : ∀ c, slot = some c → c.MemoryInv cfg) : ∀ c, slot' = some c → c.MemoryInv cfg := by
  cases w with
  | same => exact h
  | load _ image nrom => rintro _ ⟨⟩; exact ofImage_memory cfg nrom image
  | ram c b o d hb ho =>
    rintro _ ⟨⟩
    obtain ⟨hrom, hbrom, hram, hbram⟩ := h c rfl
    exact ⟨hrom, hbrom, write_keeps_wf _ _ d hram, write_keeps_below _ _ _ d hbram (bank_offset_lt hb ho)⟩
  | clock c rtc last => rintro _ ⟨⟩; exact h c rfl
  | save c l now => rintro _ ⟨⟩; exact loadSave_memory l now (h c rfl)

/-- Settles O54: every write of the PPU and of the cartridge slot keeps the memories it writes in form. -/
theorem memoriesStayCanonical : Obligations.MemoriesStayCanonical := by
  intro s t h hstep
  obtain ⟨hppu, -, hcart, -⟩ := step_next_writes hstep
  unfold State.MemoryInv
  rw [step_keeps_config hstep]
  exact ⟨hppu.keeps_memory h.1, hcart.keeps_memory h.2⟩

end Sys2Proof.Machine
end

section
/-! What each call may write, said once for every constructor of `Instr` (spec/20_memory.md R80, R104, 42_ppu_access.md R214,
10_state.md R22 to R48): the list of the writers of a piece of state is the list of the cases below that name it. -/

namespace Sys2Proof.Machine

/-! ### The writes of each call -/

/-- `b` has the enable flags of `a` (10_state.md R35). -/
def Apu.SameEnables (a b : Apu) : Prop := b.sndEnabled = a.sndEnabled ∧ b.chEnabled = a.chEnabled

/-- What call `i` may answer from `s`: a refusal, or a next state that differs from `s` in the pieces `i` writes and in the
result. `nothing` covers every fault and the calls that only read. -/
inductive InstrWrites (s : State) : Instr → Out → Prop
  | refused (i : Instr) (r : Refusal) : InstrWrites s i (.refused r)
  | nothing (i : Instr) (r : Result) : InstrWrites s i (.next { s with result := r })
  -- the PPU (42_ppu_access.md R202 to R207, 43_ppu_scanline.md R251)
  | control (d lcdc : Byte) :
      InstrWrites s (.writeControlRegister d) (.next { s with ppu := { s.ppu with lcdc := lcdc }, result := .none })
  | vram (a : BitVec 32) (d : Byte) (v0 v1 : Memory) (cache : Cache) :
      InstrWrites s (.writeVram a d)
        (.next { s with ppu := { s.ppu with vram0 := v0, vram1 := v1, cache := cache }, result := .none })
  | vramBank (b : Byte) (bank : BitVec 1) :
      InstrWrites s (.setVramBank b) (.next { s with ppu := { s.ppu with vramBank := bank }, result := .none })
  | colourPalette (k : BitVec 32) (d : Byte) (raw : Vector Byte 128) (pal : Vector Colour 64) (cache : Cache) :
      InstrWrites s (.setColorPalette k d)
        (.next { s with ppu := { s.ppu with colRaw := raw, colPal := pal, cache := cache }, result := .none })
  | monoPalette (k : BitVec 32) (d : Byte) (pal : Vector Colour 12) (cache : Cache) :
      InstrWrites s (.setMonoPalette k d)
        (.next { s with ppu := { s.ppu with monoPal := pal, cache := cache }, result := .none })
  | oam (a : BitVec 32) (d : Byte) (m : Memory) :
      InstrWrites s (.writeOam a d) (.next { s with ppu := { s.ppu with oam := m }, result := .none })
  | line (l : BitVec 32) (cache : Cache) (fb : FrameBuf) :
      InstrWrites s (.notifyScanline l) (.next { s with ppu := { s.ppu with cache := cache, fb := fb }, result := .none })
  -- the pacing gate and the register file (46_pacing_gate.md R401 to R405)
  | tick {pace : Pace} (divisor : pace.divisor = s.pace.divisor) (r : Result) :
      InstrWrites s .tick (.next { s with pace := pace, result := r })
  | endFrame {pace : Pace} (divisor : pace.divisor = s.pace.divisor) (r : Result) :
      InstrWrites s .endFrame (.next { s with pace := pace, result := r })
  | speed (n : BitVec 32) (pace : Pace) : InstrWrites s (.setSpeed n) (.next { s with pace := pace, result := .none })
  | mirror (r : BitVec 32) (d : Byte) (io : Vector Byte 128) :
      InstrWrites s (.mirrorWrite r d) (.next { s with io := io, result := .none })
  -- the APU (44_apu_registers.md R303 to R329, 45_apu_render.md R352)
  | register {k : Byte → Instr} (hk : k ∈ ioWriteConstructors) (d : Byte) (io : Vector Byte 128) {apu : Apu}
      (enables : s.apu.SameEnables apu) : InstrWrites s (k d) (.next { s with io := io, apu := apu, result := .none })
  | channelEnable (n : BitVec 32) (e : Bool) (ch : Vector Bool 4) :
      InstrWrites s (.setChannelEnable n e) (.next { s with apu := { s.apu with chEnabled := ch }, result := .none })
  | soundEnabled (e snd : Bool) :
      InstrWrites s (.setSoundEnabled e) (.next { s with apu := { s.apu with sndEnabled := snd }, result := .none })
  | render (n : BitVec 32) {pace : Pace} (divisor : pace.divisor = s.pace.divisor) {apu : Apu}
      (enables : s.apu.SameEnables apu) (r : Result) :
      InstrWrites s (.render n) (.next { s with pace := pace, apu := apu, result := r })
  -- the cartridge (41_cartridge.md R152 to R176)
  | load (c : Cartridge) :
      InstrWrites s .load (.next { s with cart := some c, ppu := { s.ppu with cache := [] }, result := .none })
  | ram (b : BitVec 16) (o : BitVec 32) (d : Byte) {c : Cartridge} (hc : s.cart = some c) (m : Memory) :
      InstrWrites s (.ramWrite b o d) (.next { s with cart := some { c with ram := m }, result := .none })
  | save {c : Cartridge} (hc : s.cart = some c) (m : Memory) (rtc : Rtc) (last : Option (BitVec 64)) :
      InstrWrites s .loadSave
        (.next { s with cart := some { c with ram := m, rtc := rtc, rtcLast := last }, result := .none })
  | rtcByte (k : BitVec 32) (d : Byte) {c : Cartridge} (hc : s.cart = some c) (rtc : Rtc) :
      InstrWrites s (.rtcWrite k d) (.next { s with cart := some { c with rtc := rtc }, result := .none })
  | skip {c : Cartridge} (hc : s.cart = some c) (rtc : Rtc) :
      InstrWrites s .skipRtc (.next { s with cart := some { c with rtc := rtc }, result := .none })
  | clock {c : Cartridge} (hc : s.cart = some c) (rtc : Rtc) (last : Option (BitVec 64)) :
      InstrWrites s .tickRtc (.next { s with cart := some { c with rtc := rtc, rtcLast := last }, result := .none })

/-! ### Every call stays within its writes -/

theorem InstrWrites.of_check {s : State} {i : Instr} {out : Out} {bad : Prop} {_ : Decidable bad} (h : InstrWrites s i out) :
    InstrWrites s i (if bad then raise .invalidArgument s else out) := by
  split
  · exact .nothing i _
  · exact h

theorem InstrWrites.of_withCart {s : State} {i : Instr} {k : Cartridge → Out}
    (h : ∀ c, s.cart = some c → InstrWrites s i (k c)) : InstrWrites s i (withCart s k) := by
  obtain ⟨-, hk⟩ | ⟨c, hc, hk⟩ := withCart_cases s k
  · rw [hk]; exact .refused i _
  · rw [hk]; exact h c hc

theorem tick_divisor (p : Pace) : p.tick.2.divisor = p.divisor := by
  unfold Pace.tick
  split <;> rfl

theorem loadSave_eq (cfg : Config) (c : Cartridge) (l : List Byte) (now : BitVec 64) :
    ∃ m rtc last, c.loadSave cfg l now = { c with ram := m, rtc := rtc, rtcLast := last } := by
  unfold Cartridge.loadSave
  dsimp only
  split <;> exact ⟨_, _, _, rfl⟩

/-- Each channel's part of a tick keeps the enables, hence the tick does (45_apu_render.md R352). -/
theorem tick_sameEnables (cfg : Config) (a : Apu) (table : Nat → Byte) (count : Nat) :
    a.SameEnables (a.tick cfg table count).1 := by
  have step1 (t : Apu × List LaneFrame) (h : a.SameEnables t.1) : a.SameEnables (Apu.step1 cfg t).1 := by
    unfold Apu.step1; split <;> exact h
  have step2 (t : Apu × List LaneFrame) (h : a.SameEnables t.1) : a.SameEnables (Apu.step2 cfg t).1 := by
    unfold Apu.step2; split <;> exact h
  have step3 (t : Apu × List LaneFrame) (h : a.SameEnables t.1) : a.SameEnables (Apu.step3 cfg table t).1 := by
    unfold Apu.step3; split <;> exact h
  have step4 (t : Apu × List LaneFrame) (h : a.SameEnables t.1) : a.SameEnables (Apu.step4 cfg t).1 := by
    unfold Apu.step4; split <;> exact h
  unfold Apu.tick
  dsimp only
  split
  · exact step4 _ (step3 _ (step2 _ (step1 _ ⟨rfl, rfl⟩)))
  · exact ⟨rfl, rfl⟩

theorem execLoad_instrWrites (s : State) : InstrWrites s .load (execLoad s) := by
  unfold execLoad
  split
  · exact .nothing _ _
  · exact .load _

/-- Every call writes its own pieces of the state and no other. -/
theorem exec_instrWrites (i : Instr) (s : State) : InstrWrites s i (exec i s) := by
  cases i with
  | writeControlRegister d => exact .control d d
  | writeVram a d =>
    refine .of_check ?_
    rw [vramWrite_eq]
    exact .vram a d _ _ _
  | setVramBank b => exact .of_check (.vramBank b _)
  | setColorPalette k d =>
    refine .of_check ?_
    split
    · exact .nothing _ _
    · exact .colourPalette k d _ _ _
  | setMonoPalette k d => exact .of_check (.monoPalette k d _ _)
  | writeOam a d => exact .of_check (.oam a d _)
  | notifyScanline l =>
    refine .of_check ?_
    split
    · exact .nothing _ _
    · exact .line l _ _
  | tick => exact .tick (tick_divisor _) _
  | endFrame => exact .endFrame (tick_divisor _) _
  | setSpeed n => exact .of_check (.speed n _)
  | mirrorWrite r d => exact .of_check (.mirror r d _)
  | ioWriteR10 d | ioWriteR11 d | ioWriteR12 d | ioWriteR13 d | ioWriteR14 d | ioWriteR15 d | ioWriteR16 d | ioWriteR17 d
  | ioWriteR18 d | ioWriteR19 d | ioWriteR1A d | ioWriteR1B d | ioWriteR1C d | ioWriteR1D d | ioWriteR1E d | ioWriteR1F d
  | ioWriteR20 d | ioWriteR21 d | ioWriteR22 d | ioWriteR23 d | ioWriteR24 d | ioWriteR25 d =>
    exact .register (by simp [ioWriteConstructors]) d _ ⟨rfl, rfl⟩
  | setChannelEnable n e => exact .of_check (.channelEnable n e _)
  | setSoundEnabled e => exact .soundEnabled e e
  | render n =>
    refine .of_check ?_
    dsimp only
    split
    · exact .render n (tick_divisor _) (tick_sameEnables ..) _
    · exact .render n (tick_divisor _) ⟨rfl, rfl⟩ _
  | load => exact execLoad_instrWrites s
  | hasBattery | dumpSave => exact .of_withCart fun _ _ => .nothing _ _
  | romRead b o | ramRead b o | rtcRead k => exact .of_withCart fun _ _ => .of_check (.nothing _ _)
  | ramWrite b o d => exact .of_withCart fun _ hc => .of_check (.ram b o d hc _)
  | loadSave =>
    refine .of_withCart fun c hc => ?_
    obtain ⟨m, rtc, last, h⟩ := loadSave_eq s.config c s.inputs.bytes s.inputs.now
    rw [h]
    exact .save hc m rtc last
  | rtcWrite k d => exact .of_withCart fun _ hc => .of_check (.rtcByte k d hc _)
  | skipRtc => exact .of_withCart fun _ hc => .skip hc _
  | tickRtc =>
    refine .of_withCart fun c hc => ?_
    obtain ⟨rtc, last, h⟩ := tickRtc_eq c s.inputs.now
    rw [h]
    exact .clock hc rtc last

/-! ### Each piece of state has its own writers -/

section Writers
variable {s t : State} {i : Instr}

/-- A register write of the APU is a call of `ioWriteCalls`. -/
theorem mem_ioWriteCalls {k : Byte → Instr} (hk : k ∈ ioWriteConstructors) (d : Byte) :
    ∃ call ∈ ioWriteCalls d, k d = call.2 := by
  have hsnd : (ioWriteCalls d).map Prod.snd = ioWriteConstructors.map (· d) :=
    List.map_snd_zip (by rw [List.length_map]; decide)
  have hmem : k d ∈ (ioWriteCalls d).map Prod.snd := by
    rw [hsnd]
    exact List.mem_map.mpr ⟨k, hk, rfl⟩
  obtain ⟨call, hcall, heq⟩ := List.mem_map.mp hmem
  exact ⟨call, hcall, heq.symm⟩

/-- The call `i` is no `ioWrite`. -/
def NotIoWrite (i : Instr) : Prop := ∀ d, ∀ call ∈ ioWriteCalls d, i ≠ call.2

theorem not_notIoWrite {k : Byte → Instr} (hk : k ∈ ioWriteConstructors) (d : Byte) : ¬ NotIoWrite (k d) := by
  obtain ⟨call, hcall, heq⟩ := mem_ioWriteCalls hk d
  exact fun h => h d call hcall heq

namespace InstrWrites

theorem io (w : InstrWrites s i (.next t)) (hmirror : ∀ r d, i ≠ .mirrorWrite r d) (hio : NotIoWrite i) : t.io = s.io := by
  cases w with
  | mirror => exact absurd rfl (hmirror _ _)
  | register hk d => exact absurd hio (not_notIoWrite hk d)
  | _ => rfl

theorem vramBanks (w : InstrWrites s i (.next t)) (hvram : ∀ a d, i ≠ .writeVram a d) :
    t.ppu.vram0 = s.ppu.vram0 ∧ t.ppu.vram1 = s.ppu.vram1 := by
  cases w with
  | vram => exact absurd rfl (hvram _ _)
  | _ => exact ⟨rfl, rfl⟩

theorem bankSelect (w : InstrWrites s i (.next t)) (hbank : ∀ b, i ≠ .setVramBank b) :
    t.ppu.vramBank = s.ppu.vramBank := by
  cases w with
  | vramBank => exact absurd rfl (hbank _)
  | _ => rfl

theorem oamBytes (w : InstrWrites s i (.next t)) (hoam : ∀ a d, i ≠ .writeOam a d) : t.ppu.oam = s.ppu.oam := by
  cases w with
  | oam => exact absurd rfl (hoam _ _)
  | _ => rfl

theorem lcdc (w : InstrWrites s i (.next t)) (hcontrol : ∀ d, i ≠ .writeControlRegister d) :
    t.ppu.lcdc = s.ppu.lcdc := by
  cases w with
  | control => exact absurd rfl (hcontrol _)
  | _ => rfl

theorem colourTable (w : InstrWrites s i (.next t)) (hpalette : ∀ k d, i ≠ .setColorPalette k d) :
    t.ppu.colRaw = s.ppu.colRaw ∧ t.ppu.colPal = s.ppu.colPal := by
  cases w with
  | colourPalette => exact absurd rfl (hpalette _ _)
  | _ => exact ⟨rfl, rfl⟩

theorem monoTable (w : InstrWrites s i (.next t)) (hpalette : ∀ k d, i ≠ .setMonoPalette k d) :
    t.ppu.monoPal = s.ppu.monoPal := by
  cases w with
  | monoPalette => exact absurd rfl (hpalette _ _)
  | _ => rfl

theorem cache (w : InstrWrites s i (.next t)) (hvram : ∀ a d, i ≠ .writeVram a d)
    (hcolour : ∀ k d, i ≠ .setColorPalette k d) (hmono : ∀ k d, i ≠ .setMonoPalette k d) (hload : i ≠ .load)
    (hline : ∀ l, i ≠ .notifyScanline l) : t.ppu.cache = s.ppu.cache := by
  cases w with
  | vram => exact absurd rfl (hvram _ _)
  | colourPalette => exact absurd rfl (hcolour _ _)
  | monoPalette => exact absurd rfl (hmono _ _)
  | load => exact absurd rfl hload
  | line => exact absurd rfl (hline _)
  | _ => rfl

theorem frameBuffer (w : InstrWrites s i (.next t)) (hline : ∀ l, i ≠ .notifyScanline l) : t.ppu.fb = s.ppu.fb := by
  cases w with
  | line => exact absurd rfl (hline _)
  | _ => rfl

theorem sndEnabled (w : InstrWrites s i (.next t)) (hsound : ∀ e, i ≠ .setSoundEnabled e) :
    t.apu.sndEnabled = s.apu.sndEnabled := by
  cases w with
  | soundEnabled => exact absurd rfl (hsound _)
  | register _ _ _ enables | render _ _ enables => exact enables.1
  | _ => rfl

theorem chEnabled (w : InstrWrites s i (.next t)) (hchannel : ∀ n e, i ≠ .setChannelEnable n e) :
    t.apu.chEnabled = s.apu.chEnabled := by
  cases w with
  | channelEnable => exact absurd rfl (hchannel _ _)
  | register _ _ _ enables | render _ _ enables => exact enables.2
  | _ => rfl

theorem apu (w : InstrWrites s i (.next t)) (hio : NotIoWrite i) (hchannel : ∀ n e, i ≠ .setChannelEnable n e)
    (hsound : ∀ e, i ≠ .setSoundEnabled e) (hrender : ∀ n, i ≠ .render n) : t.apu = s.apu := by
  cases w with
  | register hk d => exact absurd hio (not_notIoWrite hk d)
  | channelEnable => exact absurd rfl (hchannel _ _)
  | soundEnabled => exact absurd rfl (hsound _)
  | render => exact absurd rfl (hrender _)
  | _ => rfl

theorem divisor (w : InstrWrites s i (.next t)) (hspeed : ∀ n, i ≠ .setSpeed n) : t.pace.divisor = s.pace.divisor := by
  cases w with
  | speed => exact absurd rfl (hspeed _)
  | tick divisor | endFrame divisor | render _ divisor => exact divisor
  | _ => rfl

theorem pace (w : InstrWrites s i (.next t)) (hspeed : ∀ n, i ≠ .setSpeed n) (htick : i ≠ .tick) (hframe : i ≠ .endFrame)
    (hrender : ∀ n, i ≠ .render n) : t.pace = s.pace := by
  cases w with
  | speed => exact absurd rfl (hspeed _)
  | tick => exact absurd rfl htick
  | endFrame => exact absurd rfl hframe
  | render => exact absurd rfl (hrender _)
  | _ => rfl

/-- What only `load` sets of a cartridge (10_state.md R44, R45). -/
theorem loadedFields (w : InstrWrites s i (.next t)) (hload : i ≠ .load) :
    t.cart.map (fun c => (c.nrom, c.rom, c.nram, c.typeCode, c.colour, c.battery)) =
      s.cart.map (fun c => (c.nrom, c.rom, c.nram, c.typeCode, c.colour, c.battery)) := by
  cases w with
  | load => exact absurd rfl hload
  | ram _ _ _ hc | save hc | rtcByte _ _ hc | skip hc | clock hc => rw [hc]; rfl
  | _ => rfl

theorem ramBytes (w : InstrWrites s i (.next t)) (hload : i ≠ .load) (hram : ∀ b o d, i ≠ .ramWrite b o d)
    (hsave : i ≠ .loadSave) : t.cart.map (·.ram) = s.cart.map (·.ram) := by
  cases w with
  | load => exact absurd rfl hload
  | ram => exact absurd rfl (hram _ _ _)
  | save => exact absurd rfl hsave
  | rtcByte _ _ hc | skip hc | clock hc => rw [hc]; rfl
  | _ => rfl

theorem rtcRegisters (w : InstrWrites s i (.next t)) (hload : i ≠ .load) (hsave : i ≠ .loadSave)
    (hrtc : ∀ k d, i ≠ .rtcWrite k d) (hclock : i ≠ .tickRtc) (hskip : i ≠ .skipRtc) :
    t.cart.map (·.rtc) = s.cart.map (·.rtc) := by
  cases w with
  | load => exact absurd rfl hload
  | save => exact absurd rfl hsave
  | rtcByte => exact absurd rfl (hrtc _ _)
  | clock => exact absurd rfl hclock
  | skip => exact absurd rfl hskip
  | ram _ _ _ hc => rw [hc]; rfl
  | _ => rfl

theorem rtcLast (w : InstrWrites s i (.next t)) (hload : i ≠ .load) (hsave : i ≠ .loadSave) (hclock : i ≠ .tickRtc) :
    t.cart.map (·.rtcLast) = s.cart.map (·.rtcLast) := by
  cases w with
  | load => exact absurd rfl hload
  | save => exact absurd rfl hsave
  | clock => exact absurd rfl hclock
  | ram _ _ _ hc | rtcByte _ _ hc | skip hc => rw [hc]; rfl
  | _ => rfl

end InstrWrites
end Writers

/-- Settles O59: a call stays within its own writes, so a piece of state that none of them names is as before. -/
theorem eachPieceOfStateHasItsOwnWriters : Obligations.EachPieceOfStateHasItsOwnWriters := by
  intro i s t h
  obtain ⟨hconfig, hpending, hinputs⟩ := exec_next_keeps h
  have w : InstrWrites s i (.next t) := h ▸ exec_instrWrites i s
  exact ⟨hconfig, hpending, hinputs, w.io, w.vramBanks, w.bankSelect, w.oamBytes, w.lcdc, w.colourTable, w.monoTable, w.cache,
    w.frameBuffer, w.sndEnabled, w.chEnabled, w.apu, w.divisor, w.pace, w.loadedFields, w.ramBytes, w.rtcRegisters, w.rtcLast⟩

end Sys2Proof.Machine
end

section
/-! Command words (spec/30_encoding.md R121 to R124): a call's word is read back field by field; and what the decoder can
read from any word, said once as a predicate with one case per answer. That a word has one meaning and which words are no
command follow from the predicate. -/

namespace Sys2Proof

open Machine

/-! ### Words by their fields -/

/-- The word with the fields `f` (R122). -/
def CmdFields.word (f : CmdFields) : CmdWord := pack f.op f.a f.b f.d

theorem word_of (w : CmdWord) : (CmdFields.of w).word = w := pack_of w

theorem decode_pack (op : Byte) (a : BitVec 16) (b : BitVec 32) (d : Byte) :
    decode (pack op a b d) = ({ op, a, b, d } : CmdFields).verdict := by
  rw [decode, of_pack]

theorem pack_eq_zero_iff (op : Byte) (a : BitVec 16) (b : BitVec 32) (d : Byte) :
    pack op a b d = 0 ↔ op = 0 ∧ a = 0 ∧ b = 0 ∧ d = 0 := by
  constructor
  · intro h
    have fields : CmdFields.of (pack op a b d) = CmdFields.of (pack 0 0 0 0) := congrArg _ (h.trans (by decide))
    simpa only [of_pack, CmdFields.mk.injEq] using fields
  · rintro ⟨rfl, rfl, rfl, rfl⟩
    decide

/-- A word is zero under a mask that leaves `OP` out exactly if its fields are zero under the mask's fields. -/
theorem word_and_mask_eq_zero_iff (f : CmdFields) (a : BitVec 16) (b : BitVec 32) (d : Byte) :
    f.word &&& pack 0 a b d = 0 ↔ f.a &&& a = 0 ∧ f.b &&& b = 0 ∧ f.d &&& d = 0 := by
  rw [CmdFields.word, Laws.Row.pack_and, pack_eq_zero_iff]
  simp

/-- Bits 7:1 of a byte are zero exactly if the byte is zero under the mask 0xFE (R123). -/
theorem flag_unused_iff (d : Byte) : d.extractLsb' 1 7 = 0#7 ↔ d &&& 0xFE#8 = 0#8 := by
  revert d; decide

/-! ### A call's word is read back -/

/-- Settles O2: the fields of a call's word are the ones it was packed from, and the decoder's row of their `OP` makes the
call of them; a flag comes back from its byte. -/
theorem decodeOfEncodeIsIdentity : Obligations.DecodeOfEncodeIsIdentity := by
  intro i
  cases i with
  | setChannelEnable _ e | setSoundEnabled e =>
    simp only [encode, decode_pack, CmdFields.verdict, CmdFields.formBE, CmdFields.formE, flagByte_bit, flagByte_unused]
    rfl
  | _ => exact (decode_pack ..).trans rfl

/-- Settles O1: each of the words is the word of its call, and so decodes to it. -/
theorem tableWordsDecodeToTheirCalls : Obligations.TableWordsDecodeToTheirCalls := by
  have read {w : CmdWord} {i : Instr} (h : encode i = w) : decode w = .instr i := h ▸ decodeOfEncodeIsIdentity i
  exact ⟨read rfl, read rfl, read rfl, read rfl, read rfl, read rfl, read rfl, read rfl, read rfl, read rfl⟩

/-! ### Register writes (R124) -/

theorem ioWriteVerdict_outside {r : BitVec 32} (d : Byte) (h : r.toNat < 0x10 ∨ 0x25 < r.toNat) :
    ioWriteVerdict r d = .ioWriteOutside r d := by
  unfold ioWriteVerdict
  split
  case h_23 => rfl
  all_goals omega

/-- Each call of the table is `ioWrite` of its number: the decoder reads it from the number, its word packs the number. -/
theorem ioWriteCalls_read (d : Byte) : ∀ call ∈ ioWriteCalls d,
    ioWriteVerdict (BitVec.ofNat 32 call.1) d = .instr call.2 ∧
      encode call.2 = pack 0x20 0 (BitVec.ofNat 32 call.1) d := by
  intro call h
  fin_cases h <;> exact ⟨rfl, rfl⟩

/-- A register number of the table decodes to a call, whose word packs it. -/
theorem ioWriteVerdict_inside {r : BitVec 32} (d : Byte) (h : 0x10 ≤ r.toNat ∧ r.toNat ≤ 0x25) :
    ∃ i, ioWriteVerdict r d = .instr i ∧ encode i = pack 0x20 0 r d := by
  have numbers : (ioWriteCalls d).map Prod.fst = List.range' 0x10 22 := rfl
  have mem : r.toNat ∈ (ioWriteCalls d).map Prod.fst := by
    rw [numbers, List.mem_range'_1]
    omega
  obtain ⟨call, hcall, hnumber⟩ := List.mem_map.1 mem
  have hr : BitVec.ofNat 32 call.1 = r := by simp [hnumber]
  exact ⟨call.2, hr ▸ ioWriteCalls_read d call hcall⟩

/-- Settles O5: such a word packs the fields of `ioWrite` with A zero, and its verdict raises on the latched state. -/
theorem ioWriteOutsideItsRangeFaults : Obligations.IoWriteOutsideItsRangeFaults := by
  intro s inp rest r d hp hr
  have hd : decode (pack 0x20 0 r d) = .ioWriteOutside r d := (decode_pack ..).trans (ioWriteVerdict_outside d hr)
  refine ⟨hd, ?_⟩
  rw [step_call s _ rest hp, hd]
  rfl

/-! ### What the decoder can read from a word -/

/-- What the decoder may answer on the fields `f` (R121, R123): that no operation has their `OP`; that a field which the
operation with this `OP` leaves unused is not zero; or, with every unused field zero, a call whose word has these fields, or
`ioWrite` outside the table with these fields. -/
inductive CmdFields.Reads (f : CmdFields) : Verdict → Prop
  | unknown (noRow : ∀ form ∈ commandForms, form.1 ≠ f.op) : f.Reads (.invalid (.unknownOp f.op))
  | unused {mask : CmdWord} (row : (f.op, mask) ∈ commandForms) (notZero : f.word &&& mask ≠ 0) :
      f.Reads (.invalid .unusedFieldNotZero)
  | call {mask : CmdWord} (row : (f.op, mask) ∈ commandForms) (zero : f.word &&& mask = 0) {i : Instr}
      (word : encode i = f.word) : f.Reads (.instr i)
  | outside {mask : CmdWord} (row : (f.op, mask) ∈ commandForms) (zero : f.word &&& mask = 0) {r : BitVec 32} {d : Byte}
      (word : pack 0x20 0 r d = f.word) (range : r.toNat < 0x10 ∨ 0x25 < r.toNat) : f.Reads (.ioWriteOutside r d)

section Forms
variable {f : CmdFields} {n : Nat} {a : BitVec 16} {b : BitVec 32} {d : Byte} {z : Bool}

/-- A gated verdict is a reading if the gate tests the bits of the operation's mask and the verdict is a reading where they
are zero. -/
theorem gate_reads {v : Verdict} (op : f.op.toNat = n) (row : (.ofNat 8 n, pack 0 a b d) ∈ commandForms)
    (test : z = true ↔ f.a &&& a = 0 ∧ f.b &&& b = 0 ∧ f.d &&& d = 0)
    (read : (f.op, pack 0 a b d) ∈ commandForms → f.word &&& pack 0 a b d = 0 → z = true → f.Reads v) :
    f.Reads (f.gate z v) := by
  have hop : BitVec.ofNat 8 n = f.op := by simp [← op]
  rw [hop] at row
  rw [← word_and_mask_eq_zero_iff] at test
  cases z with
  | true => exact read row (test.1 rfl) rfl
  | false => exact .unused row fun zero => nomatch test.2 zero

theorem gate_call_reads {i : Instr} (op : f.op.toNat = n) (row : (.ofNat 8 n, pack 0 a b d) ∈ commandForms)
    (test : z = true ↔ f.a &&& a = 0 ∧ f.b &&& b = 0 ∧ f.d &&& d = 0)
    (word : z = true → encode i = pack (.ofNat 8 n) f.a f.b f.d) : f.Reads (f.gate z (.instr i)) :=
  gate_reads op row test fun row zero hz => .call row zero (by rw [word hz, ← op]; simp [CmdFields.word])

theorem form0_reads {i : Instr} (op : f.op.toNat = n)
    (row : (.ofNat 8 n, pack 0 (.allOnes 16) (.allOnes 32) (.allOnes 8)) ∈ commandForms)
    (word : encode i = pack (.ofNat 8 n) 0 0 0) : f.Reads (f.form0 i) := by
  refine gate_call_reads op row ?_ ?_
  · simp [and_assoc, -BitVec.reduceAllOnes]
  · simp +contextual [word]

theorem formD_reads {k : Byte → Instr} (op : f.op.toNat = n)
    (row : (.ofNat 8 n, pack 0 (.allOnes 16) (.allOnes 32) 0) ∈ commandForms)
    (word : ∀ d, encode (k d) = pack (.ofNat 8 n) 0 0 d) : f.Reads (f.formD k) := by
  refine gate_call_reads op row ?_ ?_
  · simp [-BitVec.reduceAllOnes]
  · simp +contextual [word]

theorem formE_reads {k : Bool → Instr} (op : f.op.toNat = n)
    (row : (.ofNat 8 n, pack 0 (.allOnes 16) (.allOnes 32) 0xFE) ∈ commandForms)
    (word : ∀ e, encode (k e) = pack (.ofNat 8 n) 0 0 (flagByte e)) : f.Reads (f.formE k) := by
  refine gate_call_reads op row ?_ fun zero => ?_
  · simp [and_assoc, flag_unused_iff, -BitVec.reduceAllOnes]
  · obtain ⟨⟨ha, hb⟩, hd⟩ : (f.a = 0 ∧ f.b = 0) ∧ f.d.extractLsb' 1 7 = 0 := by simpa using zero
    rw [word, flagByte_of f.d hd, ha, hb]

theorem formB_reads {k : BitVec 32 → Instr} (op : f.op.toNat = n)
    (row : (.ofNat 8 n, pack 0 (.allOnes 16) 0 (.allOnes 8)) ∈ commandForms)
    (word : ∀ b, encode (k b) = pack (.ofNat 8 n) 0 b 0) : f.Reads (f.formB k) := by
  refine gate_call_reads op row ?_ ?_
  · simp [-BitVec.reduceAllOnes]
  · simp +contextual [word]

theorem formBD_reads {k : BitVec 32 → Byte → Instr} (op : f.op.toNat = n)
    (row : (.ofNat 8 n, pack 0 (.allOnes 16) 0 0) ∈ commandForms)
    (word : ∀ b d, encode (k b d) = pack (.ofNat 8 n) 0 b d) : f.Reads (f.formBD k) := by
  refine gate_call_reads op row ?_ ?_
  · simp [-BitVec.reduceAllOnes]
  · simp +contextual [word]

theorem formBE_reads {k : BitVec 32 → Bool → Instr} (op : f.op.toNat = n)
    (row : (.ofNat 8 n, pack 0 (.allOnes 16) 0 0xFE) ∈ commandForms)
    (word : ∀ b e, encode (k b e) = pack (.ofNat 8 n) 0 b (flagByte e)) : f.Reads (f.formBE k) := by
  refine gate_call_reads op row ?_ fun zero => ?_
  · simp [flag_unused_iff, -BitVec.reduceAllOnes]
  · obtain ⟨ha, hd⟩ : f.a = 0 ∧ f.d.extractLsb' 1 7 = 0 := by simpa using zero
    rw [word, flagByte_of f.d hd, ha]

theorem formAB_reads {k : BitVec 16 → BitVec 32 → Instr} (op : f.op.toNat = n)
    (row : (.ofNat 8 n, pack 0 0 0 (.allOnes 8)) ∈ commandForms)
    (word : ∀ a b, encode (k a b) = pack (.ofNat 8 n) a b 0) : f.Reads (f.formAB k) := by
  refine gate_call_reads op row ?_ ?_
  · simp [-BitVec.reduceAllOnes]
  · simp +contextual [word]

theorem formABD_reads {k : BitVec 16 → BitVec 32 → Byte → Instr} (op : f.op.toNat = n)
    (row : (.ofNat 8 n, pack 0 0 0 0) ∈ commandForms)
    (word : ∀ a b d, encode (k a b d) = pack (.ofNat 8 n) a b d) : f.Reads (f.formABD k) := by
  refine gate_call_reads op row ?_ ?_
  · simp
  · simp [word]

/-- `ioWrite`: a register of the table, or outside it (R124). -/
theorem ioWrite_reads (op : f.op.toNat = 0x20) : f.Reads (f.gate (f.a == 0) (ioWriteVerdict f.b f.d)) := by
  refine gate_reads (a := .allOnes 16) (b := 0) (d := 0) op (by decide) ?_ fun row zero ha => ?_
  · simp [-BitVec.reduceAllOnes]
  have word : f.word = pack 0x20 0 f.b f.d := by
    rw [CmdFields.word, eq_of_beq ha, BitVec.eq_of_toNat_eq (y := 0x20) op]
  by_cases inside : 0x10 ≤ f.b.toNat ∧ f.b.toNat ≤ 0x25
  · obtain ⟨i, read, hi⟩ := ioWriteVerdict_inside f.d inside
    exact read ▸ .call row zero (hi.trans word.symm)
  · have outside : f.b.toNat < 0x10 ∨ 0x25 < f.b.toNat := by omega
    exact ioWriteVerdict_outside f.d outside ▸ .outside row zero word.symm outside

end Forms

theorem verdict_reads (f : CmdFields) : f.Reads f.verdict := by
  unfold CmdFields.verdict
  split
  next op => exact formD_reads op (by decide) fun _ => rfl
  next op => exact formBD_reads op (by decide) fun _ _ => rfl
  next op => exact formD_reads op (by decide) fun _ => rfl
  next op => exact formBD_reads op (by decide) fun _ _ => rfl
  next op => exact formBD_reads op (by decide) fun _ _ => rfl
  next op => exact formBD_reads op (by decide) fun _ _ => rfl
  next op => exact formB_reads op (by decide) fun _ => rfl
  next op => exact form0_reads op (by decide) rfl
  next op => exact formBD_reads op (by decide) fun _ _ => rfl
  next op => exact form0_reads op (by decide) rfl
  next op => exact formB_reads op (by decide) fun _ => rfl
  next op => exact ioWrite_reads op
  next op => exact formBE_reads op (by decide) fun _ _ => rfl
  next op => exact formE_reads op (by decide) fun _ => rfl
  next op => exact formB_reads op (by decide) fun _ => rfl
  next op => exact form0_reads op (by decide) rfl
  next op => exact form0_reads op (by decide) rfl
  next op => exact form0_reads op (by decide) rfl
  next op => exact form0_reads op (by decide) rfl
  next op => exact form0_reads op (by decide) rfl
  next op => exact form0_reads op (by decide) rfl
  next op => exact formAB_reads op (by decide) fun _ _ => rfl
  next op => exact formAB_reads op (by decide) fun _ _ => rfl
  next op => exact formABD_reads op (by decide) fun _ _ _ => rfl
  next op => exact formB_reads op (by decide) fun _ => rfl
  next op => exact formBD_reads op (by decide) fun _ _ => rfl
  next =>
    refine .unknown fun form mem eq => ?_
    have number : f.op.toNat = form.1.toNat := congrArg _ eq.symm
    fin_cases mem <;> contradiction

/-- Every word is read with its fields. -/
theorem decode_reads (w : CmdWord) : (CmdFields.of w).Reads (decode w) := verdict_reads _

/-- Settles O3: the reading of a word as a call holds that the call's word has its fields. -/
theorem encodeOfDecodeIsIdentity : Obligations.EncodeOfDecodeIsIdentity := by
  intro w i h
  cases h ▸ decode_reads w with
  | call _ _ word => exact word.trans (word_of w)

/-- An `OP` has one row in the table (R121). -/
theorem commandForms_ops_nodup : (commandForms.map Prod.fst).Nodup := by decide

/-- Settles O4: of the four readings, the two rejections are those where no row of the table fits. -/
theorem nonCommandsAreExactlyRejected : Obligations.NonCommandsAreExactlyRejected := by
  intro w
  have reads := decode_reads w
  generalize decode w = v at reads
  cases reads with
  | unknown noRow => exact ⟨fun _ ⟨form, mem, op, _⟩ => noRow form mem op.symm, fun _ => ⟨_, rfl⟩⟩
  | unused row notZero =>
    rw [word_of] at notZero
    refine ⟨fun _ ⟨form, mem, op, zero⟩ => notZero ?_, fun _ => ⟨_, rfl⟩⟩
    obtain rfl := List.inj_on_of_nodup_map commandForms_ops_nodup row mem op
    exact zero
  | call row zero | outside row zero =>
    rw [word_of] at zero
    exact ⟨nofun, fun none => absurd ⟨_, row, rfl, zero⟩ none⟩


end Sys2Proof
end

section
/-! What each call does on a loaded cartridge (spec/41_cartridge.md R150 to R168): its operand check passed, or not. What `load`
makes, and the reads and stores of a bank's byte and of a clock register, follow. -/

namespace Sys2Proof.Machine

/-! ### The calls on a loaded cartridge -/

section Loaded
variable {s : State} {c : Cartridge} (hc : s.cart = some c)
include hc

theorem exec_hasBattery : exec .hasBattery s = .next { s with result := .bool c.battery } := withCart_some s _ c hc

theorem exec_romRead {b : BitVec 16} {o : BitVec 32} (hb : b.toNat < c.nrom) (ho : o.toNat < s.config.romBankSize) :
    exec (.romRead b o) s = .next { s with result := .byte (c.romByte s.config b.toNat o.toNat) } :=
  (withCart_some s _ c hc).trans (if_neg (by omega))

theorem exec_ramRead {b : BitVec 16} {o : BitVec 32} (hb : b.toNat < c.nram) (ho : o.toNat < s.config.ramBankSize) :
    exec (.ramRead b o) s = .next { s with result := .byte (c.ramByte s.config b.toNat o.toNat) } :=
  (withCart_some s _ c hc).trans (if_neg (by omega))

theorem exec_ramWrite {b : BitVec 16} {o : BitVec 32} (d : Byte) (hb : b.toNat < c.nram)
    (ho : o.toNat < s.config.ramBankSize) :
    exec (.ramWrite b o d) s = .next { s with cart := some (c.putRam s.config b.toNat o.toNat d), result := .none } :=
  (withCart_some s _ c hc).trans (if_neg (by omega))

theorem exec_ramWrite_outside {b : BitVec 16} {o : BitVec 32} (d : Byte)
    (h : c.nram ≤ b.toNat ∨ s.config.ramBankSize ≤ o.toNat) :
    exec (.ramWrite b o d) s = .next { s with result := .fault .invalidArgument } :=
  (withCart_some s _ c hc).trans (if_pos h)

theorem exec_rtcRead {i : BitVec 32} (hi : i.toNat ≤ 4) :
    exec (.rtcRead i) s = .next { s with result := .byte (c.rtc.get i.toNat) } :=
  (withCart_some s _ c hc).trans (if_neg (by omega))

theorem exec_rtcWrite {i : BitVec 32} (d : Byte) (hi : i.toNat ≤ 4) :
    exec (.rtcWrite i d) s = .next { s with cart := some { c with rtc := c.rtc.put i.toNat d }, result := .none } :=
  (withCart_some s _ c hc).trans (if_neg (by omega))

theorem exec_rtcWrite_outside {i : BitVec 32} (d : Byte) (hi : 4 < i.toNat) :
    exec (.rtcWrite i d) s = .next { s with result := .fault .invalidArgument } :=
  (withCart_some s _ c hc).trans (if_pos hi)

theorem exec_tickRtc :
    exec .tickRtc s = .next { s with cart := some (c.tickRtc s.inputs.now), result := .none } := withCart_some s _ c hc

theorem exec_skipRtc :
    exec .skipRtc s = .next { s with cart := some { c with rtc := c.rtc.skip s.inputs.seconds.toInt }, result := .none } :=
  withCart_some s _ c hc

theorem exec_dumpSave :
    exec .dumpSave s = .next { s with result := .bytes (c.saveImage s.config s.inputs.now) } := withCart_some s _ c hc

theorem exec_loadSave :
    exec .loadSave s =
      .next { s with cart := some (c.loadSave s.config s.inputs.bytes s.inputs.now), result := .none } :=
  withCart_some s _ c hc

end Loaded

/-! ### Loading -/

/-- The bank counts of the eleven ROM size bytes (R151). -/
theorem romBanks_of_mem {v : Byte} (h : v ∈ romSizeBytes) : romBanks v = some
    (if v.toNat < 8 then 2 * 2 ^ v.toNat else if v.toNat = 0x52 then 72 else if v.toNat = 0x53 then 80 else 96) := by
  revert v; decide

/-- The bank count of every RAM size byte (R154). -/
theorem ramBanks_eq (v : Byte) :
    ramBanks v = if v.toNat = 3 then 4 else if 4 ≤ v.toNat ∧ v.toNat ≤ 6 then 16 else 1 := by
  revert v; decide

/-- A byte inside the part of an image that is kept. -/
theorem getD_take (l : List Byte) {n k : Nat} (h : k < n) : (l.take n).getD k 0 = l.getD k 0 := by
  simp only [List.getD_eq_getElem?_getD, List.getElem?_take_of_lt h]

/-- A loaded ROM reads as the image inside its banks (R152). -/
theorem romByte_ofImage (cfg : Config) {nrom b o : Nat} (image : List Byte) (hb : b < nrom) (ho : o < cfg.romBankSize) :
    (Cartridge.ofImage cfg nrom image).romByte cfg b o = byteAt image (b * cfg.romBankSize + o) :=
  (read_ofBytes _ _).trans (getD_take image (bank_offset_lt hb ho))

/-- Settles O12: a ROM size byte of the eleven has a bank count, and the cartridge made with it is read field by field. -/
theorem loadMakesTheCartridge : Obligations.LoadMakesTheCartridge := by
  intro s size
  have banks := romBanks_of_mem size
  refine ⟨_, _, by simp only [exec, execLoad, banks]; rfl, rfl, rfl, ramBanks_eq _,
    fun b o hb ho => romByte_ofImage s.config _ hb ho, fun _ _ _ _ => rfl, rfl, rfl, ?_, ?_, rfl, rfl⟩
  · exact List.contains_iff_mem
  · intro i hi
    interval_cases i <;> rfl

/-! ### One byte of RAM, one register of the clock -/

theorem ramByte_putRam_same (cfg : Config) (c : Cartridge) (b o : Nat) (d : Byte) :
    (c.putRam cfg b o d).ramByte cfg b o = d := read_write_same ..

/-- Settles O15: the store is one write of the RAM, which reads back there and leaves every other byte. -/
theorem ramWriteStoresOneByte : Obligations.RamWriteStoresOneByte := by
  intro s c b o d hc
  refine ⟨rfl, exec_ramWrite_outside hc d, fun hb ho => ⟨_, _, exec_ramWrite hc d hb ho, fun k => ?_, rfl, rfl, ?_⟩⟩
  · split
    · next h => rw [h]; exact read_write_same ..
    · next h => exact read_write_other _ _ _ _ h
  · have read := exec_ramRead (s := { s with cart := some (c.putRam s.config b.toNat o.toNat d), result := .none }) rfl hb ho
    rwa [ramByte_putRam_same] at read

/-- Settles O16: the store is one write of the registers, which reads back there and leaves the other four. -/
theorem rtcWriteStoresOneRegister : Obligations.RtcWriteStoresOneRegister := by
  intro s c i d hc
  refine ⟨rfl, exec_rtcWrite_outside hc d, fun hi => ⟨_, _, exec_rtcWrite hc d hi, fun j hj => ?_, rfl, rfl⟩⟩
  split
  · next h => rw [h]; exact Rtc.get_put_same _ _ _ hi
  · next h => exact Rtc.get_put_other _ _ _ _ hi hj h

/-- The registers by index are the five in order (spec/10_state.md R46). -/
theorem Rtc.get_eq_getD (r : Rtc) {i : Nat} (hi : i ≤ 4) : r.get i = r.bytes.getD i 0 := by
  interval_cases i <;> rfl

/-- Settles O14: each read's word is its row's, and its answer is the stored value. -/
theorem cartridgeReadsAnswerAndChangeNothing : Obligations.CartridgeReadsAnswerAndChangeNothing := by
  refine ⟨rfl, fun _ _ => ⟨rfl, rfl⟩, fun _ => rfl, fun s c hc => ⟨exec_hasBattery hc, ?_, ?_, ?_⟩⟩
  · exact fun _ _ => exec_romRead hc
  · exact fun _ _ => exec_ramRead hc
  · intro i hi
    rw [exec_rtcRead hc hi, Rtc.get_eq_getD _ hi]
    rfl

end Sys2Proof.Machine
end

section
/-! The real-time clock (spec/41_cartridge.md R169 to R174). Where the carry chain and the bulk catch-up take the registers is
said once, by `Rtc.Shows`, which fixes all five, so the two can be compared by the numbers they show. -/

namespace Sys2Proof.Machine

/-! ### The registers by what they show -/

/-- The registers show the time of day `h:m:s`, the day count `d` modulo 512, the carry flag of `high` or one set by a day
count past 511, and bits 6:1 of `high` (R172, R173). -/
structure Rtc.Shows (r : Rtc) (s m h d : Nat) (high : Byte) : Prop where
  sec : r.sec.toNat = s
  min : r.min.toNat = m
  hour : r.hour.toNat = h
  day : r.day = d % 512
  carry : r.dayHigh.getLsbD 7 = (high.getLsbD 7 || decide (d > 511))
  kept : ∀ i, 1 ≤ i → i ≤ 6 → r.dayHigh.getLsbD i = high.getLsbD i

theorem Rtc.shows_self (r : Rtc) : r.Shows r.sec.toNat r.min.toNat r.hour.toNat r.day r.dayHigh where
  sec := rfl
  min := rfl
  hour := rfl
  day := (Nat.mod_eq_of_lt r.day_lt).symm
  carry := by simp [Nat.le_of_lt_succ r.day_lt]
  kept _ _ _ := rfl

/-- The day counter determines its two parts. -/
theorem Rtc.day_parts {r q : Rtc} (eq : r.day = q.day) :
    r.dayLow = q.dayLow ∧ r.dayHigh.getLsbD 0 = q.dayHigh.getLsbD 0 := by
  have hr := r.dayLow.isLt
  have hq := q.dayLow.isLt
  unfold Rtc.day at eq
  have bit_injective : ∀ b b' : Bool, bitNat b = bitNat b' → b = b' := by decide
  have bit0 : bitNat (Byte.bit r.dayHigh 0) = bitNat (Byte.bit q.dayHigh 0) := by omega
  exact ⟨BitVec.eq_of_toNat_eq (by omega), bit_injective _ _ bit0⟩

/-- Registers that show the same are the same. -/
theorem Rtc.Shows.unique {a b : Rtc} {s m h d : Nat} {high : Byte} (ha : a.Shows s m h d high)
    (hb : b.Shows s m h d high) : a = b := by
  obtain ⟨hlow, hbit0⟩ := Rtc.day_parts (ha.day.trans hb.day.symm)
  have hhigh : a.dayHigh = b.dayHigh := BitVec.eq_of_getLsbD_eq fun i hi => by
    obtain rfl | ⟨h1, h6⟩ | rfl : i = 0 ∨ (1 ≤ i ∧ i ≤ 6) ∨ i = 7 := by omega
    · exact hbit0
    · exact (ha.kept i h1 h6).trans (hb.kept i h1 h6).symm
    · exact ha.carry.trans hb.carry.symm
  have hsec := BitVec.eq_of_toNat_eq (ha.sec.trans hb.sec.symm)
  have hmin := BitVec.eq_of_toNat_eq (ha.min.trans hb.min.symm)
  have hhour := BitVec.eq_of_toNat_eq (ha.hour.trans hb.hour.symm)
  cases a
  cases b
  simp_all

/-- A second move by `k` days from the day counter of the first adds up with it: the counter is reduced and the carry flag set
on the way, or at the end. -/
theorem Rtc.Shows.trans {a b : Rtc} {s m h d s' m' h' k : Nat} {high : Byte} (ha : a.Shows s m h d high)
    (hb : b.Shows s' m' h' (a.day + k) a.dayHigh) : b.Shows s' m' h' (d + k) high where
  sec := hb.sec
  min := hb.min
  hour := hb.hour
  day := by rw [hb.day, ha.day, Nat.mod_add_mod]
  carry := by
    have past : d + k > 511 ↔ d > 511 ∨ a.day + k > 511 := by rw [ha.day]; omega
    rw [hb.carry, ha.carry, decide_eq_decide.mpr past, Bool.decide_or, Bool.or_assoc]
  kept i h1 h6 := (hb.kept i h1 h6).trans (ha.kept i h1 h6)

/-- Storing a day count, reduced, with its carry (R172, R173). -/
theorem Rtc.shows_putDay (r : Rtc) (day : Nat) :
    ((r.orCarry (decide (day > 511))).putDay (day % 512)).Shows r.sec.toNat r.min.toNat r.hour.toNat day r.dayHigh where
  sec := by unfold orCarry; split <;> rfl
  min := by unfold orCarry; split <;> rfl
  hour := by unfold orCarry; split <;> rfl
  day := Rtc.day_putDay _ _ (Nat.mod_lt _ (by decide))
  carry := by
    have h := (Rtc.carry_putDay (r.orCarry (decide (day > 511))) (day % 512)).trans (Rtc.carry_orCarry r _)
    rwa [Bool.or_comm] at h
  kept i h1 h6 := by
    have high : (r.orCarry (decide (day > 511))).dayHigh.getLsbD i = r.dayHigh.getLsbD i := by
      unfold orCarry
      split
      · exact (orCarry_high _ i (by omega)).trans (if_neg (by omega))
      · rfl
    exact ((putDay_high _ _ i (by omega)).trans (if_neg (by omega))).trans high

/-! ### The carry chain (R172) -/

section Chain
variable {r : Rtc}

theorem Rtc.advanceSecond_sec (hs : r.sec.toNat + 1 < 60) : r.advanceSecond = { r with sec := r.sec + 1 } :=
  if_neg (Nat.not_le.mpr hs)

theorem Rtc.advanceSecond_min (hs : 60 ≤ r.sec.toNat + 1) (hm : r.min.toNat + 1 < 60) :
    r.advanceSecond = { r with sec := 0, min := r.min + 1 } :=
  (if_pos hs).trans (if_neg (Nat.not_le.mpr hm))

theorem Rtc.advanceSecond_hour (hs : 60 ≤ r.sec.toNat + 1) (hm : 60 ≤ r.min.toNat + 1) (hh : r.hour.toNat + 1 < 24) :
    r.advanceSecond = { r with sec := 0, min := 0, hour := r.hour + 1 } :=
  (if_pos hs).trans ((if_pos hm).trans (if_neg (Nat.not_le.mpr hh)))

/-- The day rolls over by one, its count reduced and its carry set past 511. -/
theorem Rtc.advanceSecond_day (hs : 60 ≤ r.sec.toNat + 1) (hm : 60 ≤ r.min.toNat + 1) (hh : 24 ≤ r.hour.toNat + 1) :
    r.advanceSecond.Shows 0 0 0 (r.day + 1) r.dayHigh := by
  have shows := ({ r with sec := 0, min := 0, hour := 0 } : Rtc).shows_putDay (r.day + 1)
  suffices step : r.advanceSecond = _ from step ▸ shows
  refine ((if_pos hs).trans ((if_pos hm).trans (if_pos hh))).trans ?_
  have lt := r.day_lt
  change (if r.day + 1 > 511 then _ else _) = _
  split
  · next past => rw [decide_eq_true past, show (r.day + 1) % 512 = 0 by omega]
  · next past => rw [decide_eq_false past, show (r.day + 1) % 512 = r.day + 1 by omega]; rfl

/-- What the registers show after one second, by the first of them that does not roll over. -/
theorem Rtc.advanceSecond_cases (r : Rtc) :
    (r.sec.toNat + 1 < 60 ∧ r.advanceSecond.Shows (r.sec.toNat + 1) r.min.toNat r.hour.toNat r.day r.dayHigh) ∨
    (60 ≤ r.sec.toNat + 1 ∧ r.min.toNat + 1 < 60 ∧
      r.advanceSecond.Shows 0 (r.min.toNat + 1) r.hour.toNat r.day r.dayHigh) ∨
    (60 ≤ r.sec.toNat + 1 ∧ 60 ≤ r.min.toNat + 1 ∧ r.hour.toNat + 1 < 24 ∧
      r.advanceSecond.Shows 0 0 (r.hour.toNat + 1) r.day r.dayHigh) ∨
    (60 ≤ r.sec.toNat + 1 ∧ 60 ≤ r.min.toNat + 1 ∧ 24 ≤ r.hour.toNat + 1 ∧
      r.advanceSecond.Shows 0 0 0 (r.day + 1) r.dayHigh) := by
  have succ {b : Byte} (hb : b.toNat + 1 < 60) : (b + 1).toNat = b.toNat + 1 := by
    rw [BitVec.toNat_add]
    exact Nat.mod_eq_of_lt (hb.trans (by decide))
  obtain sec | sec := Nat.lt_or_ge (r.sec.toNat + 1) 60
  · rw [advanceSecond_sec sec, ← succ sec]
    exact .inl ⟨by rwa [succ sec], shows_self _⟩
  obtain min | min := Nat.lt_or_ge (r.min.toNat + 1) 60
  · rw [advanceSecond_min sec min, ← succ min]
    exact .inr (.inl ⟨sec, by rwa [succ min], shows_self _⟩)
  obtain hour | hour := Nat.lt_or_ge (r.hour.toNat + 1) 24
  · rw [advanceSecond_hour sec min hour, ← succ (hour.trans (by decide))]
    exact .inr (.inr (.inl ⟨sec, min, by rwa [succ (hour.trans (by decide))], shows_self _⟩))
  · exact .inr (.inr (.inr ⟨sec, min, hour, advanceSecond_day sec min hour⟩))

end Chain

/-- Settles O18: three of the four ends store one register each; in the fourth the day moves by one. -/
theorem advanceSecondIsTheCarryChain : Obligations.AdvanceSecondIsTheCarryChain := by
  intro r
  refine ⟨r.advanceSecond_sec, r.advanceSecond_min, r.advanceSecond_hour, fun hs hm hh => ?_⟩
  have shows := r.advanceSecond_day hs hm hh
  have lt := r.day_lt
  refine ⟨BitVec.eq_of_toNat_eq shows.sec, BitVec.eq_of_toNat_eq shows.min, BitVec.eq_of_toNat_eq shows.hour, shows.day, ?_,
    shows.kept⟩
  rw [shows.carry, decide_eq_decide.mpr (by omega : r.day + 1 > 511 ↔ r.day = 511)]

/-! ### The bulk catch-up (R173) -/

section Bulk
variable (r : Rtc) (n : Nat)

/-- The minutes after `n` seconds, not yet reduced. -/
def Rtc.minutesAfter : Nat := r.min.toNat + (r.sec.toNat + n) / 60

/-- The hours after `n` seconds, not yet reduced. -/
def Rtc.hoursAfter : Nat := r.hour.toNat + r.minutesAfter n / 60

/-- The days after `n` seconds, not yet reduced. -/
def Rtc.daysAfter : Nat := r.day + r.hoursAfter n / 24

/-- `r'` shows what `n` seconds from `r` make (R173). -/
def Rtc.After (r' : Rtc) : Prop :=
  r'.Shows ((r.sec.toNat + n) % 60) (r.minutesAfter n % 60) (r.hoursAfter n % 24) (r.daysAfter n) r.dayHigh

theorem Rtc.bulkAdvance_after : r.After n (r.bulkAdvance n) := by
  have reduced (k m : Nat) (pos : 0 < m) (small : m ≤ 2 ^ 8) : (BitVec.ofNat 8 (k % m)).toNat = k % m := by
    rw [BitVec.toNat_ofNat]
    exact Nat.mod_eq_of_lt ((Nat.mod_lt k pos).trans_le small)
  have shows := ({ r with
    sec := BitVec.ofNat 8 ((r.sec.toNat + n) % 60)
    min := BitVec.ofNat 8 (r.minutesAfter n % 60)
    hour := BitVec.ofNat 8 (r.hoursAfter n % 24) } : Rtc).shows_putDay (r.daysAfter n)
  rwa [reduced _ 60 (by decide) (by decide), reduced _ 60 (by decide) (by decide), reduced _ 24 (by decide) (by decide)]
    at shows

variable {r n}

theorem Rtc.After.unique {a b : Rtc} (ha : r.After n a) (hb : r.After n b) : a = b := Rtc.Shows.unique ha hb

/-- Seconds add up: what one move reduces or carries, the next goes on from. -/
theorem Rtc.After.add {a b : Rtc} {k : Nat} (ha : r.After n a) (hb : a.After k b) : r.After (n + k) b := by
  have minutes : r.minutesAfter (n + k) = 60 * (r.minutesAfter n / 60) + a.minutesAfter k := by
    have hsec := ha.sec
    have hmin := ha.min
    unfold minutesAfter at hmin ⊢
    omega
  have hours : r.hoursAfter (n + k) = 24 * (r.hoursAfter n / 24) + a.hoursAfter k := by
    have hhour := ha.hour
    unfold hoursAfter at hhour ⊢
    omega
  have days : r.daysAfter (n + k) = r.daysAfter n + a.hoursAfter k / 24 := by
    unfold daysAfter
    omega
  have seconds : (r.sec.toNat + (n + k)) % 60 = (a.sec.toNat + k) % 60 := by
    have hsec := ha.sec
    omega
  have shows := Rtc.Shows.trans ha hb
  unfold After
  rwa [seconds, minutes, hours, days, Nat.mul_add_mod, Nat.mul_add_mod]

end Bulk

/-- The time of day is in range (R174). -/
def Rtc.InRange (r : Rtc) : Prop := r.sec.toNat < 60 ∧ r.min.toNat < 60 ∧ r.hour.toNat < 24

theorem Rtc.After.inRange {r a : Rtc} {n : Nat} (h : r.After n a) : a.InRange :=
  ⟨h.sec ▸ Nat.mod_lt _ (by decide), h.min ▸ Nat.mod_lt _ (by decide), h.hour ▸ Nat.mod_lt _ (by decide)⟩

section InRange
variable {r : Rtc} (h : r.InRange)
include h

theorem Rtc.after_zero : r.After 0 r := by
  obtain ⟨hs, hm, hh⟩ := h
  have shows := r.shows_self
  unfold After daysAfter hoursAfter minutesAfter
  convert shows using 1 <;> omega

/-- One turn of the carry chain is the bulk catch-up by one second. -/
theorem Rtc.advanceSecond_after : r.After 1 r.advanceSecond := by
  obtain ⟨hs, hm, hh⟩ := h
  unfold After daysAfter hoursAfter minutesAfter
  obtain ⟨sec, shows⟩ | ⟨sec, min, shows⟩ | ⟨sec, min, hour, shows⟩ | ⟨sec, min, hour, shows⟩ := r.advanceSecond_cases <;>
    convert shows using 1 <;> omega

/-- `n` turns of the carry chain are the bulk catch-up by `n` seconds (R174). -/
theorem Rtc.iterate_advanceSecond_after (n : Nat) : r.After n (advanceSecond^[n] r) := by
  induction n with
  | zero => exact after_zero h
  | succ n ih =>
    rw [Function.iterate_succ_apply']
    exact ih.add (advanceSecond_after ih.inRange)

end InRange

/-! ### Skipping (R173, R174) -/

theorem Rtc.skip_still (r : Rtc) {seconds : Int} (h : seconds ≤ 0 ∨ r.halt = true) : r.skip seconds = r := if_pos h

theorem Rtc.skip_running (r : Rtc) {seconds : Int} (pos : 0 < seconds) (running : r.halt = false) :
    r.skip seconds = r.bulkAdvance seconds.toNat :=
  if_neg (by simp [running, pos])

/-- Settles O20: the catch-up shows the sums of R173. -/
theorem skipRtcAppliesTheBulkCatchUp : Obligations.SkipRtcAppliesTheBulkCatchUp := by
  refine ⟨rfl, fun s c hc => ⟨_, _, exec_skipRtc hc, rfl, c.rtc.skip_still, fun pos running => ?_⟩⟩
  rw [c.rtc.skip_running pos running]
  have after := c.rtc.bulkAdvance_after s.inputs.seconds.toInt.toNat
  exact ⟨after.sec, after.min, after.hour, after.day, after.carry, after.kept⟩

/-- Settles O21: from registers in range both show the same. -/
theorem skipRtcAgreesWithTheCarryChain : Obligations.SkipRtcAgreesWithTheCarryChain := by
  intro s c hc hsec hmin hhour running pos
  rw [exec_skipRtc hc, c.rtc.skip_running pos running]
  have same := (c.rtc.bulkAdvance_after _).unique
    (Rtc.iterate_advanceSecond_after ⟨hsec, hmin, hhour⟩ s.inputs.seconds.toInt.toNat)
  rw [same]

/-! ### The halt and carry flags (R169) -/

/-- The halt flag is as before, and a carry flag once set stays. -/
def Rtc.KeepsFlags (r r' : Rtc) : Prop := r'.halt = r.halt ∧ (r.carry = true → r'.carry = true)

theorem Rtc.KeepsFlags.refl (r : Rtc) : r.KeepsFlags r := ⟨rfl, id⟩

theorem Rtc.KeepsFlags.trans {a b c : Rtc} (h : a.KeepsFlags b) (h' : b.KeepsFlags c) : a.KeepsFlags c :=
  ⟨h'.1.trans h.1, h'.2 ∘ h.2⟩

theorem Rtc.Shows.keepsFlags {r r' : Rtc} {s m h d : Nat} (shows : r'.Shows s m h d r.dayHigh) : r.KeepsFlags r' := by
  refine ⟨shows.kept 6 (by decide) (by decide), fun set => ?_⟩
  have carry := shows.carry
  rwa [show r.dayHigh.getLsbD 7 = true from set, Bool.true_or] at carry

theorem Rtc.advanceSecond_keepsFlags (r : Rtc) : r.KeepsFlags r.advanceSecond := by
  obtain ⟨-, shows⟩ | ⟨-, -, shows⟩ | ⟨-, -, -, shows⟩ | ⟨-, -, -, shows⟩ := r.advanceSecond_cases <;>
    exact shows.keepsFlags

theorem Rtc.advanceSeconds_keepsFlags (k : Nat) (r : Rtc) : r.KeepsFlags (Rtc.advanceSeconds k r) := by
  induction k generalizing r with
  | zero => exact .refl r
  | succ k ih => exact r.advanceSecond_keepsFlags.trans (ih _)

theorem Rtc.skip_keepsFlags (r : Rtc) (seconds : Int) : r.KeepsFlags (r.skip seconds) := by
  unfold skip
  split
  · exact .refl r
  · exact (r.bulkAdvance_after _).keepsFlags

theorem tickRtc_keepsFlags (c : Cartridge) (now : BitVec 64) : c.rtc.KeepsFlags (c.tickRtc now).rtc := by
  obtain ⟨-, h⟩ | ⟨t0, -, -, h⟩ | ⟨t0, -, -, -, h⟩ | ⟨t0, -, -, -, h⟩ := tickRtc_cases c now <;> rw [h]
  · exact .refl _
  · exact .refl _
  · exact .refl _
  · exact c.rtc.advanceSeconds_keepsFlags _

/-! ### Ticking (R170, R171) -/

/-- Without a running clock to catch up, `tickRtc` only records the time. -/
theorem tickRtc_still {c : Cartridge} {now : BitVec 64}
    (h : ∀ t0, c.rtcLast = some t0 → c.rtc.halt = true ∨ now.toNat < t0.toNat) :
    c.tickRtc now = { c with rtcLast := some now } := by
  obtain ⟨-, eq⟩ | ⟨t0, -, -, eq⟩ | ⟨t0, -, -, -, eq⟩ | ⟨t0, last, running, le, -⟩ := tickRtc_cases c now
  · exact eq
  · exact eq
  · exact eq
  · obtain halted | gt := h t0 last
    · exact absurd (running.symm.trans halted) nofun
    · exact absurd le (Nat.not_le.mpr gt)

/-- A running clock catches up by whole seconds. -/
theorem tickRtc_running {c : Cartridge} {t0 now : BitVec 64} (last : c.rtcLast = some t0) (running : c.rtc.halt = false)
    (le : t0.toNat ≤ now.toNat) :
    ∃ t1 : BitVec 64, t1.toNat = t0.toNat + 1000 * ((now.toNat - t0.toNat) / 1000) ∧
      c.tickRtc now = { c with
        rtcLast := some t1
        rtc := c.rtc.advanceSeconds ((now.toNat - t0.toNat) / 1000) } := by
  refine ⟨BitVec.ofNat 64 (t0.toNat + 1000 * ((now.toNat - t0.toNat) / 1000)), ?_, ?_⟩
  · rw [BitVec.toNat_ofNat]
    exact Nat.mod_eq_of_lt (Nat.lt_of_le_of_lt (by omega) now.isLt)
  · obtain ⟨none, -⟩ | ⟨_, -, halted, -⟩ | ⟨t, last', -, gt, -⟩ | ⟨t, last', -, -, tick⟩ := tickRtc_cases c now
    · exact absurd (last.symm.trans none) nofun
    · exact absurd (running.symm.trans halted) nofun
    · obtain rfl := Option.some.inj (last.symm.trans last')
      exact absurd le (Nat.not_le.mpr gt)
    · obtain rfl := Option.some.inj (last.symm.trans last')
      exact tick

theorem Rtc.advanceSeconds_eq_iterate (k : Nat) (r : Rtc) : Rtc.advanceSeconds k r = Rtc.advanceSecond^[k] r := by
  induction k generalizing r with
  | zero => rfl
  | succ k ih => exact ih _

/-- Settles O17: the clock stands still, or runs for the whole seconds between the two times. -/
theorem tickRtcCatchesUpByWholeSeconds : Obligations.TickRtcCatchesUpByWholeSeconds := by
  refine ⟨rfl, fun s c hc => ⟨_, _, exec_tickRtc hc, rfl, fun none => ?_, fun t0 last => ⟨fun still => ?_, ?_⟩⟩⟩
  · exact tickRtc_still (by simp [none])
  · exact tickRtc_still fun t ht => by obtain rfl := Option.some.inj (last.symm.trans ht); exact still
  · intro running le
    obtain ⟨t1, ht1, tick⟩ := tickRtc_running last running le
    rw [Rtc.advanceSeconds_eq_iterate] at tick
    exact ⟨t1, ht1, by omega, tick⟩

/-- Ticking at `t1` on the way to `t2` loses no second: the remainder stays in `rtc_last` (R171). -/
theorem tickRtc_tickRtc {c : Cartridge} {t0 t1 t2 : BitVec 64} (last : c.rtcLast = some t0) (running : c.rtc.halt = false)
    (le1 : t0.toNat ≤ t1.toNat) (le2 : t1.toNat ≤ t2.toNat) : (c.tickRtc t1).tickRtc t2 = c.tickRtc t2 := by
  obtain ⟨a, ha, once⟩ := tickRtc_running last running le1
  obtain ⟨b, hb, direct⟩ := tickRtc_running last running (le1.trans le2)
  have running' : (c.tickRtc t1).rtc.halt = false := (tickRtc_keepsFlags c t1).1.trans running
  obtain ⟨b', hb', twice⟩ := tickRtc_running (c := c.tickRtc t1) (by rw [once]) running' (by omega : a.toNat ≤ t2.toNat)
  have seconds : (t2.toNat - t0.toNat) / 1000 = (t1.toNat - t0.toNat) / 1000 + (t2.toNat - a.toNat) / 1000 := by omega
  have hbb : b' = b := BitVec.eq_of_toNat_eq (by omega)
  rw [twice, direct, once, seconds, Rtc.advanceSeconds_add, hbb]

/-- Settles O19: on the cartridge the two ticks are one. -/
theorem tickRtcDecomposes : Obligations.TickRtcDecomposes := by
  intro s c t0 t1 t2 hc last running le1 le2
  refine ⟨_, _, _, exec_tickRtc (s := s.withNow t1) hc, exec_tickRtc rfl, exec_tickRtc (s := s.withNow t2) hc, ?_⟩
  exact congrArg some (tickRtc_tickRtc last running le1 le2)

/-- Settles O60: both operations keep the flags, and neither moves a halted clock. -/
theorem haltStopsTheClockAndCarryIsSticky : Obligations.HaltStopsTheClockAndCarryIsSticky := by
  intro s c hc
  have tick := tickRtc_keepsFlags c s.inputs.now
  have skip := c.rtc.skip_keepsFlags s.inputs.seconds.toInt
  refine ⟨_, _, _, _, exec_tickRtc hc, rfl, exec_skipRtc hc, rfl, fun halted => ?_, fun set => ⟨tick.2 set, skip.2 set⟩,
    tick.1, skip.1⟩
  rw [tickRtc_still fun _ _ => .inl halted]
  exact ⟨rfl, c.rtc.skip_still (.inr halted), rfl⟩

end Sys2Proof.Machine
end

section
/-! The save image (spec/41_cartridge.md R175 to R177): its bytes by place, what `loadSave` reads from it, and that the two are
inverse. -/

namespace Sys2Proof.Machine

/-! ### The timestamp (spec/30_encoding.md R125 l) -/

/-- A 64-bit value as the save image writes it. -/
def be64 (n : Nat) : List Byte := be32 (n / 2 ^ 32) ++ be32 (n % 2 ^ 32)

theorem getD_be64 (n : Nat) {j : Nat} (hj : j < 8) : (be64 n).getD j 0 = BitVec.ofNat 8 (n / 2 ^ (8 * (7 - j))) := by
  apply BitVec.eq_of_toNat_eq
  interval_cases j <;> simp [be64, be32] <;> omega

theorem beValue_be32 {w : Nat} (h : w < 2 ^ 32) : beValue (be32 w) = w := by
  simp only [beValue, be32, List.foldl, BitVec.toNat_ofNat]
  omega

/-- The timestamp that `restoredRtc` reads from a trailer. -/
def trailerTime (l : List Byte) : Nat := timestamp ((l.drop 5).take 4) ((l.drop 9).take 4)

/-- The timestamp of a trailer is its last eight bytes, most significant first (R176). -/
theorem trailerTime_eq_foldl (l : List Byte) (h : l.length = 13) :
    trailerTime l = (List.range 8).foldl (fun acc j => 256 * acc + (l.getD (5 + j) 0).toNat) 0 := by
  match l, h with
  | [_, _, _, _, _, _, _, _, _, _, _, _, _], _ =>
    simp [trailerTime, timestamp, beValue, List.range_succ]
    omega

/-! ### The image (R175) -/

/-- The image is the RAM followed by a trailer of thirteen bytes. -/
theorem saveImage_eq (cfg : Config) (c : Cartridge) (now : BitVec 64) :
    c.saveImage cfg now = c.ram.toBytes (c.ramSize cfg) ++ (c.rtc.bytes ++ be64 now.toNat) := by
  simp only [Cartridge.saveImage, be64, List.append_assoc]

section Image
variable (cfg : Config) (c : Cartridge) (now : BitVec 64)

theorem length_saveImage : (c.saveImage cfg now).length = c.ramSize cfg + 13 := by
  rw [saveImage_eq, List.length_append, length_toBytes]
  rfl

theorem getD_saveImage_ram {k : Nat} (hk : k < c.ramSize cfg) : (c.saveImage cfg now).getD k 0 = c.ram.read k := by
  rw [saveImage_eq, List.getD_append _ _ _ _ (by rwa [length_toBytes]), getD_toBytes _ _ _ hk]

theorem getD_saveImage_trailer (k : Nat) :
    (c.saveImage cfg now).getD (c.ramSize cfg + k) 0 = (c.rtc.bytes ++ be64 now.toNat).getD k 0 := by
  rw [saveImage_eq, List.getD_append_right _ _ _ _ (by simp), length_toBytes, Nat.add_sub_cancel_left]

end Image

/-- Settles O22: the image is the RAM, the registers and the time, in that order. -/
theorem dumpSaveLaysOutTheImage : Obligations.DumpSaveLaysOutTheImage := by
  refine ⟨rfl, fun s c hc => ⟨_, exec_dumpSave hc, length_saveImage .., fun b o hb ho => ?_, fun i hi => ?_, fun j hj => ?_⟩⟩
  · exact getD_saveImage_ram _ _ _ (bank_offset_lt hb ho)
  · refine (getD_saveImage_trailer ..).trans ?_
    rw [List.getD_append _ _ _ _ (Nat.lt_succ_of_le hi), Rtc.get_eq_getD _ hi]
  · rw [Nat.add_assoc]
    refine (getD_saveImage_trailer ..).trans ?_
    rw [List.getD_append_right _ _ _ _ (Nat.le_add_right 5 j), show 5 + j - c.rtc.bytes.length = j from
      Nat.add_sub_cancel_left 5 j]
    exact getD_be64 _ hj

/-! ### Loading a save (R176) -/

theorem loadSave_ram (cfg : Config) (c : Cartridge) (l : List Byte) (now : BitVec 64) :
    (c.loadSave cfg l now).ram = c.ram.overlay (l.take (c.ramSize cfg)) := by
  unfold Cartridge.loadSave
  dsimp only
  split <;> rfl

/-- The RAM takes as much of the image as it holds and keeps the rest. -/
theorem read_loadSave_ram (cfg : Config) (c : Cartridge) (l : List Byte) (now : BitVec 64) (k : Nat) :
    (c.loadSave cfg l now).ram.read k = if k < min l.length (c.ramSize cfg) then l.getD k 0 else c.ram.read k := by
  rw [loadSave_ram, read_overlay, List.length_take, Nat.min_comm]
  exact if_ctx_congr .rfl (fun inside => getD_take l (inside.trans_le (Nat.min_le_right ..))) fun _ => rfl

theorem loadSave_of_length {cfg : Config} {c : Cartridge} {l : List Byte} (now : BitVec 64)
    (h : l.length = c.ramSize cfg + 13) :
    c.loadSave cfg l now = { c with
      ram := (c.loadSave cfg l now).ram
      rtc := restoredRtc (l.drop (c.ramSize cfg)) now
      rtcLast := some now } := by
  simp [Cartridge.loadSave, h]

theorem loadSave_of_length_ne {cfg : Config} {c : Cartridge} {l : List Byte} (now : BitVec 64)
    (h : l.length ≠ c.ramSize cfg + 13) : c.loadSave cfg l now = { c with ram := (c.loadSave cfg l now).ram } := by
  simp [Cartridge.loadSave, h]

theorem Rtc.get_ofBytes (l : List Byte) {i : Nat} (hi : i ≤ 4) : (Rtc.ofBytes l).get i = l.getD i 0 := by
  interval_cases i <;> rfl

theorem restoredRtc_early {l : List Byte} {now : BitVec 64} (h : now.toNat < trailerTime l) :
    restoredRtc l now = Rtc.ofBytes l :=
  if_neg (Nat.not_le.mpr h)

theorem restoredRtc_late {l : List Byte} {now : BitVec 64} (h : trailerTime l ≤ now.toNat) :
    restoredRtc l now = (Rtc.ofBytes l).skip (((now.toNat - trailerTime l) / 1000 : Nat) : Int) :=
  if_pos h

/-- A byte of the trailer is a byte of the image. -/
theorem getD_drop (l : List Byte) (n k : Nat) : (l.drop n).getD k 0 = l.getD (n + k) 0 := by
  simp only [List.getD_eq_getElem?_getD, List.getElem?_drop]

/-- Settles O23: the RAM by `read_loadSave_ram`; the registers and their timestamp from the trailer, if there is one. -/
theorem loadSaveRestoresTheImage : Obligations.LoadSaveRestoresTheImage := by
  refine ⟨rfl, fun s c hc => ⟨_, _, exec_loadSave hc, rfl, ?_, read_loadSave_ram _ _ _ _, fun length => ?_, fun length => ?_⟩⟩
  · obtain ⟨m, rtc, last, eq⟩ := loadSave_eq s.config c s.inputs.bytes s.inputs.now
    rw [eq]
  · rw [loadSave_of_length_ne _ length]
    exact ⟨rfl, rfl⟩
  · rw [loadSave_of_length _ length]
    have time := trailerTime_eq_foldl (s.inputs.bytes.drop (c.ramSize s.config)) (by
      rw [List.length_drop, length]
      exact Nat.add_sub_cancel_left ..)
    simp only [getD_drop, ← Nat.add_assoc] at time
    refine ⟨rfl, Rtc.ofBytes (s.inputs.bytes.drop (c.ramSize s.config)), fun i hi => ?_, fun early => ?_, fun late => ?_⟩
    · rw [Rtc.get_ofBytes _ hi, getD_drop]
      rfl
    · exact restoredRtc_early (time ▸ early)
    · exact (restoredRtc_late (time ▸ late)).trans (by rw [time]; rfl)

/-! ### Dumping and reloading (R177) -/

theorem drop_saveImage (cfg : Config) (c : Cartridge) (now : BitVec 64) :
    (c.saveImage cfg now).drop (c.ramSize cfg) = c.rtc.bytes ++ be64 now.toNat := by
  rw [saveImage_eq, List.drop_left' (length_toBytes ..)]

theorem trailerTime_dumped (r : Rtc) (now : BitVec 64) : trailerTime (r.bytes ++ be64 now.toNat) = now.toNat := by
  have high : now.toNat / 2 ^ 32 < 2 ^ 32 := by have := now.isLt; omega
  change 2 ^ 32 * beValue (be32 (now.toNat / 2 ^ 32)) + beValue (be32 (now.toNat % 2 ^ 32)) = now.toNat
  rw [beValue_be32 high, beValue_be32 (Nat.mod_lt _ (by decide)), Nat.div_add_mod]

/-- At the moment of the dump no second has passed, so the trailer restores the registers as they were. -/
theorem restoredRtc_dumped (r : Rtc) (now : BitVec 64) : restoredRtc (r.bytes ++ be64 now.toNat) now = r := by
  rw [restoredRtc_late (trailerTime_dumped r now).le, trailerTime_dumped, Nat.sub_self]
  exact Rtc.skip_still r (.inl le_rfl)

/-- Reloading the RAM's own bytes leaves it as it was. -/
theorem loadSave_saveImage_ram {cfg : Config} {c : Cartridge} (now : BitVec 64) (canonical : c.ram.wf) :
    (c.loadSave cfg (c.saveImage cfg now) now).ram = c.ram := by
  refine Memory.ext_of_wf _ _ (loadSave_ram .. ▸ overlay_keeps_wf _ _ canonical) canonical fun k => ?_
  rw [read_loadSave_ram]
  split
  · next inside => exact getD_saveImage_ram _ _ _ (inside.trans_le (Nat.min_le_right ..))
  · rfl

theorem loadSave_saveImage {cfg : Config} {c : Cartridge} (now : BitVec 64) (canonical : c.ram.wf) :
    c.loadSave cfg (c.saveImage cfg now) now = { c with rtcLast := some now } := by
  rw [loadSave_of_length now (length_saveImage ..), loadSave_saveImage_ram now canonical, drop_saveImage, restoredRtc_dumped]

/-- Settles O24: the image's bytes are the RAM's own, and canonical memories that read alike are equal. -/
theorem saveRoundTripRestoresTheCartridge : Obligations.SaveRoundTripRestoresTheCartridge := by
  intro s c hc canonical _
  refine ⟨_, _, _, exec_dumpSave hc, rfl, exec_loadSave hc, congrArg some ?_⟩
  exact loadSave_saveImage s.inputs.now canonical

end Sys2Proof.Machine
end

section
/-! What each write to the PPU stores and which tiles it stales (spec/42_ppu_access.md R202 to R207): a store reads back where
it was made and leaves the rest, and the keys removed are those of the tile or of the palette slot written. -/

namespace Sys2Proof.Machine

/-! ### The calls inside their operand's range -/

section Inside
variable (s : State) (d : Byte)

theorem exec_writeVram {a : BitVec 32} (ha : a.toNat ≤ 0x1FFF) : exec (.writeVram a d) s = .next { s with
    ppu := { s.ppu with cache := s.ppu.cache.invalidate (vramWriteStales s.ppu.vramBank a.toNat) }.vramWrite a.toNat d
    result := .none } :=
  if_neg (Nat.not_lt.mpr ha)

theorem exec_setVramBank {b : Byte} (hb : b.toNat ≤ 1) : exec (.setVramBank b) s =
    .next { s with ppu := { s.ppu with vramBank := BitVec.ofNat 1 b.toNat }, result := .none } :=
  if_neg (Nat.not_lt.mpr hb)

theorem exec_setColorPalette {i : BitVec 32} (hi : i.toNat ≤ 127) (changed : s.ppu.colRaw[i.toNat]? ≠ some d) :
    exec (.setColorPalette i d) s = .next { s with ppu := s.ppu.putColour i.toNat d, result := .none } :=
  (if_neg (Nat.not_lt.mpr hi)).trans (if_neg changed)

/-- An entry of the mirror that reads as `d` has an index in range. -/
theorem exec_setColorPalette_unchanged {i : BitVec 32} (same : s.ppu.colRaw[i.toNat]? = some d) :
    exec (.setColorPalette i d) s = .next { s with result := .none } := by
  obtain ⟨hi, -⟩ := Vector.getElem?_eq_some_iff.mp same
  exact (if_neg (by omega)).trans (if_pos same)

theorem exec_setMonoPalette {slot : BitVec 32} (hs : slot.toNat ≤ 2) : exec (.setMonoPalette slot d) s =
    .next { s with ppu := s.ppu.putMono s.config slot.toNat d, result := .none } :=
  if_neg (Nat.not_lt.mpr hs)

theorem exec_writeOam {a : BitVec 32} (ha : a.toNat ≤ 0x9F) : exec (.writeOam a d) s =
    .next { s with ppu := s.ppu.oamWrite a.toNat d, result := .none } :=
  if_neg (Nat.not_lt.mpr ha)

end Inside

/-! ### Registers, the sprite table and VRAM -/

theorem read_write (m : Memory) (a : Nat) (v : Byte) (k : Nat) : (m.write a v).read k = if k = a then v else m.read k := by
  split
  · next h => rw [h, read_write_same]
  · next h => exact read_write_other m a k v h

/-- Settles O25: the three stores are one field, one bank bit and one byte of the table. -/
theorem ppuRegisterWritesStore : Obligations.PpuRegisterWritesStore := by
  refine ⟨fun d s => ⟨rfl, rfl, rfl, rfl, rfl, rfl, rfl, rfl, rfl, rfl⟩,
    fun b s => ⟨rfl, fun hb => ?_, fun h => if_pos h⟩, fun a d s => ⟨rfl, fun ha => ?_, fun h => if_pos h⟩⟩
  · exact ⟨_, exec_setVramBank s hb, Nat.mod_eq_of_lt (Nat.lt_succ_of_le hb), rfl⟩
  · exact ⟨_, exec_writeOam s d ha, read_write s.ppu.oam a.toNat d, rfl⟩

theorem vramRead_vramWrite_same (p : Ppu) (a : Nat) (d : Byte) : (p.vramWrite a d).vramRead p.vramBank.toNat a = d := by
  have low : p.vramBank.toNat = 0 ↔ p.vramBank = 0 := BitVec.toNat_inj (y := 0)
  unfold Ppu.vramWrite Ppu.vramRead
  by_cases hbank : p.vramBank = 0
  · rw [if_pos (low.mpr hbank), if_pos hbank, read_write_same]
  · rw [if_neg (mt low.mp hbank), if_neg hbank, read_write_same]

/-- A VRAM write stores one byte of the selected bank (R203). -/
theorem vramRead_vramWrite (p : Ppu) (a : Nat) (d : Byte) {b : Nat} (hb : b ≤ 1) (k : Nat) :
    (p.vramWrite a d).vramRead b k = if b = p.vramBank.toNat ∧ k = a then d else p.vramRead b k := by
  split
  · next h =>
    obtain ⟨rfl, rfl⟩ := h
    exact vramRead_vramWrite_same p k d
  · next h => exact vramRead_vramWrite_other p d hb fun bank => mt (And.intro bank) h

/-- A VRAM write stales the tile that contains its address, for either layer and whatever the rest of the key (R203). -/
theorem vramWriteStales_iff (bank : BitVec 1) (a : Nat) (key : CacheKey) :
    vramWriteStales bank a key = true ↔ a ≤ 0x17FF ∧ key.n = 384 * bank.toNat + a / 16 := by
  simp [vramWriteStales, tileNumber]

/-- Settles O26: the store is one byte of the selected bank, and the keys removed are those of its tile. -/
theorem writeVramStoresAndInvalidates : Obligations.WriteVramStoresAndInvalidates := by
  refine fun a d s => ⟨rfl, fun h => if_pos h, fun ha => ⟨_, exec_writeVram s d ha, fun b k hb => ?_, fun key => ?_, ?_⟩⟩
  · exact vramRead_vramWrite _ _ _ hb k
  · rw [vramWrite_cache, find_invalidate]
    exact if_congr (vramWriteStales_iff ..) rfl rfl
  · rw [vramWrite_cache, vramWrite_eq]

/-! ### Bit fields by division -/

theorem bits_eq (v hi lo : Nat) : bits v hi lo = v / 2 ^ lo % 2 ^ (hi + 1 - lo) := by
  rw [bits, Nat.shiftRight_eq_div_pow]

theorem two_pow_two_mul (i : Nat) : 2 ^ (2 * i) = 4 ^ i := pow_mul 2 2 i

theorem attrPalette_eq (attr : Byte) : attrPalette attr = attr.toNat % 8 := by
  rw [attrPalette, Byte.bits, bits_eq]
  omega

/-! ### The colour palette -/

/-- The three five-bit channels of a decoded colour, by division (R205, 20_memory.md R98). -/
theorem decodeColour_eq (lo hi : Byte) : decodeColour lo hi =
    let v := lo.toNat + 256 * hi.toNat
    BitVec.ofNat 32 (0xFF000000 + 2 ^ 16 * (8 * (v % 32)) + 2 ^ 8 * (8 * (v / 32 % 32)) + 8 * (v / 1024 % 32)) := by
  simp only [decodeColour, bits_eq, pow_zero, Nat.div_one]
  rfl

/-- The entry of byte `i` is decoded from the new raw bytes; every other entry is as before (R205). -/
theorem putColour_colPal (p : Ppu) (i : Nat) (d : Byte) (e : Fin 64) : (p.putColour i d).colPal[e.val] =
    if e.val = i / 2 then decodeColour (p.putColour i d).colRaw[2 * e.val] (p.putColour i d).colRaw[2 * e.val + 1]
    else p.colPal[e.val] := by
  have hlo : 2 * e.val < 128 := by omega
  have hhi : 2 * e.val + 1 < 128 := by omega
  unfold Ppu.putColour
  simp only [Vector.getElem_setIfInBounds, eq_comm (a := i / 2)]
  split
  · next h => simp [← h, hlo, hhi, Vector.getElem_setIfInBounds]
  · rfl

/-- A colour write stales the tiles of one layer that select its palette (R205). -/
theorem colourWriteStales_iff (e : Nat) (key : CacheKey) : colourWriteStales e key = true ↔
    key.kind = (if e / 4 < 8 then .bg else .obj) ∧ key.attr.toNat % 8 = e / 4 % 8 := by
  rw [colourWriteStales, Bool.and_eq_true, beq_iff_eq, beq_iff_eq, attrPalette_eq]
  rfl

/-- Settles O27: one byte of the mirror and its entry change, and the keys removed are those of its palette. -/
theorem setColorPaletteDecodesAndInvalidates : Obligations.SetColorPaletteDecodesAndInvalidates := by
  refine fun i d s => ⟨rfl, fun h => if_pos h, exec_setColorPalette_unchanged s d, fun hi changed =>
    ⟨_, exec_setColorPalette s d hi changed, fun j => ?_, fun e => ?_, fun key => ?_, rfl⟩⟩
  · exact (Vector.getElem_setIfInBounds ..).trans (if_congr eq_comm rfl rfl)
  · rw [← decodeColour_eq]
    exact putColour_colPal s.ppu i.toNat d e
  · exact (find_invalidate ..).trans (if_congr (colourWriteStales_iff ..) rfl rfl)

/-! ### The mono palette -/

/-- The shade of a two-bit field, by division (R206). -/
theorem monoShadeOf_eq (cfg : Config) (d : Byte) (i : Nat) :
    monoShadeOf cfg d i = cfg.monoShade (Fin.ofNat 4 (d.toNat / 4 ^ i)) := by
  refine congrArg cfg.monoShade (Fin.ext ?_)
  have width : 2 * i + 1 + 1 - 2 * i = 2 := by omega
  simp only [Byte.bits, bits_eq, width, two_pow_two_mul, Fin.val_ofNat]
  omega

/-- Stores at `base`, `base + 1` and so on, one for each of the first `n` values of `f`. -/
theorem getElem_storeFrom {α : Type} {m : Nat} (v : Vector α m) (base n : Nat) (f : Nat → α) (k : Fin m) :
    ((List.range n).foldl (fun w i => w.setIfInBounds (base + i) (f i)) v)[k.val] =
      if base ≤ k.val ∧ k.val < base + n then f (k.val - base) else v[k.val] := by
  induction n with
  | zero => exact (if_neg (by omega)).symm
  | succ n ih =>
    rw [List.range_succ, List.foldl_append, List.foldl_cons, List.foldl_nil, Vector.getElem_setIfInBounds, ih]
    split
    · next last => rw [if_pos (by omega), ← last, Nat.add_sub_cancel_left]
    · next other => exact if_congr (by omega) rfl rfl

/-- The four entries of the slot are the shades of the byte's four fields; the other eight are as before (R206). -/
theorem putMono_monoPal (cfg : Config) (p : Ppu) (slot : Nat) (d : Byte) (k : Fin 12) : (p.putMono cfg slot d).monoPal[k.val] =
    if k.val / 4 = slot then cfg.monoShade (Fin.ofNat 4 (d.toNat / 4 ^ (k.val % 4))) else p.monoPal[k.val] := by
  refine (getElem_storeFrom p.monoPal (4 * slot) 4 (monoShadeOf cfg d) k).trans ?_
  have mine : 4 * slot ≤ k.val ∧ k.val < 4 * slot + 4 ↔ k.val / 4 = slot := by omega
  simp only [mine]
  split
  · next h => rw [monoShadeOf_eq, ← h, Nat.mod_eq_sub]
  · rfl

/-- A mono write stales the background tiles or the sprite tiles of its palette bit (R206). -/
theorem monoWriteStales_iff {slot : Nat} (hs : slot ≤ 2) (key : CacheKey) : monoWriteStales slot key = true ↔
    (slot = 0 ∧ key.kind = .bg) ∨ (slot = 1 ∧ key.kind = .obj ∧ key.attr.getLsbD 4 = false) ∨
      (slot = 2 ∧ key.kind = .obj ∧ key.attr.getLsbD 4 = true) := by
  interval_cases slot <;> simp [monoWriteStales, attrMonoPal, Byte.bit]

/-- Settles O28: the slot's four entries change, and the keys removed are those the slot serves. -/
theorem setMonoPaletteFillsItsSlot : Obligations.SetMonoPaletteFillsItsSlot := by
  refine fun slot d s => ⟨rfl, fun h => if_pos h, fun hs => ⟨_, exec_setMonoPalette s d hs, ?_, fun key => ?_, rfl⟩⟩
  · exact putMono_monoPal s.config s.ppu slot.toNat d
  · exact (find_invalidate ..).trans (if_congr (monoWriteStales_iff hs key) rfl rfl)

end Sys2Proof.Machine
end

section
/-! What a tile pixel shows (spec/42_ppu_access.md R210 to R213): its colour index is the base-4 digit that the two interleaved
planes form at its column, and the mux turns the index into an entry of the selected palette. -/

namespace Sys2Proof.Machine

/-! ### The two bitplanes -/

/-- The colour indices of two plane bytes, bit by bit, bit 0 first (R211). -/
def planeDigits (lo hi : Byte) : List Nat := (List.range 8).map fun k => bitNat (lo.getLsbD k) + 2 * bitNat (hi.getLsbD k)

theorem length_planeDigits (lo hi : Byte) : (planeDigits lo hi).length = 8 := by simp [planeDigits]

theorem planeDigits_lt (lo hi : Byte) : ∀ x ∈ planeDigits lo hi, x < 4 := by
  intro x hx
  obtain ⟨k, -, rfl⟩ := List.mem_map.mp hx
  have := bitNat_le (lo.getLsbD k)
  have := bitNat_le (hi.getLsbD k)
  omega

/-- The interleaved planes are the number whose base-4 digits are the colour indices (R210, R211). -/
theorem interleave_planes (lo hi : Byte) : interleave lo + 2 * interleave hi = Nat.ofDigits 4 (planeDigits lo hi) := by
  simp only [interleave, planeDigits, List.range_succ, List.range_zero, List.nil_append, List.cons_append, List.foldl_cons,
    List.foldl_nil, List.map_cons, List.map_nil, Nat.ofDigits_cons, Nat.ofDigits_nil, Byte.bit]
  ring

theorem interleave_planes_lt (lo hi : Byte) : interleave lo + 2 * interleave hi < 2 ^ 16 := by
  have bound := Nat.ofDigits_lt_base_pow_length (by decide) (planeDigits_lt lo hi)
  rwa [← interleave_planes, length_planeDigits] at bound

/-- Bits `2k + 1` and `2k` of the interleaved planes are the colour index at bit `k` (R211). -/
theorem interleave_planes_digit (lo hi : Byte) {k : Nat} (hk : k < 8) :
    (interleave lo + 2 * interleave hi) / 2 ^ (2 * k) % 4 = bitNat (lo.getLsbD k) + 2 * bitNat (hi.getLsbD k) := by
  have digit := planeDigits_lt lo hi
  have inside : k < (planeDigits lo hi).length := (length_planeDigits lo hi).symm ▸ hk
  rw [interleave_planes, two_pow_two_mul, Nat.ofDigits_div_pow_eq_ofDigits_drop k (by decide) _ digit,
    List.drop_eq_getElem_cons inside, Nat.ofDigits_cons, Nat.add_mul_mod_self_left,
    Nat.mod_eq_of_lt (digit _ (List.getElem_mem inside))]
  simp [planeDigits]

/-- With an empty high plane the digit is the bit itself (R210). -/
theorem interleave_digit (b : Byte) {k : Nat} (hk : k < 8) : interleave b / 2 ^ (2 * k) % 4 = bitNat (b.getLsbD k) := by
  have empty : interleave 0#8 = 0 := rfl
  simpa [empty, bitNat] using interleave_planes_digit b 0 hk

theorem testBit_interleave (b : Byte) {k : Nat} (hk : k < 8) :
    (interleave b).testBit (2 * k) = b.getLsbD k ∧ (interleave b).testBit (2 * k + 1) = false := by
  have digit := interleave_digit b hk
  have hbit := bitNat_le (b.getLsbD k)
  have low : interleave b / 2 ^ (2 * k) % 2 = bitNat (b.getLsbD k) := by omega
  have high : interleave b / 2 ^ (2 * k) / 2 % 2 = 0 := by omega
  constructor
  · rw [Nat.testBit_eq_decide_div_mod_eq, low]
    cases b.getLsbD k <;> rfl
  · rw [Nat.testBit_eq_decide_div_mod_eq, pow_succ, ← Nat.div_div_eq_div_mul, high]
    rfl

/-- The colour index at a column of a row is read from the row's two plane bytes (R211). -/
theorem bits_interleave_planes (lo hi : Byte) {k : Nat} (hk : k < 8) :
    bits (interleave lo + 2 * interleave hi) (2 * k + 1) (2 * k) = bitNat (lo.getLsbD k) + 2 * bitNat (hi.getLsbD k) := by
  have width : 2 * k + 1 + 1 - 2 * k = 2 := by omega
  rw [bits_eq, width]
  exact interleave_planes_digit lo hi hk

/-- Settles O29: the interleaved planes have the indices as their base-4 digits, and a pixel takes the digit at its column. -/
theorem tilePixelIndexCombinesTheBitplanes : Obligations.TilePixelIndexCombinesTheBitplanes := by
  refine ⟨fun b k => testBit_interleave b, fun b => ?_, fun p bank t hflip vflip r c _ _ => ?_⟩
  · exact interleave_planes_lt b 0
  · exact bits_interleave_planes _ _ (by omega)

/-! ### The palette mux -/

/-- The entry the mux selects (R213). -/
def Ppu.muxEntry (p : Ppu) (colour : Bool) (kind : Kind) (attr : Byte) (idx : Nat) : Option Colour :=
  if colour = true then p.colPal[4 * (attr.toNat % 8 + (if kind = .obj then 8 else 0)) + idx]?
  else p.monoPal[4 * (if kind = .bg then 0 else 1 + bitNat (attr.getLsbD 4)) + idx]?

/-- Every slot is inside its table, so the entry is there, and opaque with the rest of the table (R213). -/
theorem muxEntry_opaque {p : Ppu} (h : p.TablesOpaque) (colour : Bool) (kind : Kind) (attr : Byte) {idx : Nat}
    (hidx : idx < 4) : ∃ col, p.muxEntry colour kind attr idx = some col ∧ Opaque col := by
  obtain ⟨colourTable, monoTable⟩ := h
  have hbit := bitNat_le (attr.getLsbD 4)
  unfold Ppu.muxEntry
  split
  · have inside : 4 * (attr.toNat % 8 + (if kind = .obj then 8 else 0)) + idx < 64 := by split <;> omega
    exact ⟨_, Vector.getElem?_eq_getElem inside, colourTable ⟨_, inside⟩⟩
  · have inside : 4 * (if kind = .bg then 0 else 1 + bitNat (attr.getLsbD 4)) + idx < 12 := by split <;> omega
    exact ⟨_, Vector.getElem?_eq_getElem inside, monoTable ⟨_, inside⟩⟩

/-- The mux answers the entry it selects, its opacity taken off for a sprite's index 0 (R213). -/
theorem paletteMux_eq (p : Ppu) (colour : Bool) (kind : Kind) (attr : Byte) (idx : Nat) :
    p.paletteMux colour kind attr idx = if kind = .obj ∧ idx = 0 then (p.muxEntry colour kind attr idx).getD 0 - opacityMask
      else (p.muxEntry colour kind attr idx).getD 0 := by
  cases colour <;> cases kind <;> simp [Ppu.muxEntry, Ppu.paletteMux, attrPalette_eq, attrMonoPal, Byte.bit]

/-- Taking the opacity mask off an opaque colour clears its alpha byte and leaves the rest. -/
theorem sub_opacityMask {c : Colour} (h : Opaque c) : c - opacityMask = BitVec.setWidth 32 (c.extractLsb' 0 24) := by
  rw [opaque_iff_toNat] at h
  have hmask : opacityMask.toNat = 0xFF000000 := rfl
  refine BitVec.eq_of_toNat_eq ?_
  rw [BitVec.toNat_sub, hmask, BitVec.toNat_setWidth, BitVec.extractLsb'_toNat, Nat.shiftRight_zero]
  omega

/-- Settles O30: the tables' invariants make the selected entry an opaque colour, and the mux answers it or clears its alpha. -/
theorem paletteMuxSelectsAndMasks : Obligations.PaletteMuxSelectsAndMasks := by
  intro cfg p colour kind attr idx hv hcolour hmono
  obtain ⟨col, entry, hopaque⟩ := muxEntry_opaque (tablesOpaque_of_inv hv hcolour hmono) colour kind attr idx.isLt
  have masks : kind = .obj ∧ idx.val = 0 ↔ kind = .obj ∧ idx = 0 := and_congr_right' Fin.val_eq_zero_iff
  refine ⟨col, entry, hopaque, fun shown => ?_, fun masked => ?_⟩
  · rw [paletteMux_eq, if_neg (mt masks.mp shown), entry, Option.getD_some]
  · rw [paletteMux_eq, if_pos (masks.mpr masked), entry, Option.getD_some, sub_opacityMask hopaque]

end Sys2Proof.Machine
end

section
/-! What `notifyScanline` and `endFrame` write (spec/43_ppu_scanline.md R250, R251, R266 to R268): one line of the frame buffer
and the cache, which only gains entries; and the counter of the pacing gate. -/

namespace Sys2Proof.Machine

/-- A visible line is composed (R251). -/
theorem exec_notifyScanline (s : State) {line : BitVec 32} (visible : line.toNat ≤ 143) : exec (.notifyScanline line) s =
    .next { s with ppu := (Scene.of s line.toNat).result, result := .none } :=
  (if_neg (by omega)).trans (if_neg (by omega))

/-- A line after the last visible one changes nothing (R268). -/
theorem exec_notifyScanline_blanking (s : State) {line : BitVec 32} (below : 143 < line.toNat) (last : line.toNat ≤ 153) :
    exec (.notifyScanline line) s = .next { s with result := .none } :=
  (if_neg (by omega)).trans (if_pos below)

/-! ### The frame buffer -/

/-- Finalizing keeps the frame but at line 143 with the LCD off (R266). -/
theorem result_fb_of_shown {v : Scene} (shown : ¬ (v.ly = 143 ∧ v.ppu.lcdEnable = false)) :
    v.result.fb = v.ppu.fb.setLine v.ly fun x => (v.compose.line x).col :=
  if_neg shown

theorem result_fb_of_lcdOff {v : Scene} (last : v.ly = 143) (off : v.ppu.lcdEnable = false) : v.result.fb = [] :=
  if_pos ⟨last, off⟩

/-! ### The cache -/

/-- A lookup only adds to the cache (42_ppu_access.md R214). -/
theorem cacheLookup_keeps_find (p : Ppu) (colour : Bool) {c : Cache} (key : CacheKey) {q : CacheKey} {e : CacheEntry}
    (hq : c.find q = some e) : (p.cacheLookup colour c key).2.find q = some e := by
  unfold Ppu.cacheLookup
  cases hkey : c.find key with
  | some _ => exact hq
  | none =>
    have hne : q ≠ key := by
      rintro rfl
      cases hkey.symm.trans hq
    exact (find_put_other c key q _ hne).trans hq

/-- A composition only adds to the cache. -/
theorem Scene.keeps_find {v : Scene} {q : CacheKey} {e : CacheEntry} (hq : v.ppu.cache.find q = some e) :
    v.Keeps fun k => k.cache.find q = some e where
  backdrop := hq
  hold _ _ hk := hk
  draw _ _ _ _ hk := cacheLookup_keeps_find _ _ _ hk
  sprite _ _ _ _ hk := cacheLookup_keeps_find _ _ _ hk

/-! ### The calls -/

/-- Settles O31: the frame buffer is stored line by line, and every step of a composition keeps the cached entries. -/
theorem notifyScanlineWritesItsLineOnly : Obligations.NotifyScanlineWritesItsLineOnly := by
  refine fun line s => ⟨fun visible => ?_, exec_notifyScanline_blanking s⟩
  refine ⟨_, exec_notifyScanline s visible, rfl, fun key e he => ?_, fun shown y x hx hy => ?_⟩
  · exact (Scene.keeps_find (v := Scene.of s line.toNat) he).compose
  · dsimp only
    rw [result_fb_of_shown shown]
    exact pixel_setLine_other _ _ _ _ _ hx hy

/-- Settles O32: finalizing empties the frame buffer, in which every pixel then reads WHITE. -/
theorem lcdOffClearsTheFrameAtLine143 : Obligations.LcdOffClearsTheFrameAtLine143 := by
  intro s off
  have last : (143 : BitVec 32).toNat = 143 := by decide
  refine ⟨_, exec_notifyScanline s last.le, fun y x _ _ => ?_⟩
  have cleared : (Scene.of s (143 : BitVec 32).toNat).result.fb = [] := result_fb_of_lcdOff last off
  exact (congrArg (FrameBuf.pixel · y x) cleared).trans (pixel_nil y x)

theorem tick_closed {p : Pace} (h : p.counter + 1 < p.divisor) : p.tick = (false, { p with counter := p.counter + 1 }) :=
  if_neg (Nat.not_le.mpr h)

theorem tick_open {p : Pace} (h : p.divisor ≤ p.counter + 1) : p.tick = (true, { p with counter := 0 }) :=
  if_pos h

theorem exec_endFrame (s : State) : exec .endFrame s =
    .next { s with pace := s.pace.tick.2, result := if s.pace.tick.1 then .frame s.ppu.fb else .none } := rfl

/-- Settles O36: the gate's tick decides between the frame and nothing. -/
theorem endFrameHandsOutTheFrameWhenTheGateOpens : Obligations.EndFrameHandsOutTheFrameWhenTheGateOpens := by
  refine fun s => ⟨rfl, fun closed => ?_, fun opened => ?_⟩
  · rw [exec_endFrame, tick_closed closed]
    rfl
  · rw [exec_endFrame, tick_open opened]
    rfl

end Sys2Proof.Machine
end

section
/-! What the closed form of a pixel reads (spec/43_ppu_scanline.md R250 to R254, R260, R261, 42_ppu_access.md R211, R212): each
function of the scene in terms of bytes of memory and their bits. -/

namespace Sys2Proof.Machine

/-! ### Tiles -/

theorem colourMode_iff (s : State) : s.colourMode = true ↔ ∃ c, s.cart = some c ∧ c.colour = true := by
  unfold State.colourMode
  cases s.cart <;> simp

theorem bitNat_eq (b : Bool) : bitNat b = if b = true then 1 else 0 := rfl

/-- A tile lies in the bank that bit 3 of `attr` names, in colour mode only (R254, R261). -/
theorem attrBank_eq (colour : Bool) (attr : Byte) : (if colour = true then bitNat (attrBank attr) else 0) =
    if colour = true ∧ attr.getLsbD 3 = true then 1 else 0 := by
  rw [bitNat_eq, ite_and]
  rfl

/-- An index byte counts from tile 0 unsigned, or from tile 256 signed (20_memory.md R94). -/
theorem mapTile_eq (u : Bool) (i : Byte) : (mapTile u i : Int) = if u = true then (i.toNat : Int) else 256 + i.toInt := by
  have low := BitVec.le_toInt i
  unfold mapTile sext8
  split
  · rfl
  · omega

/-- A tile's colour index at a row and column, flipped as bits 6 and 5 of `attr` say (42_ppu_access.md R211, R212). -/
theorem pixelIndex_eq (p : Ppu) (n : Nat) (attr : Byte) (r c : Nat) : p.pixelIndex n attr r c =
    let r' := if attr.getLsbD 6 = true then 7 - r else r
    let c' := if attr.getLsbD 5 = true then 7 - c else c
    bitNat ((p.vramRead (n / 384) (16 * (n % 384) + 2 * r')).getLsbD (7 - c')) +
      2 * bitNat ((p.vramRead (n / 384) (16 * (n % 384) + 2 * r' + 1)).getLsbD (7 - c')) :=
  bits_interleave_planes _ _ (by omega)

theorem winVisible_iff (v : Scene) :
    v.winVisible = true ↔ v.ppu.lcdc.getLsbD 5 = true ∧ v.wy ≤ v.ly ∧ v.wx ≤ 166 := by
  simp [Scene.winVisible, Ppu.winEnable, Byte.bit, and_assoc]

/-- The tile number at a map position (R254). -/
theorem fetchMapTile_eq (v : Scene) (sel : Bool) (mx my : Nat) :
    let a := (if sel = true then 0x1C00 else 0x1800) + 32 * my + mx
    let attr : Byte := if v.colour = true then v.ppu.vramRead 1 a else 0
    v.fetchMapTile sel mx my = (384 * (if v.colour = true ∧ attr.getLsbD 3 = true then 1 else 0) +
      mapTile (v.ppu.lcdc.getLsbD 4) (v.ppu.vramRead 0 a), attr) := by
  dsimp only
  rw [← attrBank_eq]
  rfl

/-! ### Sprites -/

theorem onLine_iff (v : Scene) (o : Sprite) : v.onLine o = true ↔
    o.sy ≤ v.ly ∧ (v.ly : Int) < o.sy + (if v.ppu.lcdc.getLsbD 2 = true then 16 else 8) ∧ -8 < o.sx ∧ o.sx < 160 := by
  have height : (v.spriteHeight : Int) = if v.ppu.lcdc.getLsbD 2 = true then 16 else 8 := apply_ite Nat.cast _ _ _
  simp [Scene.onLine, height, and_assoc]

/-- The even tile of a pair (R261). -/
theorem evenTile_eq (t : Byte) : t.toNat - bitNat (Byte.bit t 0) = 2 * (t.toNat / 2) := by
  have odd : Byte.bit t 0 = decide (t.toNat % 2 = 1) := Nat.testBit_zero _
  simp only [odd, bitNat_eq, decide_eq_true_eq]
  split <;> omega

theorem spriteTile_eq (v : Scene) (o : Sprite) :
    let row := ((v.ly : Int) - o.sy).toNat
    let bank := if v.colour = true ∧ o.attr.getLsbD 3 = true then 1 else 0
    v.spriteTile o = if v.ppu.lcdc.getLsbD 2 = true then
        (384 * bank + (2 * (o.tile.toNat / 2) + (if o.attr.getLsbD 6 = true then 1 - row / 8 else row / 8)), row % 8)
      else (384 * bank + o.tile.toNat, row) := by
  dsimp only
  rw [← attrBank_eq, ← evenTile_eq]
  rfl

/-- Settles O34: each function of the scene by its own equation. -/
theorem sceneReadsItsBytesAndBits : Obligations.SceneReadsItsBytesAndBits := by
  refine ⟨fun _ => rfl, fun s _ => ⟨rfl, rfl, rfl, rfl, rfl, rfl, colourMode_iff s⟩, fun v => ⟨winVisible_iff v, rfl⟩,
    fun v sel mx my => ?_, fun _ _ => ⟨rfl, rfl, rfl, rfl, rfl, rfl⟩, fun v o => ⟨onLine_iff v o, spriteTile_eq v o⟩,
    fun p n attr r c _ _ => pixelIndex_eq p n attr r c⟩
  dsimp only
  rw [fetchMapTile_eq, ← mapTile_eq]
  exact ⟨rfl, by push_cast; rfl⟩

end Sys2Proof.Machine
end

section
/-! The closed form of a composed pixel (spec/43_ppu_scanline.md R269). One column of the line is followed through the steps of a
composition: the pixel it has, and what the segments held back will draw there. -/

namespace Sys2Proof.Machine

/-! ### One column of a line -/

/-- What a segment shows at column `x`, if it covers it inside its clip (R256). -/
def Segment.at (g : Segment) (x : Nat) : Option LayerPixel :=
  if g.x0 ≤ (x : Int) ∧ (x : Int) < g.x0 + 8 ∧ (x : Int) ≤ g.xhi ∧ x ≤ 159 then
    some { n := g.n, attr := g.attr, r := g.r, c := ((x : Int) - g.x0).toNat }
  else none

/-- A column of the line being composed: its pixel, and the layer pixels held back for step 5. -/
structure Column where
  pixel : LinePixel
  held : List LayerPixel

def Comp.column (k : Comp) (x : Nat) : Column := { pixel := k.line x, held := k.skipped.filterMap (·.at x) }

/-- The column of the backdrop (R252). -/
def Column.blank : Column := { pixel := { col := white, idx := 0 }, held := [] }

/-- Column `x` of the transients `k` is `w`; their cache is coherent and the segments held back are in range. -/
structure Scene.At (v : Scene) (x : Nat) (k : Comp) (w : Column) : Prop where
  ready : v.ppu.CoherentWith v.colour k.cache ∧ k.HeldInRange
  column : k.column x = w

/-- A layer pixel as the line shows it. -/
def Scene.shown (v : Scene) (l : LayerPixel) : LinePixel :=
  { col := v.layerColour l, idx := v.ppu.pixelIndex l.n l.attr l.r l.c }

section Columns
variable {v : Scene} {x : Nat} {k : Comp} {w : Column}

/-! ### Segments -/

/-- From a coherent cache a segment draws its layer pixel where it covers the column (R256). -/
theorem drawSegment_at {g : Segment} (coherent : v.ppu.CoherentWith v.colour k.cache) (hr : g.r < 8) (x : Nat) :
    (v.drawSegment g k).line x = (g.at x).elim (k.line x) v.shown := by
  rw [drawSegment_line, cacheLookup_entry _ _ _ _ coherent]
  unfold Segment.at
  split
  · rw [colourAt_resolveTile_bg _ _ _ _ _ _ hr (by omega)]
    rfl
  · rfl

theorem column_drawSegment {g : Segment} (coherent : v.ppu.CoherentWith v.colour k.cache) (hr : g.r < 8) (x : Nat) :
    (v.drawSegment g k).column x = { k.column x with pixel := (g.at x).elim (k.column x).pixel v.shown } :=
  congrArg (Column.mk · (k.column x).held) (drawSegment_at coherent hr x)

theorem column_hold (k : Comp) (g : Segment) (x : Nat) : Comp.column { k with skipped := k.skipped ++ [g] } x =
    { k.column x with held := (k.column x).held ++ (g.at x).toList } :=
  congrArg (Column.mk (k.line x)) (by rw [List.filterMap_append]; cases hg : g.at x <;> simp [hg, Comp.column])

/-- The layer pixels held back are drawn over the column, the last one on top (R264). -/
theorem Scene.At.priorityTiles (h : v.At x k w) :
    (v.priorityTiles k).line x = w.held.foldl (fun _ l => v.shown l) w.pixel := by
  obtain ⟨⟨coherent, range⟩, rfl⟩ := h
  unfold Scene.priorityTiles Comp.column
  unfold Comp.HeldInRange at range
  dsimp only
  generalize k.skipped = gs at range ⊢
  induction gs generalizing k with
  | nil => rfl
  | cons g gs ih =>
    obtain ⟨⟨hn, hr⟩, range⟩ := List.forall_mem_cons.mp range
    rw [List.foldl_cons, ih (cacheLookup_coherent _ _ _ _ coherent hn) range, drawSegment_at coherent hr]
    cases hg : g.at x <;> simp [hg]

/-! ### A strip of tiles -/

/-- A row of tiles of a map, side by side from column `start` on: row `r` of each, held back with the right clip `xhi`. -/
structure Strip where
  tile : Nat → Nat × Byte
  r : Nat
  start : Int
  xhi : Int

/-- The strip's tiles exist, and so does its row of them. -/
structure Strip.InRange (z : Strip) : Prop where
  tile : ∀ col, (z.tile col).1 < 768
  row : z.r < 8

/-- What the strip shows at column `x`. -/
def Strip.pixel (z : Strip) (x : Nat) : LayerPixel :=
  let u := ((x : Int) - z.start).toNat
  { n := (z.tile (u / 8)).1, attr := (z.tile (u / 8)).2, r := z.r, c := u % 8 }

/-- Tile `col` of the strip covers column `x`. -/
abbrev Strip.Covers (z : Strip) (col x : Nat) : Prop :=
  z.start + 8 * (col : Int) ≤ x ∧ (x : Int) < z.start + 8 * (col : Int) + 8

/-- Tile `col` of the strip, drawn or held back (R255, R258). -/
def Scene.stripTile (v : Scene) (z : Strip) (k : Comp) (col : Nat) : Comp :=
  if z.start + 8 * (col : Int) > 159 then k else v.placeSegment (z.tile col) z.r (z.start + 8 * (col : Int)) z.xhi k

/-- A column after the strip drew its pixel there, or held it back. -/
def Scene.placed (v : Scene) (z : Strip) (x : Nat) (w : Column) : Column :=
  if v.colour = true ∧ attrPriority (z.pixel x).attr = true then
    { w with held := w.held ++ if (x : Int) ≤ z.xhi then [z.pixel x] else [] }
  else { w with pixel := v.shown (z.pixel x) }

/-- The segment of tile `col` of the strip. -/
def Strip.segment (z : Strip) (col : Nat) (xhi : Int) : Segment :=
  { n := (z.tile col).1, attr := (z.tile col).2, r := z.r, x0 := z.start + 8 * (col : Int), xhi := xhi }

variable {z : Strip} {col : Nat} {xhi : Int}

theorem Strip.Covers.tile_eq (h : z.Covers col x) : ((x : Int) - z.start).toNat / 8 = col := by
  unfold Strip.Covers at h
  omega

theorem Strip.Covers.attr_eq (h : z.Covers col x) : (z.pixel x).attr = (z.tile col).2 := by
  rw [Strip.pixel, h.tile_eq]

theorem Strip.segment_at (covers : z.Covers col x) (hx : x < 160) :
    (z.segment col xhi).at x = if (x : Int) ≤ xhi then some (z.pixel x) else none := by
  have htile := covers.tile_eq
  obtain ⟨left, right⟩ := covers
  have hc : ((x : Int) - (z.start + 8 * (col : Int))).toNat = ((x : Int) - z.start).toNat % 8 := by omega
  simp only [Segment.at, Strip.segment, Strip.pixel, htile, hc, left, right, Nat.le_of_lt_succ hx, true_and, and_true]

theorem Strip.segment_at_other (other : ¬ z.Covers col x) : (z.segment col xhi).at x = none :=
  if_neg fun ⟨left, right, _⟩ => other ⟨left, right⟩

theorem placed_of_hold (covers : z.Covers col x) (hx : x < 160) (bit : (v.colour && attrPriority (z.tile col).2) = true)
    (w : Column) : v.placed z x w = { w with held := w.held ++ ((z.segment col z.xhi).at x).toList } := by
  have held : v.colour = true ∧ attrPriority (z.pixel x).attr = true := by simpa [covers.attr_eq] using bit
  rw [Strip.segment_at covers hx, Scene.placed, if_pos held]
  split <;> rfl

theorem placed_of_draw (covers : z.Covers col x) (hx : x < 160) (bit : (v.colour && attrPriority (z.tile col).2) = false)
    (w : Column) : v.placed z x w = { w with pixel := ((z.segment col 159).at x).elim w.pixel v.shown } := by
  have drawn : ¬ (v.colour = true ∧ attrPriority (z.pixel x).attr = true) := by simpa [covers.attr_eq] using bit
  rw [Strip.segment_at covers hx, if_pos (by omega), Scene.placed, if_neg drawn]
  rfl

/-- The tile that covers the column places the strip's pixel there; every other leaves the column alone. -/
theorem Scene.At.stripTile (h : v.At x k w) (h0 : v.ppu.CoherentWith v.colour v.ppu.cache) (hz : z.InRange) (hx : x < 160)
    (col : Nat) : v.At x (v.stripTile z k col) (if z.Covers col x then v.placed z x w else w) := by
  obtain ⟨ready, rfl⟩ := h
  unfold Scene.stripTile
  split
  · rw [if_neg (by unfold Strip.Covers; omega)]
    exact ⟨ready, rfl⟩
  · refine ⟨(Scene.keeps_coherent h0).placeSegment _ _ (hz.tile col) hz.row ready, ?_⟩
    obtain ⟨bit, eq⟩ | ⟨bit, eq⟩ := placeSegment_cases v (z.tile col) z.r (z.start + 8 * (col : Int)) z.xhi k <;> rw [eq]
    · refine (column_hold k (z.segment col z.xhi) x).trans ?_
      split
      · next covers => exact (placed_of_hold covers hx bit _).symm
      · next other => simp [Strip.segment_at_other other]
    · refine (column_drawSegment (g := z.segment col 159) ready.1 hz.row x).trans ?_
      split
      · next covers => exact (placed_of_draw covers hx bit _).symm
      · next other =>
        rw [Strip.segment_at_other other]
        rfl

/-- A strip of `n` tiles places its pixel at the columns it covers. -/
theorem Scene.At.strip (h : v.At x k w) (h0 : v.ppu.CoherentWith v.colour v.ppu.cache) (hz : z.InRange) (hx : x < 160)
    (n : Nat) : v.At x ((List.range n).foldl (v.stripTile z) k)
      (if z.start ≤ x ∧ (x : Int) < z.start + 8 * (n : Int) then v.placed z x w else w) := by
  induction n with
  | zero => rwa [if_neg (by omega)]
  | succ n ih =>
    rw [List.range_succ, List.foldl_append, List.foldl_cons, List.foldl_nil]
    have step := ih.stripTile h0 hz hx n
    by_cases covers : z.Covers n x
    · rw [if_pos covers, if_neg (by omega)] at step
      rwa [if_pos (by omega)]
    · rw [if_neg covers] at step
      have same : (z.start ≤ x ∧ (x : Int) < z.start + 8 * ((n + 1 : Nat) : Int)) ↔
          z.start ≤ x ∧ (x : Int) < z.start + 8 * (n : Int) := by omega
      rwa [if_congr same rfl rfl]

/-! ### The background and the window -/

/-- The background tiles of the line (R255). -/
def Scene.bgStrip (v : Scene) : Strip where
  tile col := v.fetchMapTile v.ppu.bgMapSelect ((v.scx / 8 + col) % 32) ((v.ly + v.scy) % 256 / 8)
  r := (v.ly + v.scy) % 256 % 8
  start := -((v.scx % 8 : Nat) : Int)
  xhi := if v.winVisible then v.wx0 - 1 else 159

/-- The window tiles of the line (R258). -/
def Scene.winStrip (v : Scene) : Strip where
  tile col := v.fetchMapTile v.ppu.winMapSelect col ((v.ly - v.wy) / 8)
  r := (v.ly - v.wy) % 8
  start := v.wx0
  xhi := 159

theorem bgStrip_inRange (v : Scene) : v.bgStrip.InRange := ⟨fun _ => fetchMapTile_lt .., Nat.mod_lt _ (by decide)⟩

theorem winStrip_inRange (v : Scene) : v.winStrip.InRange := ⟨fun _ => fetchMapTile_lt .., Nat.mod_lt _ (by decide)⟩

theorem bgTile_eq (v : Scene) : v.bgTile = v.stripTile v.bgStrip := by
  funext k col
  have left : 8 * (col : Int) - ((v.scx % 8 : Nat) : Int) = v.bgStrip.start + 8 * (col : Int) := sub_eq_neg_add ..
  unfold Scene.bgTile
  dsimp only
  rw [left]
  rfl

theorem winTile_eq (v : Scene) : v.winTile = v.stripTile v.winStrip := rfl

theorem Scene.At.background (h : v.At x k w) (h0 : v.ppu.CoherentWith v.colour v.ppu.cache) (hx : x < 160) :
    v.At x (v.background k) (if v.ppu.bgEnable = true then v.placed v.bgStrip x w else w) := by
  unfold Scene.background
  split
  · have strip := h.strip h0 (bgStrip_inRange v) hx 21
    have inside : v.bgStrip.start ≤ x ∧ (x : Int) < v.bgStrip.start + 8 * (21 : Nat) := by
      simp only [Scene.bgStrip]
      omega
    rwa [if_pos inside, ← bgTile_eq] at strip
  · exact h

theorem Scene.At.window (h : v.At x k w) (h0 : v.ppu.CoherentWith v.colour v.ppu.cache) (hx : x < 160) :
    v.At x (v.window k) (if v.winVisible = true ∧ v.wx0 ≤ x then v.placed v.winStrip x w else w) := by
  unfold Scene.window
  split
  · next visible =>
    have strip := h.strip h0 (winStrip_inRange v) hx 21
    have inside : (v.winStrip.start ≤ x ∧ (x : Int) < v.winStrip.start + 8 * (21 : Nat)) ↔
        v.winVisible = true ∧ v.wx0 ≤ x := by
      simp only [Scene.winStrip, Scene.wx0, visible, true_and]
      omega
    rwa [if_congr inside rfl rfl, ← winTile_eq] at strip
  · next hidden => rwa [if_neg fun shows => hidden shows.1]

/-- The layer pixel is that of the window's strip, or else of the background's (R269). -/
theorem layerAt_eq (v : Scene) (x : Nat) : v.layerAt x =
    if v.winVisible = true ∧ v.wx0 ≤ (x : Int) then some (v.winStrip.pixel x)
    else if v.ppu.bgEnable = true then some (v.bgStrip.pixel x) else none := by
  have u : ((x : Int) - -((v.scx % 8 : Nat) : Int)).toNat = x + v.scx % 8 := by omega
  have column : (v.scx / 8 + (x + v.scx % 8) / 8) % 32 = (x + v.scx) % 256 / 8 := by omega
  have inTile : (x + v.scx % 8) % 8 = (x + v.scx) % 256 % 8 := by omega
  simp only [Scene.bgStrip, Strip.pixel, u, column, inTile]
  rfl

/-! ### The layers -/

/-- What column `x` has once background and window were placed: the layer pixel, held back if its tile has the priority bit and
drawn if not (R269). -/
inductive Scene.Layered (v : Scene) (x : Nat) : Column → Prop
  | none (layer : v.layerAt x = .none) : v.Layered x .blank
  | priority {l : LayerPixel} (layer : v.layerAt x = some l) (bit : v.colour = true ∧ attrPriority l.attr = true)
      (p : LinePixel) : v.Layered x { pixel := p, held := [l] }
  | drawn {l : LayerPixel} (layer : v.layerAt x = some l) (bit : ¬ (v.colour = true ∧ attrPriority l.attr = true)) :
      v.Layered x { pixel := v.shown l, held := [] }

/-- A strip's pixel outside its clip is never held back. -/
theorem placed_clipped (clipped : z.xhi < x) : (v.placed z x w).held = w.held := by
  unfold Scene.placed
  split
  · exact (congrArg (w.held ++ ·) (if_neg (not_le.mpr clipped))).trans (List.append_nil _)
  · rfl

theorem Scene.Layered.placed (layer : v.layerAt x = some (z.pixel x)) (inside : x ≤ z.xhi) (below : w.held = []) :
    v.Layered x (v.placed z x w) := by
  unfold Scene.placed
  rw [below, if_pos inside]
  split
  · next bit => exact .priority layer bit _
  · next bit => exact .drawn layer bit

/-- Background and window leave the layer pixel: a background tile held back is clipped where the window begins (R255). -/
theorem layers_at (h0 : v.ppu.CoherentWith v.colour v.ppu.cache) (hx : x < 160) :
    ∃ w, v.At x (v.window (v.background (Comp.backdrop v.ppu.cache))) w ∧ v.Layered x w := by
  have start : v.At x (Comp.backdrop v.ppu.cache) .blank := ⟨⟨h0, by simp [Comp.HeldInRange, Comp.backdrop]⟩, rfl⟩
  refine ⟨_, (start.background h0 hx).window h0 hx, ?_⟩
  have layer := layerAt_eq v x
  split at layer
  · next shows =>
    rw [if_pos shows]
    refine .placed layer (by simp only [Scene.winStrip]; omega) ?_
    split
    · exact placed_clipped (by simp only [Scene.bgStrip, shows.1, if_true]; omega)
    · rfl
  · next hidden =>
    rw [if_neg hidden]
    split at layer
    · next enabled =>
      rw [if_pos enabled]
      refine .placed layer ?_ rfl
      simp only [Scene.bgStrip]
      split
      · next visible =>
        have right : ¬ v.wx0 ≤ (x : Int) := fun h => hidden ⟨visible, h⟩
        omega
      · omega
    · next disabled =>
      rw [if_neg disabled]
      exact .none layer

end Columns

/-! ### Sprites -/

/-- The mux answers alpha 0 for a sprite's index 0 and for no other (42_ppu_access.md R213). -/
theorem paletteMux_obj_alpha {p : Ppu} (h : p.TablesOpaque) (colour : Bool) (attr : Byte) {idx : Nat} (hidx : idx < 4) :
    (p.paletteMux colour .obj attr idx).extractLsb' 24 8 = 0x00 ↔ idx = 0 := by
  obtain ⟨col, hopaque, eq⟩ := paletteMux_cases h colour .obj attr hidx
  rw [eq]
  by_cases zero : idx = 0
  · simp [zero, alpha_sub_opacityMask hopaque]
  · have shows : col.extractLsb' 24 8 ≠ 0x00 := by
      rw [hopaque]
      decide
    simpa [zero] using shows

/-- A blank tile has index 0 everywhere (42_ppu_access.md R212). -/
theorem pixelIndex_of_tileBlank {p : Ppu} {key : CacheKey} (blank : p.tileBlank key = true) {r c : Nat} (hr : r < 8)
    (hc : c < 8) : p.pixelIndex key.n key.attr r c = 0 := by
  have cell := List.all_eq_true.mp blank (8 * r + c) (List.mem_range.mpr (by omega))
  have row : (8 * r + c) / 8 = r := by omega
  have column : (8 * r + c) % 8 = c := by omega
  rwa [beq_iff_eq, row, column] at cell

/-- Sprite `o` covers column `x`. -/
abbrev Sprite.Covers (o : Sprite) (x : Nat) : Prop := o.sx ≤ (x : Int) ∧ (x : Int) < o.sx + 8

/-- The pixel after a colour was drawn over it; a behind sprite yields to a layer of non-zero index (R263). -/
def LinePixel.over (behind : Bool) (p : LinePixel) (c : Colour) : LinePixel :=
  if behind = true ∧ p.idx ≠ 0 then p else { p with col := c }

/-- A sprite pixel of index 0 is not drawn (R263). -/
theorem spritePixel_paletteMux {p : Ppu} (h : p.TablesOpaque) (colour behind : Bool) (attr : Byte) {idx : Nat} (hidx : idx < 4)
    (under : LinePixel) : spritePixel behind (p.paletteMux colour .obj attr idx) under =
      if idx ≠ 0 then under.over behind (p.paletteMux colour .obj attr idx) else under := by
  unfold spritePixel
  rw [if_congr (paletteMux_obj_alpha h colour attr hidx) rfl rfl, ite_not]
  rfl

theorem colourAt_tileColours (p : Ppu) (colour : Bool) (key : CacheKey) {r c : Nat} (hr : r < 8) (hc : c < 8) :
    (CacheEntry.pixels (p.tileColours colour key)).colourAt r c =
      p.paletteMux colour key.kind key.attr (p.pixelIndex key.n key.attr r c) := by
  have row : (8 * r + c) / 8 = r := by omega
  have column : (8 * r + c) % 8 = c := by omega
  have inside : 8 * r + c < 64 := by omega
  simp [CacheEntry.colourAt, Ppu.tileColours, row, column, inside]

/-- A resolved sprite tile draws its pixels of non-zero index (R262, R263). -/
theorem drawSprite_resolveTile {p : Ppu} (h : p.TablesOpaque) (colour behind : Bool) (o : Sprite) (n : Nat) {r : Nat}
    (hr : r < 8) (line : Nat → LinePixel) {x : Nat} (hx : x < 160) :
    drawSprite behind o (p.resolveTile colour { kind := .obj, n := n, attr := o.attr }) r line x =
      if o.Covers x ∧ p.pixelIndex n o.attr r ((x : Int) - o.sx).toNat ≠ 0 then
        (line x).over behind (p.paletteMux colour .obj o.attr (p.pixelIndex n o.attr r ((x : Int) - o.sx).toNat))
      else line x := by
  have column (covers : o.Covers x) : ((x : Int) - o.sx).toNat < 8 := by
    unfold Sprite.Covers at covers
    omega
  unfold Ppu.resolveTile
  split
  · next blank =>
    rw [if_neg fun ⟨covers, index⟩ => index (pixelIndex_of_tileBlank blank.2 hr (column covers))]
    rfl
  · unfold drawSprite
    have inLine : (o.sx ≤ (x : Int) ∧ (x : Int) < o.sx + 8 ∧ x ≤ 159) ↔ o.Covers x := by
      unfold Sprite.Covers
      omega
    dsimp only
    by_cases covers : o.Covers x
    · rw [if_pos (inLine.mpr covers), colourAt_tileColours _ _ _ hr (column covers),
        spritePixel_paletteMux h colour behind o.attr (pixelIndex_lt ..)]
      exact (if_congr (and_iff_right covers) rfl rfl).symm
    · rw [if_neg (mt inLine.mp covers), if_neg fun shows => covers shows.1]

section Sprites
variable {v : Scene} {x : Nat} {k : Comp} {w : Column}

/-- The sprite drawn last is the one that shows. -/
theorem over_over (behind : Bool) (p : LinePixel) (c d : Colour) : (p.over behind c).over behind d = p.over behind d := by
  unfold LinePixel.over
  split <;> rfl

/-- The pixel after a pass whose topmost colour, if any, is `top`. -/
def LinePixel.overlaid (behind : Bool) (p : LinePixel) (top : Option Colour) : LinePixel := top.elim p (p.over behind)

theorem over_overlaid (behind : Bool) (p : LinePixel) (top : Option Colour) (c : Colour) :
    (p.overlaid behind top).over behind c = p.over behind c := by
  cases top with
  | none => rfl
  | some d => exact over_over behind p d c

/-- A behind sprite shows over a pixel of index 0 and yields to any other; a front sprite shows over both (R263). -/
theorem overlaid_col (p : LinePixel) (behind front : Option Colour) : ((p.overlaid true behind).overlaid false front).col =
    front.getD (if p.idx = 0 then behind.getD p.col else p.col) := by
  cases front with
  | some c => rfl
  | none =>
    cases behind with
    | none => exact (ite_self _).symm
    | some c => by_cases zero : p.idx = 0 <;> simp [LinePixel.overlaid, LinePixel.over, zero]

/-- The colour of the sprite of a pass that is topmost at column `x`. -/
def Scene.topSprite (v : Scene) (behind : Bool) (x : Nat) : Option Colour :=
  (v.firstSprite behind x).map (v.spriteColour x)

theorem spriteShows_iff {behind : Bool} {i : Nat} (enabled : v.ppu.spriteEnable = true)
    (pass : attrPriority (v.ppu.sprite i).attr = behind) (on : v.onLine (v.ppu.sprite i) = true) :
    v.spriteShows behind x i = true ↔ (v.ppu.sprite i).Covers x ∧ v.spriteIndex (v.ppu.sprite i) x ≠ 0 := by
  simp [Scene.spriteShows, enabled, pass, on, Sprite.Covers]

/-- On an enabled pass a sprite draws where it shows (R262). -/
theorem Scene.At.spriteStep (h : v.At x k w) (htables : v.ppu.TablesOpaque) (enabled : v.ppu.spriteEnable = true) (hx : x < 160)
    (behind : Bool) (i : Nat) : v.At x (v.spriteStep behind k i)
      { w with pixel := if v.spriteShows behind x i = true then w.pixel.over behind (v.spriteColour x i) else w.pixel } := by
  obtain ⟨⟨coherent, range⟩, rfl⟩ := h
  unfold Scene.spriteStep
  dsimp only
  split
  · next other =>
    rw [if_neg (by simp [Scene.spriteShows, other])]
    exact ⟨⟨coherent, range⟩, rfl⟩
  · next pass =>
    split
    · next on =>
      obtain ⟨hn, hr⟩ := spriteTile_bounds v _ on
      refine ⟨⟨cacheLookup_coherent _ _ _ _ coherent hn, range⟩, ?_⟩
      rw [cacheLookup_entry _ _ _ _ coherent, if_congr (spriteShows_iff enabled (not_not.mp pass) on) rfl rfl]
      exact congrArg (Column.mk · (k.column x).held) (drawSprite_resolveTile htables v.colour behind _ _ hr k.line hx)
    · next off =>
      rw [if_neg (by simp [Scene.spriteShows, off])]
      exact ⟨⟨coherent, range⟩, rfl⟩

/-- The sprites of a pass are drawn from the last to the first, so the first that shows stays on top (R262). -/
theorem Scene.At.spritePass (h : v.At x k w) (htables : v.ppu.TablesOpaque) (enabled : v.ppu.spriteEnable = true) (hx : x < 160)
    (behind : Bool) :
    v.At x (v.spritePass behind k) { w with pixel := w.pixel.overlaid behind (v.topSprite behind x) } := by
  unfold Scene.spritePass Scene.topSprite Scene.firstSprite
  rw [List.foldl_reverse]
  induction List.range 40 with
  | nil => exact h
  | cons i is ih =>
    have step := ih.spriteStep htables enabled hx behind i
    cases shows : v.spriteShows behind x i with
    | false =>
      rw [List.find?_cons_of_neg (by simp [shows])]
      rw [if_neg (by simp [shows])] at step
      exact step
    | true =>
      rw [List.find?_cons_of_pos shows]
      rw [if_pos shows, over_overlaid] at step
      rw [Option.map_some]
      exact step

theorem Scene.At.sprites (h : v.At x k w) (htables : v.ppu.TablesOpaque) (hx : x < 160) :
    v.At x (v.sprites k) { w with
      pixel := (w.pixel.overlaid true (v.topSprite true x)).overlaid false (v.topSprite false x) } := by
  unfold Scene.sprites
  split
  · next enabled => exact (h.spritePass htables enabled hx true).spritePass htables enabled hx false
  · next disabled =>
    have top (behind : Bool) : v.topSprite behind x = none := by
      simp [Scene.topSprite, Scene.firstSprite, Scene.spriteShows, disabled]
    rw [top, top]
    exact h

/-! ### The finished line -/

theorem unprioritised_eq (v : Scene) (x : Nat) : v.unprioritised x = (v.topSprite false x).getD (v.underFront x) := by
  unfold Scene.unprioritised Scene.topSprite
  cases v.firstSprite false x with
  | none => rw [Option.map_none, Option.getD_none]
  | some i => rw [Option.map_some, Option.getD_some]

theorem underFront_of_none (layer : v.layerAt x = none) : v.underFront x = (v.topSprite true x).getD white := by
  unfold Scene.underFront Scene.topSprite
  rw [layer]
  cases v.firstSprite true x with
  | none => rw [Option.map_none, Option.getD_none]
  | some i => rw [Option.map_some, Option.getD_some]

theorem underFront_of_some {l : LayerPixel} (layer : v.layerAt x = some l) : v.underFront x =
    if (v.shown l).idx = 0 then (v.topSprite true x).getD (v.shown l).col else (v.shown l).col := by
  unfold Scene.underFront Scene.topSprite
  rw [layer]
  cases v.firstSprite true x with
  | none =>
    rw [Option.map_none, Option.getD_none]
    rfl
  | some i =>
    rw [Option.map_some, Option.getD_some]
    rfl

/-- Every pixel of a composed line is its closed form (R269). -/
theorem compose_line_col (h0 : v.ppu.CoherentWith v.colour v.ppu.cache) (htables : v.ppu.TablesOpaque) (hx : x < 160) :
    (v.compose.line x).col = v.closedPixel x := by
  obtain ⟨w, layers, layered⟩ := layers_at h0 hx
  have line := (layers.sprites htables hx).priorityTiles
  unfold Scene.compose Scene.closedPixel
  rw [line]
  cases layered with
  | none layer =>
    rw [layer]
    refine (overlaid_col ..).trans ?_
    rw [unprioritised_eq, underFront_of_none layer]
    rfl
  | priority layer bit =>
    simp only [layer]
    rw [if_pos bit]
    rfl
  | drawn layer bit =>
    simp only [layer]
    rw [if_neg bit]
    refine (overlaid_col ..).trans ?_
    rw [unprioritised_eq, underFront_of_some layer]

end Sprites

/-- Settles O33: a column of the line is followed to its layer pixel, through the sprites and to the priority tiles. -/
theorem composedPixelHasItsClosedForm : Obligations.ComposedPixelHasItsClosedForm := by
  intro line s visible lcdOn valid coherent colourTable monoTable
  refine ⟨_, exec_notifyScanline s visible, fun x hx => ?_⟩
  have shown : ¬ (line.toNat = 143 ∧ s.ppu.lcdEnable = false) := fun ⟨last, off⟩ => by simp [lcdOn last] at off
  dsimp only
  rw [result_fb_of_shown shown]
  refine (pixel_setLine_same _ _ _ _ hx).trans ?_
  exact compose_line_col coherent (tablesOpaque_of_inv valid colourTable monoTable) hx

end Sys2Proof.Machine
end

section
/-! The helpers of the register writes (spec/44_apu_registers.md R302, R320, R321, 30_encoding.md R125): each as a number of
its byte's bits, by division, and each composite write as one record. -/

namespace Sys2Proof.Machine

/-! ### Fields of a byte -/

theorem Byte.bits_eq_div_mod (d : Byte) (hi lo : Nat) : Byte.bits d hi lo = d.toNat / 2 ^ lo % 2 ^ (hi + 1 - lo) :=
  bits_eq d.toNat hi lo

theorem bits_low3 (d : Byte) : Byte.bits d 2 0 = d.toNat % 8 := attrPalette_eq d

theorem bits_high4 (d : Byte) : Byte.bits d 7 4 = d.toNat / 16 := by
  rw [Byte.bits_eq_div_mod]
  omega

theorem bits_high2 (d : Byte) : Byte.bits d 7 6 = d.toNat / 64 := by
  rw [Byte.bits_eq_div_mod]
  omega

/-! ### Helpers of every channel -/

/-- A base of at least 2048 gives no zero rate: the divisor of a register value is at most 2048 (R302). -/
theorem rate_ne_zero {base x : Nat} (hbase : 2048 ≤ base) (hx : x ≤ 2047) : base / (2048 - x) ≠ 0 := by
  have positive : 0 < base / (2048 - x) := Nat.div_pos (by omega) (by omega)
  exact positive.ne'

theorem envelopeSet_eq (e : Byte) :
    envelopeSet e = { amp := 2 * (e.toNat / 16), step := e.toNat % 8, ctr := 0, up := e.getLsbD 3 } := by
  rw [envelopeSet, amplitude, bits_high4, bits_low3]
  rfl

theorem duty_eq {code : Nat} (h : code < 4) : duty code = [1, 2, 4, 6].getD code 0 := by
  interval_cases code <;> rfl

theorem lengthLoad64_eq (d : Byte) : lengthLoad64 d = (64 - d.toNat % 64) / 4 := by
  rw [lengthLoad64, Byte.bits_eq_div_mod]
  omega

theorem loadLength64_eq (v : Voice) (d : Byte) :
    v.loadLength64 d = { v with length := .remaining ((64 - d.toNat % 64) / 4) } :=
  congrArg (v.setLength <| .remaining ·) (lengthLoad64_eq d)

theorem freqValue_eq (high low : Byte) : freqValue high low = 256 * (high.toNat % 8) + low.toNat := by
  rw [freqValue, bits_low3]

/-- Settles O40: `cycleLen` and `setCycle` are so defined, and each other helper has its own equation. -/
theorem channelHelpersConvertTheirValues : Obligations.ChannelHelpersConvertTheirValues :=
  ⟨fun _ _ _ => rfl, fun _ _ => rate_ne_zero, by decide, by decide, fun _ _ _ => rfl, envelopeSet_eq,
    fun c => (duty_eq c.isLt).trans (List.getD_eq_getElem ..)⟩

/-! ### Composite writes -/

/-- The length counter after a control byte `d`: bit 6 clear wins over the load `k` that bit 7 starts (R307, R318, R325). -/
def controlLength (d : Byte) (k : Nat) (old : Length) : Length :=
  if d.getLsbD 6 = false then .continuous else if d.getLsbD 7 then .remaining k else old

theorem putDutyLength_eq (c : Square) (d : Byte) : c.putDutyLength d =
    { c with
      dutyThr := [1, 2, 4, 6].getD (d.toNat / 64) 0
      voice := { c.voice with length := .remaining ((64 - d.toNat % 64) / 4) } } := by
  have code : d.toNat / 64 < 4 := by omega
  rw [Square.putDutyLength, bits_high2, duty_eq code, loadLength64_eq]

/-- A control byte of a square channel: what the trigger reloads, and the new frequency (R307). -/
theorem Square.putControl_eq (cfg : Config) (c : Square) (d dutyLength envelope freqLow : Byte) :
    c.putControl cfg d dutyLength envelope freqLow =
      { c with
        freq := freqValue d freqLow
        env := if d.getLsbD 7 then envelopeSet envelope else c.env
        voice := { c.voice.setCycle (cycleLen cfg cfg.sqBase (freqValue d freqLow)) with
          length := controlLength d (lengthLoad64 dutyLength) c.voice.length } } := by
  unfold Square.putControl Voice.applyLengthEnable controlLength Byte.bit
  cases d.getLsbD 6 <;> cases d.getLsbD 7 <;> rfl

/-- A control byte of the wave channel (R318). -/
theorem Wave.putControl_eq (cfg : Config) (c : Wave) (d length freqLow : Byte) :
    c.putControl cfg d length freqLow =
      { c with
        freq := freqValue d freqLow
        voice := { c.voice.setCycle (cycleLen cfg cfg.wvBase (freqValue d freqLow)) with
          length := controlLength d (lengthLoad256 length) c.voice.length } } := by
  unfold Wave.putControl Voice.applyLengthEnable controlLength Byte.bit
  cases d.getLsbD 6 <;> cases d.getLsbD 7 <;> rfl

/-- A control byte of the noise channel: a trigger restarts it with its short mode as it stands (R325). -/
theorem Noise.putControl_eq (c : Noise) (d length envelope : Byte) (draw : Nat) :
    c.putControl d length envelope draw =
      { c with
        offset := if d.getLsbD 7 then (if c.shortMode then draw else 0) else c.offset
        env := if d.getLsbD 7 then envelopeSet envelope else c.env
        voice := { c.voice with length := controlLength d (lengthLoad64 length) c.voice.length } } := by
  unfold Noise.putControl Voice.applyLengthEnable controlLength Byte.bit
  cases d.getLsbD 6 <;> cases d.getLsbD 7 <;> rfl

theorem noiseFreq_eq (cfg : Config) (r sh : Nat) :
    noiseFreq cfg r sh = if r = 0 then 2 * cfg.nzBase / 2 ^ (sh + 1) else cfg.nzBase / r / 2 ^ (sh + 1) := by
  simp only [noiseFreq, Nat.shiftRight_eq_div_pow]

/-- A polynomial byte of the noise channel, with the restart that follows it (R320, R321, R324). -/
theorem noiseSet_noiseRestart_eq (cfg : Config) (c : Noise) (p : Byte) (draw : Nat) :
    let f := if p.toNat % 8 = 0 then 2 * cfg.nzBase / 2 ^ (p.toNat / 16 + 1)
      else cfg.nzBase / (p.toNat % 8) / 2 ^ (p.toNat / 16 + 1)
    let len := rateToLength cfg f
    (c.noiseSet cfg p).noiseRestart draw =
      { c with
        stepLen := len
        shortMode := p.getLsbD 3
        offset := if p.getLsbD 3 then draw else 0
        voice := c.voice.setCycle (len * noiseEntries cfg (p.getLsbD 3)) } := by
  rw [Noise.noiseSet, bits_low3, bits_high4, noiseFreq_eq]
  rfl

/-- The routing mask of a left and a right bit, in the stereo and in the mono form (R327). -/
theorem routeMask_eq (cfg : Config) (l r : Bool) : routeMask cfg l r =
    if cfg.stereo = true then BitVec.ofNat 3 (bitNat l + 2 * bitNat r) else if l = true ∨ r = true then 4 else 0 := by
  unfold routeMask
  split
  · cases l <;> cases r <;> rfl
  · simp only [Bool.or_eq_true]

end Sys2Proof.Machine
end

section
/-! The register writes of the APU (spec/44_apu_registers.md R301 to R329): one lemma for the common part of `ioWrite`, then
the effect of each register on the APU. -/

namespace Sys2Proof.Machine

/-! ### The common part (R301) -/

theorem ioRead_ioStore (s : State) {r : Nat} (d : Byte) (hr : r < 128) (q : Nat) :
    (s.ioStore r d).ioRead q = if q = r then d else s.ioRead q := by
  split
  case isTrue h => rw [h, ioRead_ioStore_same s r d hr]
  case isFalse h => exact ioRead_ioStore_other s r q d h

/-- A call that is `ioWrite(r, d)` by its word, and answers the common part with `new` for the APU, does what R301 says. -/
theorem IoWriteDoes.of_exec {i : Instr} {r : Nat} {d : Byte} {s : State} {apu new : Apu} (hr : r < 128)
    (word : encode i = pack 0x20 0 (BitVec.ofNat 32 r) d)
    (run : exec i s = .next { s.ioStore r d with apu := new, result := .none }) (leaves : new = apu) :
    IoWriteDoes i r d s apu :=
  ⟨word, _, run, ⟨ioRead_ioStore s d hr, rfl⟩, leaves⟩

/-- Each call of the table answers the common part, with an APU of its own. -/
theorem ioWriteCalls_exec (d : Byte) (s : State) : ∀ call ∈ ioWriteCalls d,
    call.1 < 128 ∧ ∃ new, exec call.2 s = .next { s.ioStore call.1 d with apu := new, result := .none } := by
  intro call h
  fin_cases h <;> exact ⟨by simp, _, rfl⟩

/-- Settles O39: the calls of the table share the common part of `ioWrite`. -/
theorem ioWriteStoresTheMirrorAndTouchesOnlyTheApu : Obligations.IoWriteStoresTheMirrorAndTouchesOnlyTheApu := by
  intro d s call h
  obtain ⟨hr, new, run⟩ := ioWriteCalls_exec d s call h
  exact ⟨new, .of_exec hr (ioWriteCalls_read d call h).2 run rfl⟩

/-! ### The square channels -/

/-- Settles O41: each write is its helper's equation in the field it sets. -/
theorem squareSetupWrites : Obligations.SquareSetupWrites := by
  intro d s
  have period : Byte.bits d 6 4 = d.toNat / 16 % 8 := Byte.bits_eq_div_mod d 6 4
  refine ⟨.of_exec (by decide) rfl rfl ?sweep, .of_exec (by decide) rfl rfl ?length1,
    .of_exec (by decide) rfl rfl ?envelope1, .of_exec (by decide) rfl rfl ?length2,
    .of_exec (by decide) rfl rfl ?envelope2⟩
  case sweep =>
    rw [sweepPeriod, period, bits_low3]
    rfl
  case length1 => exact congrArg ({ s.apu with ch1 := · }) (putDutyLength_eq s.apu.ch1 d)
  case length2 => exact congrArg ({ s.apu with ch2 := · }) (putDutyLength_eq s.apu.ch2 d)
  case envelope1 => exact congrArg ({ s.apu with ch1 := { s.apu.ch1 with env := · } }) (envelopeSet_eq d)
  case envelope2 => exact congrArg ({ s.apu with ch2 := { s.apu.ch2 with env := · } }) (envelopeSet_eq d)

/-- Settles O42: the siblings read as before the write, and the write is its helper's equation. -/
theorem squareFrequencyAndControlWrites : Obligations.SquareFrequencyAndControlWrites := by
  intro d s
  refine ⟨.of_exec (by decide) rfl rfl ?frequency1, .of_exec (by decide) rfl rfl ?control1,
    .of_exec (by decide) rfl rfl ?frequency2, .of_exec (by decide) rfl rfl ?control2⟩
  case frequency1 | frequency2 =>
    simp (disch := decide) only [ioRead_ioStore_other, freqValue_eq]
    rfl
  case control1 | control2 =>
    simp (disch := decide) only [ioRead_ioStore_other, Square.putControl_eq, freqValue_eq, envelopeSet_eq, lengthLoad64_eq]
    rfl

/-! ### The wave channel -/

/-- Settles O43: as for the square channels; its length load takes the whole byte. -/
theorem waveRegisterWrites : Obligations.WaveRegisterWrites := by
  intro d s
  have volume : Byte.bits d 6 5 = d.toNat / 32 % 4 := Byte.bits_eq_div_mod d 6 5
  refine ⟨.of_exec (by decide) rfl rfl rfl, .of_exec (by decide) rfl rfl rfl, .of_exec (by decide) rfl rfl ?volume,
    .of_exec (by decide) rfl rfl ?frequency, .of_exec (by decide) rfl rfl ?control⟩
  case volume => exact congrArg ({ s.apu with ch3 := { s.apu.ch3 with volCode := · } }) volume
  case frequency | control =>
    simp (disch := decide) only [ioRead_ioStore_other, Wave.putControl_eq, freqValue_eq]
    rfl

/-! ### The noise channel -/

/-- Settles O44: the draw is the port's value below the table's length, and each write is its helper's equation. -/
theorem noiseRegisterWrites : Obligations.NoiseRegisterWrites := by
  intro d s
  refine ⟨noiseDraw_lt s, fun k hk => Nat.mod_eq_of_lt hk, .of_exec (by decide) rfl rfl ?length,
    .of_exec (by decide) rfl rfl ?envelope, .of_exec (by decide) rfl rfl ?polynomial,
    .of_exec (by decide) rfl rfl ?control⟩
  case length => exact congrArg ({ s.apu with ch4 := { s.apu.ch4 with voice := · } }) (loadLength64_eq s.apu.ch4.voice d)
  case envelope => exact congrArg ({ s.apu with ch4 := { s.apu.ch4 with env := · } }) (envelopeSet_eq d)
  case polynomial =>
    exact congrArg ({ s.apu with ch4 := · }) (noiseSet_noiseRestart_eq s.config s.apu.ch4 d s.noiseDraw)
  case control =>
    simp (disch := decide) only [ioRead_ioStore_other, Noise.putControl_eq, envelopeSet_eq, lengthLoad64_eq]
    rfl

/-! ### Routing and the enables -/

theorem exec_setChannelEnable_outside {n : BitVec 32} (e : Bool) (s : State) (h : n.toNat < 1 ∨ 4 < n.toNat) :
    exec (.setChannelEnable n e) s = .next { s with result := .fault .invalidArgument } :=
  if_pos h

theorem exec_setChannelEnable {n : BitVec 32} (e : Bool) (s : State) (h1 : 1 ≤ n.toNat) (h4 : n.toNat ≤ 4) :
    exec (.setChannelEnable n e) s = .next
      { s with apu := { s.apu with chEnabled := s.apu.chEnabled.setIfInBounds (n.toNat - 1) e }, result := .none } :=
  if_neg (by omega)

/-- Setting the enable of a channel sets that channel's alone (R328). -/
theorem enabled_setIfInBounds (a : Apu) {n m : Nat} (e : Bool) (hn : 1 ≤ n) (hm1 : 1 ≤ m) (hm4 : m ≤ 4) :
    { a with chEnabled := a.chEnabled.setIfInBounds (n - 1) e }.enabled m = if m = n then e else a.enabled m := by
  unfold Apu.enabled
  dsimp only
  rw [Vector.getElem?_setIfInBounds]
  by_cases h : m = n
  · have inside : n - 1 < 4 := by omega
    simp [h, inside]
  · have other : n - 1 ≠ m - 1 := by omega
    simp [h, other]

/-- Settles O45: the store-only registers have no effect, routing goes by each channel's mask, and an enable is one flag. -/
theorem storeOnlyRoutingAndEnableWrites : Obligations.StoreOnlyRoutingAndEnableWrites := by
  refine ⟨fun d s => ⟨.of_exec (by decide) rfl rfl rfl, .of_exec (by decide) rfl rfl rfl,
    .of_exec (by decide) rfl rfl rfl, .of_exec (by decide) rfl rfl ?routes⟩, fun n e s => ⟨rfl, ?outside, ?inside⟩,
    fun e s => ⟨rfl, rfl⟩⟩
  case routes =>
    simp only [Voice.putRoute, routeMask_eq]
    rfl
  case outside => exact exec_setChannelEnable_outside e s
  case inside =>
    intro h1 h4
    exact ⟨_, exec_setChannelEnable e s h1 h4, fun m => enabled_setIfInBounds s.apu e h1, rfl⟩

end Sys2Proof.Machine
end

section
/-! What one tick does (spec/45_apu_render.md R352 to R363): what a channel adds to the lanes, the equation of each channel's
part of a tick, and from them the closed form of the whole tick. -/

namespace Sys2Proof.Machine

/-! ### Lanes

A lane is named by its route bit: 0 left, 1 right, 2 mono (10_state.md R36). -/

/-- The frame with `lane b` added to each lane `b` that the configuration emits (R359). -/
def LaneFrame.add (cfg : Config) (f : LaneFrame) (lane : Nat → Int) : LaneFrame :=
  if cfg.stereo then { f with left := f.left + lane 0, right := f.right + lane 1 } else { f with mono := f.mono + lane 2 }

/-- The buffer with `lane b i` added to lane `b` of each frame `i`. -/
def addLanes (cfg : Config) (buf : List LaneFrame) (lane : Nat → Nat → Int) : List LaneFrame :=
  buf.mapIdx fun i f => f.add cfg (lane · i)

/-- The buffer a tick starts from (R352). -/
def silence (count : Nat) : List LaneFrame := List.replicate count ⟨0, 0, 0⟩

@[simp] theorem silence_length (count : Nat) : (silence count).length = count := List.length_replicate

@[simp] theorem silence_getElem {count i : Nat} (h : i < (silence count).length) : (silence count)[i] = ⟨0, 0, 0⟩ :=
  List.getElem_replicate h

theorem LaneFrame.mix_eq_add (cfg : Config) (f : LaneFrame) (ch : Voice) (v : Int) :
    f.mix cfg ch v = f.add cfg fun b => if ch.route.getLsbD b then v else 0 := by
  unfold LaneFrame.mix LaneFrame.add Voice.routeLeft Voice.routeRight Voice.routeMono
  simp only [add_ite, add_zero]

theorem LaneFrame.add_zero (cfg : Config) (f : LaneFrame) : f.add cfg (fun _ => 0) = f := by
  unfold LaneFrame.add
  simp only [Int.add_zero, ite_self]

theorem LaneFrame.add_add (cfg : Config) (f : LaneFrame) (p q : Nat → Int) :
    (f.add cfg p).add cfg q = f.add cfg fun b => p b + q b := by
  unfold LaneFrame.add
  split <;> simp only [Int.add_assoc]

theorem addLanes_zero (cfg : Config) (buf : List LaneFrame) : addLanes cfg buf (fun _ _ => 0) = buf := by
  simp only [addLanes, LaneFrame.add_zero]
  exact List.mapIdx_eq_iff.mpr fun i => by simp

theorem addLanes_addLanes (cfg : Config) (buf : List LaneFrame) (p q : Nat → Nat → Int) :
    addLanes cfg (addLanes cfg buf p) q = addLanes cfg buf fun b i => p b i + q b i := by
  simp only [addLanes, List.mapIdx_mapIdx, Function.comp_def, LaneFrame.add_add]

@[simp] theorem addLanes_length (cfg : Config) (buf : List LaneFrame) (lane : Nat → Nat → Int) :
    (addLanes cfg buf lane).length = buf.length := List.length_mapIdx

/-! ### A voice in a tick -/

/-- A voice after a tick of `n` samples: the length counter down by one, the phase on by `n` samples (R354). -/
def Voice.ticked (cfg : Config) (v : Voice) (n : Nat) : Voice :=
  { v with length := v.length.countDown, phase := v.phaseAt cfg n }

/-- What a voice with the sample function `f` adds at sample `i` to a lane, if it sounds and is routed to it (R354, R359). -/
def Voice.adds (cfg : Config) (v : Voice) (f : Nat → Int) (sounds routed : Bool) (i : Nat) : Int :=
  if sounds && routed then f (v.phaseAt cfg i) else 0

theorem lengthTick_of_ne {v : Voice} (sounding : v.length ≠ .remaining 0) :
    v.lengthTick = some { v with length := v.length.countDown } := by
  obtain ⟨phase, cycleLen, length, route⟩ := v
  cases length with
  | continuous => rfl
  | remaining k =>
    cases k with
    | zero => exact absurd rfl sounding
    | succ k => rfl

/-- The phase `i + 1` samples on is that of the voice one step on, `i` samples on (R354): the loop over one more frame takes
the first step and then runs from there. -/
theorem phaseAt_succ (cfg : Config) (v : Voice) (i : Nat) :
    v.phaseAt cfg (i + 1) = { v with phase := (v.phase + cfg.phaseOne) % v.cycleLen }.phaseAt cfg i := by
  have moved := sampleLoop_voice cfg (fun _ => 0) v (silence (i + 1))
  have movedTwice := sampleLoop_voice cfg (fun _ => 0) { v with phase := (v.phase + cfg.phaseOne) % v.cycleLen }
    (silence i)
  rw [silence_length] at moved movedTwice
  exact congrArg Voice.phase (moved.symm.trans movedTwice)

/-- The sample loop adds the samples to the lanes the voice is routed to (R354, R359). -/
theorem sampleLoop_buf (cfg : Config) (f : Nat → Int) (v : Voice) (buf : List LaneFrame) :
    (sampleLoop cfg f v buf).2 = addLanes cfg buf fun b => v.adds cfg f true (v.route.getLsbD b) := by
  induction buf generalizing v with
  | nil => rfl
  | cons frame rest ih =>
    simp only [sampleLoop, ih, addLanes, List.mapIdx_cons, LaneFrame.mix_eq_add, Voice.adds, Bool.true_and, phaseAt_succ]
    rfl

theorem sampleLoop_eq (cfg : Config) (f : Nat → Int) (v : Voice) (buf : List LaneFrame) :
    sampleLoop cfg f v buf = ({ v with phase := v.phaseAt cfg buf.length },
      addLanes cfg buf fun b => v.adds cfg f true (v.route.getLsbD b)) :=
  Prod.ext (sampleLoop_voice cfg f v buf) (sampleLoop_buf cfg f v buf)

/-! ### The sweep and the envelope -/

theorem Envelope.tick_eq (e : Envelope) : e.tick =
    if e.step = 0 then e
    else if e.ctr + 1 < e.step then { e with ctr := e.ctr + 1 }
    else { e with ctr := 0, amp := if e.up then min (e.amp + 2) 32 else e.amp - 2 } := by
  simp only [Envelope.tick, ge_iff_le, ← Nat.not_lt, ite_not]

theorem Sweep.next_eq (w : Sweep) (freq : Nat) :
    w.next freq = if w.down then freq - freq / 2 ^ w.shift else min (freq + freq / 2 ^ w.shift) 2048 := by
  simp only [Sweep.next, Nat.shiftRight_eq_div_pow]

theorem sweepTick_eq (cfg : Config) (w : Sweep) (c : Square) : sweepTick cfg w c =
    if w.period = 0 then (w, c)
    else if w.ctr + 1 < w.period then ({ w with ctr := w.ctr + 1 }, c)
    else ({ w with ctr := 0 }, c.putFreq cfg (w.next c.freq)) := by
  simp only [sweepTick, ge_iff_le, ← Nat.not_lt, ite_not]

/-- The sweep neither reads nor writes the length counter (R356). -/
theorem sweepTick_withLength (cfg : Config) (w : Sweep) (c : Square) (l : Length) :
    sweepTick cfg w { c with voice := { c.voice with length := l } } =
      ((sweepTick cfg w c).1, { (sweepTick cfg w c).2 with voice := { (sweepTick cfg w c).2.voice with length := l } }) := by
  simp only [sweepTick_eq]
  split
  · rfl
  · split <;> rfl

/-- Of the channel the sweep writes the frequency and the cycle alone (R356). -/
theorem sweepTick_frame (cfg : Config) (w : Sweep) (c : Square) :
    (sweepTick cfg w c).2.voice.length = c.voice.length ∧ (sweepTick cfg w c).2.voice.route = c.voice.route ∧
      (sweepTick cfg w c).2.env = c.env := by
  rw [sweepTick_eq]
  split
  · exact ⟨rfl, rfl, rfl⟩
  · split <;> exact ⟨rfl, rfl, rfl⟩

/-! ### Each channel's part of a tick -/

section Channels
variable (cfg : Config) (buf : List LaneFrame)

theorem Square.loop_eq (c : Square) :
    c.loop cfg buf = ({ c with voice := { c.voice with phase := c.voice.phaseAt cfg buf.length } },
      addLanes cfg buf fun b => c.voice.adds cfg c.sample true (c.voice.route.getLsbD b)) := by
  rw [Square.loop, sampleLoop_eq]

theorem chRender1_eq (w : Sweep) (c : Square) :
    let now : Square := { (sweepTick cfg w c).2 with env := c.env.tick }
    chRender1 cfg w c buf = if c.voice.length = .remaining 0 then (w, c, buf) else
      ((sweepTick cfg w c).1, { now with voice := now.voice.ticked cfg buf.length },
        addLanes cfg buf fun b => now.voice.adds cfg now.sample true (c.voice.route.getLsbD b)) := by
  obtain ⟨length, route, env⟩ := sweepTick_frame cfg w c
  intro now
  unfold chRender1
  split_ifs with exhausted
  · rw [(lengthTick_none _).mpr exhausted]
  · rw [lengthTick_of_ne exhausted]
    simp only [sweepTick_withLength, Square.loop_eq, now, Voice.ticked, length, route, env]
    rfl

theorem chRender2_eq (c : Square) :
    let now : Square := { c with env := c.env.tick }
    chRender2 cfg c buf = if c.voice.length = .remaining 0 then (c, buf) else
      ({ now with voice := c.voice.ticked cfg buf.length },
        addLanes cfg buf fun b => c.voice.adds cfg now.sample true (c.voice.route.getLsbD b)) := by
  intro now
  unfold chRender2
  split_ifs with exhausted
  · rw [(lengthTick_none _).mpr exhausted]
  · rw [lengthTick_of_ne exhausted]
    exact Square.loop_eq cfg buf _

theorem chRender3_eq (table : Nat → Byte) (c : Wave) :
    chRender3 cfg table c buf = if c.voice.length = .remaining 0 then (c, buf) else
      ({ c with voice := c.voice.ticked cfg buf.length },
        addLanes cfg buf fun b => c.voice.adds cfg (c.sample table) true (c.voice.route.getLsbD b)) := by
  unfold chRender3
  split_ifs with exhausted
  · rw [(lengthTick_none _).mpr exhausted]
  · rw [lengthTick_of_ne exhausted]
    simp only [sampleLoop_eq]
    rfl

theorem chRender4_eq (c : Noise) :
    let now : Noise := { c with env := c.env.tick }
    chRender4 cfg c buf = if c.voice.length = .remaining 0 then (c, buf) else
      ({ now with voice := c.voice.ticked cfg buf.length },
        addLanes cfg buf fun b => c.voice.adds cfg (now.sample cfg) true (c.voice.route.getLsbD b)) := by
  intro now
  unfold chRender4
  split_ifs with exhausted
  · rw [(lengthTick_none _).mpr exhausted]
  · rw [lengthTick_of_ne exhausted]
    simp only [sampleLoop_eq]
    rfl

variable {cfg buf}

/-- A channel that is enabled (R352) and then renders as it does unless its length has run out (R355) takes part in the tick
exactly if it sounds. -/
theorem channelTick_eq {α : Type} {a : Apu} {n : Nat} {old v : Voice} {f : Nat → Int} {still next : α}
    {out : α × List LaneFrame} (put : α → Apu) (on : a.sndEnabled = true) (same : put still = a)
    (rendered : out = if old.length = .remaining 0 then (still, buf) else
      (next, addLanes cfg buf fun b => v.adds cfg f true (old.route.getLsbD b))) :
    (if a.enabled n then (put out.1, out.2) else (a, buf)) =
      (put (if a.sounds n old then next else still),
        addLanes cfg buf fun b => v.adds cfg f (a.sounds n old) (old.route.getLsbD b)) := by
  have silent : addLanes cfg buf (fun b => v.adds cfg f false (old.route.getLsbD b)) = buf := addLanes_zero cfg buf
  by_cases enabled : a.enabled n = true
  · by_cases exhausted : old.length = .remaining 0
    · simp [rendered, exhausted, Apu.sounds, enabled, silent, same]
    · have sounds : a.sounds n old = true := by simp [Apu.sounds, on, enabled, exhausted]
      simp [rendered, exhausted, enabled, sounds]
  · simp [Apu.sounds, enabled, silent, same]

end Channels

/-! ### The whole tick -/

/-- The APU after a tick of `n` samples: each sounding channel one tick on, the others as they were (R352 to R357). -/
def Apu.ticked (cfg : Config) (a : Apu) (n : Nat) : Apu :=
  { a with
    sweep := if a.sounds 1 a.ch1.voice then (sweepTick cfg a.sweep a.ch1).1 else a.sweep
    ch1 := if a.sounds 1 a.ch1.voice then { a.ch1Now cfg with voice := (a.ch1Now cfg).voice.ticked cfg n } else a.ch1
    ch2 := if a.sounds 2 a.ch2.voice then { a.ch2Now with voice := a.ch2Now.voice.ticked cfg n } else a.ch2
    ch3 := if a.sounds 3 a.ch3.voice then { a.ch3 with voice := a.ch3.voice.ticked cfg n } else a.ch3
    ch4 := if a.sounds 4 a.ch4.voice then { a.ch4Now with voice := a.ch4Now.voice.ticked cfg n } else a.ch4 }

/-- A lane sums what the four channels add to it (R352, R359). -/
theorem Apu.laneSum_eq (cfg : Config) (a : Apu) (table : Nat → Byte) (route : Voice → Bool) (i : Nat) :
    a.laneSum cfg table route i =
      (a.ch1Now cfg).voice.adds cfg (a.ch1Now cfg).sample (a.sounds 1 a.ch1.voice) (route a.ch1.voice) i +
      a.ch2Now.voice.adds cfg a.ch2Now.sample (a.sounds 2 a.ch2.voice) (route a.ch2.voice) i +
      a.ch3.voice.adds cfg (a.ch3.sample table) (a.sounds 3 a.ch3.voice) (route a.ch3.voice) i +
      a.ch4Now.voice.adds cfg (a.ch4Now.sample cfg) (a.sounds 4 a.ch4.voice) (route a.ch4.voice) i := rfl

section Tick
variable {cfg : Config} {a : Apu} (buf : List LaneFrame) (on : a.sndEnabled = true)
include on

theorem Apu.step1_eq : Apu.step1 cfg (a, buf) =
    ({ a with sweep := (a.ticked cfg buf.length).sweep, ch1 := (a.ticked cfg buf.length).ch1 },
      addLanes cfg buf fun b => (a.ch1Now cfg).voice.adds cfg (a.ch1Now cfg).sample (a.sounds 1 a.ch1.voice)
        (a.ch1.voice.route.getLsbD b)) := by
  have rendered := congrArg (Equiv.prodAssoc Sweep Square _).symm (chRender1_eq cfg buf a.sweep a.ch1)
  rw [apply_ite (Equiv.prodAssoc Sweep Square _).symm] at rendered
  refine (channelTick_eq (fun c : Sweep × Square => { a with sweep := c.1, ch1 := c.2 }) on rfl rendered).trans ?_
  unfold Apu.ticked
  split <;> rfl

theorem Apu.step2_eq : Apu.step2 cfg (a, buf) = ({ a with ch2 := (a.ticked cfg buf.length).ch2 },
    addLanes cfg buf fun b => a.ch2Now.voice.adds cfg a.ch2Now.sample (a.sounds 2 a.ch2.voice)
      (a.ch2.voice.route.getLsbD b)) :=
  channelTick_eq ({ a with ch2 := · }) on rfl (chRender2_eq cfg buf a.ch2)

theorem Apu.step3_eq (table : Nat → Byte) : Apu.step3 cfg table (a, buf) =
    ({ a with ch3 := (a.ticked cfg buf.length).ch3 },
      addLanes cfg buf fun b => a.ch3.voice.adds cfg (a.ch3.sample table) (a.sounds 3 a.ch3.voice)
        (a.ch3.voice.route.getLsbD b)) :=
  channelTick_eq ({ a with ch3 := · }) on rfl (chRender3_eq cfg buf table a.ch3)

theorem Apu.step4_eq : Apu.step4 cfg (a, buf) = ({ a with ch4 := (a.ticked cfg buf.length).ch4 },
    addLanes cfg buf fun b => a.ch4Now.voice.adds cfg (a.ch4Now.sample cfg) (a.sounds 4 a.ch4.voice)
      (a.ch4.voice.route.getLsbD b)) :=
  channelTick_eq ({ a with ch4 := · }) on rfl (chRender4_eq cfg buf a.ch4)

end Tick

/-- With the sound off no channel sounds (R352). -/
theorem Apu.not_sounds_of_off {a : Apu} (off : a.sndEnabled = false) (n : Nat) (v : Voice) : ¬ a.sounds n v = true := by
  simp [Apu.sounds, off]

theorem Apu.not_sounds_of_disabled {a : Apu} {n : Nat} (disabled : a.enabled n = false) (v : Voice) :
    ¬ a.sounds n v = true := by
  simp [Apu.sounds, disabled]

theorem Apu.ticked_of_off {a : Apu} (cfg : Config) (off : a.sndEnabled = false) (n : Nat) : a.ticked cfg n = a := by
  simp [Apu.ticked, Apu.not_sounds_of_off off]

theorem Apu.laneSum_of_off {a : Apu} (cfg : Config) (off : a.sndEnabled = false) (table : Nat → Byte) (route : Voice → Bool)
    (i : Nat) : a.laneSum cfg table route i = 0 := by
  simp [Apu.laneSum, Apu.not_sounds_of_off off]

theorem Apu.tick_of_on {a : Apu} (cfg : Config) (on : a.sndEnabled = true) (table : Nat → Byte) (count : Nat) :
    a.tick cfg table count =
      Apu.step4 cfg (Apu.step3 cfg table (Apu.step2 cfg (Apu.step1 cfg (a, silence count)))) := if_pos on

theorem Apu.tick_of_off {a : Apu} (cfg : Config) (off : a.sndEnabled = false) (table : Nat → Byte) (count : Nat) :
    a.tick cfg table count = (a, silence count) := if_neg (by simp [off])

/-- The closed form of a tick: every sounding channel one tick on, and on each lane of a frame the sum of the channels
routed to it (R352 to R363). -/
theorem Apu.tick_eq (cfg : Config) (a : Apu) (table : Nat → Byte) (count : Nat) :
    a.tick cfg table count = (a.ticked cfg count, addLanes cfg (silence count)
      fun b => a.laneSum cfg table fun v => v.route.getLsbD b) := by
  cases on : a.sndEnabled
  case true =>
    rw [Apu.tick_of_on cfg on, Apu.step1_eq _ on, Apu.step2_eq _ (by exact on), Apu.step3_eq _ (by exact on),
      Apu.step4_eq _ (by exact on)]
    simp only [addLanes_addLanes, addLanes_length, silence_length]
    rfl
  case false =>
    have silent : (fun b : Nat => a.laneSum cfg table fun v => v.route.getLsbD b) = fun _ _ => 0 :=
      funext fun _ => funext fun _ => Apu.laneSum_of_off cfg on ..
    rw [Apu.tick_of_off cfg on, Apu.ticked_of_off cfg on, silent, addLanes_zero]

end Sys2Proof.Machine
end

section
/-! The chunk that `render` answers and the four statements about it (spec/45_apu_render.md). -/

namespace Sys2Proof.Machine

/-! ### The bytes of a chunk (R353) -/

section Bytes
variable {cfg : Config}

theorem LaneFrame.toBytes_length (f : LaneFrame) : (f.toBytes cfg).length = if cfg.stereo = true then 2 else 1 := by
  unfold LaneFrame.toBytes
  split <;> rfl

theorem pcmBytes_length (buf : List LaneFrame) :
    (pcmBytes cfg buf).length = (if cfg.stereo = true then 2 else 1) * buf.length := by
  simp [pcmBytes, List.length_flatMap, LaneFrame.toBytes_length, Nat.mul_comm]

theorem pcmBytes_stereo (stereo : cfg.stereo = true) (buf : List LaneFrame) (i : Nat) :
    (pcmBytes cfg buf)[2 * i]? = buf[i]?.map (pcmByte ·.left) ∧
      (pcmBytes cfg buf)[2 * i + 1]? = buf[i]?.map (pcmByte ·.right) := by
  induction buf generalizing i with
  | nil => exact ⟨rfl, rfl⟩
  | cons f rest ih =>
    have bytes : pcmBytes cfg (f :: rest) = pcmByte f.left :: pcmByte f.right :: pcmBytes cfg rest := by
      simp [pcmBytes, LaneFrame.toBytes, stereo]
    rw [bytes]
    cases i with
    | zero => exact ⟨rfl, rfl⟩
    | succ i => exact ih i

theorem pcmBytes_mono (mono : ¬ cfg.stereo = true) (buf : List LaneFrame) :
    pcmBytes cfg buf = buf.map (pcmByte ·.mono) := by
  have bytes : LaneFrame.toBytes cfg = fun f => [pcmByte f.mono] := funext fun _ => if_neg mono
  rw [pcmBytes, bytes, List.map_eq_flatMap]

end Bytes

/-! ### The chunk of a tick -/

/-- The bytes of `count` silent frames with `lane b i` on lane `b` of frame `i` (R352, R353). -/
def pcmChunk (cfg : Config) (count : Nat) (lane : Nat → Nat → Int) : List Byte :=
  pcmBytes cfg (addLanes cfg (silence count) lane)

section Chunk
variable {cfg : Config} {count : Nat} {lane : Nat → Nat → Int}

theorem pcmChunk_length : (pcmChunk cfg count lane).length = (if cfg.stereo = true then 2 else 1) * count := by
  simp only [pcmChunk, pcmBytes_length, addLanes_length, silence_length]

theorem addLanes_silence_getElem? {i : Nat} (inside : i < count) :
    (addLanes cfg (silence count) lane)[i]? = some (LaneFrame.add cfg ⟨0, 0, 0⟩ (lane · i)) := by
  simp [addLanes, silence, inside]

theorem pcmChunk_stereo (stereo : cfg.stereo = true) {i : Nat} (inside : i < count) :
    (pcmChunk cfg count lane)[2 * i]? = some (pcmByte (lane 0 i)) ∧
      (pcmChunk cfg count lane)[2 * i + 1]? = some (pcmByte (lane 1 i)) := by
  obtain ⟨left, right⟩ := pcmBytes_stereo stereo (addLanes cfg (silence count) lane) i
  rw [addLanes_silence_getElem? inside] at left right
  simp only [pcmChunk, left, right, LaneFrame.add, if_pos stereo, Int.zero_add, Option.map_some, and_self]

theorem pcmChunk_mono (mono : ¬ cfg.stereo = true) {i : Nat} (inside : i < count) :
    (pcmChunk cfg count lane)[i]? = some (pcmByte (lane 2 i)) := by
  rw [pcmChunk, pcmBytes_mono mono, List.getElem?_map, addLanes_silence_getElem? inside]
  simp only [LaneFrame.add, if_neg mono, Int.zero_add, Option.map_some]

/-- Every byte of a chunk is a lane value, biased. -/
theorem exists_lane_of_mem_pcmChunk {b : Byte} (h : b ∈ pcmChunk cfg count lane) : ∃ l i, b = pcmByte (lane l i) := by
  obtain ⟨f, hf, hb⟩ := List.mem_flatMap.mp h
  obtain ⟨i, hi, rfl⟩ := List.mem_mapIdx.mp hf
  rw [silence_getElem] at hb
  unfold LaneFrame.toBytes LaneFrame.add at hb
  split at hb
  · simp only [Int.zero_add, List.mem_cons, List.not_mem_nil, or_false] at hb
    obtain left | right := hb
    · exact ⟨0, i, left⟩
    · exact ⟨1, i, right⟩
  · simp only [Int.zero_add, List.mem_singleton] at hb
    exact ⟨2, i, hb⟩

end Chunk

/-! ### The call (R352) -/

section Call
variable {count : BitVec 32} {s : State}

theorem exec_render_negative (negative : count.toInt < 0) :
    exec (.render count) s = .next { s with result := .fault .invalidArgument } := if_pos negative

theorem exec_render_closed (inside : 0 ≤ count.toInt) (closed : s.pace.counter + 1 < s.pace.divisor) :
    exec (.render count) s =
      .next { s with pace := { s.pace with counter := s.pace.counter + 1 }, result := .bytes [] } := by
  refine (if_neg (Int.not_lt.mpr inside)).trans ?_
  rw [tick_closed closed]
  rfl

/-- The chunk an ungated call answers. -/
def State.pcmChunk (s : State) (count : Nat) : List Byte :=
  Machine.pcmChunk s.config count fun b => s.apu.laneSum s.config s.ioRead fun v => v.route.getLsbD b

theorem exec_render_open (inside : 0 ≤ count.toInt) (opened : s.pace.divisor ≤ s.pace.counter + 1) :
    exec (.render count) s =
      .next { s with
        pace := { s.pace with counter := 0 }
        apu := s.apu.ticked s.config count.toInt.toNat
        result := .bytes (s.pcmChunk count.toInt.toNat) } := by
  refine (if_neg (Int.not_lt.mpr inside)).trans ?_
  rw [tick_open opened, Apu.tick_eq]
  rfl

end Call

/-- Settles O46: the operand and the gate decide, and a channel that does not sound is left alone by the closed form of
the tick. -/
theorem renderIsGatedAndDisabledChannelsStandStill : Obligations.RenderIsGatedAndDisabledChannelsStandStill := by
  refine fun count s => ⟨rfl, exec_render_negative, exec_render_closed, fun inside opened => ?_⟩
  have still {α : Type} {n : Nat} {v : Voice} {x y : α} (disabled : s.apu.enabled n = false) :
      (if s.apu.sounds n v then x else y) = y := if_neg (Apu.not_sounds_of_disabled disabled v)
  refine ⟨_, _, exec_render_open inside opened, ?length, rfl, fun off => ⟨Apu.ticked_of_off _ off _, ?silent⟩,
    fun disabled => ⟨still disabled, still disabled⟩, still, still, still⟩
  case length =>
    rw [State.pcmChunk, pcmChunk_length]
    split <;> omega
  case silent =>
    intro b hb
    obtain ⟨l, i, rfl⟩ := exists_lane_of_mem_pcmChunk hb
    rw [Apu.laneSum_of_off _ off]
    rfl

/-- Settles O47: the envelope and the sweep have their equations, and the closed form of the tick is the one stated. -/
theorem renderTakesEachChannelOneTickOn : Obligations.RenderTakesEachChannelOneTickOn := by
  refine ⟨Envelope.tick_eq, fun cfg w c => ?_, fun count s inside opened => ⟨_, exec_render_open inside opened, rfl⟩⟩
  rw [sweepTick_eq, Sweep.next_eq]
  rfl

/-! ### Sample values -/

theorem bits_low4 (d : Byte) : Byte.bits d 3 0 = d.toNat % 16 := by
  rw [Byte.bits_eq_div_mod]
  omega

theorem Wave.nibble_eq (c : Wave) (table : Nat → Byte) (p : Nat) : c.nibble table p =
    if 32 * p / c.voice.cycleLen % 2 = 0 then (table (0x30 + 32 * p / c.voice.cycleLen / 2)).toNat / 16
    else (table (0x30 + 32 * p / c.voice.cycleLen / 2)).toNat % 16 := by
  simp only [Wave.nibble, bits_high4, bits_low4]

theorem Wave.nibble_lt (c : Wave) (table : Nat → Byte) (p : Nat) : c.nibble table p < 16 := by
  rw [Wave.nibble_eq]
  split <;> omega

theorem Wave.level_eq (c : Wave) (v : Nat) :
    c.level v = if c.dacOn = false ∨ c.volCode = 0 then 0 else (((v : Int) - 8) * 4) / 2 ^ (c.volCode - 1) := by
  simp only [Wave.level, asr, Bool.or_eq_true, Bool.not_eq_true', beq_iff_eq]

/-- Settles O48: the samples have their formulas, and the bytes of the chunk are its biased lane sums. -/
theorem renderedByteIsTheSumOfTheChannels : Obligations.RenderedByteIsTheSumOfTheChannels := by
  refine ⟨fun _ _ => rfl, fun c table p => ?wave, fun _ _ _ => rfl,
    fun count s inside opened => ⟨_, _, exec_render_open inside opened, rfl, fun i hi => ?bytes⟩⟩
  case wave =>
    rw [Wave.sample, Wave.level_eq, Wave.nibble_eq]
  case bytes =>
    have below : i < count.toInt.toNat := by omega
    simp only [Int.add_comm 128]
    split
    case isTrue stereo => exact pcmChunk_stereo stereo below
    case isFalse mono => exact pcmChunk_mono mono below

/-! ### Ranges (R360) -/

/-- The channel adds a value from the range of its samples, if that range holds 0. -/
theorem adds_mem {cfg : Config} {v : Voice} {f : Nat → Int} {lo hi : Int} (range : ∀ p, f p ∈ Set.Icc lo hi)
    (zero : 0 ∈ Set.Icc lo hi) (sounds routed : Bool) (i : Nat) : v.adds cfg f sounds routed i ∈ Set.Icc lo hi := by
  unfold Voice.adds
  split
  · exact range _
  · exact zero

theorem Square.sample_mem {c : Square} (h : c.env.Inv) (p : Nat) : c.sample p ∈ Set.Icc (-32) 32 := by
  obtain ⟨-, amp, -⟩ := h
  unfold Square.sample
  split <;> constructor <;> omega

theorem Noise.sample_mem {cfg : Config} {c : Noise} (h : c.env.Inv) (p : Nat) : c.sample cfg p ∈ Set.Icc (-32) 32 := by
  obtain ⟨-, amp, -⟩ := h
  unfold Noise.sample
  split <;> constructor <;> omega

/-- A shift right leaves a sample in the range of full volume (R362). -/
theorem asr_mem {v : Int} (h : v ∈ Set.Icc (-32) 28) (n : Nat) : asr v n ∈ Set.Icc (-32) 28 := by
  obtain ⟨lo, hi⟩ := h
  have pos : (0 : Int) < 2 ^ n := by positivity
  constructor
  · exact (Int.le_ediv_iff_mul_le pos).mpr (by omega)
  · exact Int.le_of_lt_add_one ((Int.ediv_lt_iff_lt_mul pos).mpr (by omega))

theorem Wave.sample_mem (c : Wave) (table : Nat → Byte) (p : Nat) : c.sample table p ∈ Set.Icc (-32) 28 := by
  have nibble := c.nibble_lt table p
  unfold Wave.sample Wave.level
  split
  · decide
  · exact asr_mem ⟨by omega, by omega⟩ _

theorem laneSum_mem {cfg : Config} {a : Apu} (h : a.Inv cfg) (table : Nat → Byte) (route : Voice → Bool) (i : Nat) :
    a.laneSum cfg table route i ∈ Set.Icc (-128) 124 := by
  obtain ⟨⟨-, env1, -⟩, -, -, ⟨-, env2, -⟩, -, -, env4, -⟩ := h
  rw [Apu.laneSum_eq]
  refine Set.Icc_add_Icc_subset (-96) 92 (-32) 32 (Set.add_mem_add ?_ ?ch4)
  case ch4 => exact adds_mem (Noise.sample_mem (envelopeTick_inv _ env4)) (by decide) ..
  refine Set.Icc_add_Icc_subset (-64) 64 (-32) 28 (Set.add_mem_add ?_ ?ch3)
  case ch3 => exact adds_mem (a.ch3.sample_mem table) (by decide) ..
  refine Set.Icc_add_Icc_subset (-32) 32 (-32) 32 (Set.add_mem_add ?ch1 ?ch2)
  case ch1 => exact adds_mem (Square.sample_mem (envelopeTick_inv _ env1)) (by decide) ..
  case ch2 => exact adds_mem (Square.sample_mem (envelopeTick_inv _ env2)) (by decide) ..

/-- A lane value in range does not wrap in its byte (R360). -/
theorem pcmByte_le {v : Int} (h : v ∈ Set.Icc (-128) 124) : (pcmByte v).toNat ≤ 252 := by
  obtain ⟨lo, hi⟩ := h
  rw [pcmByte, BitVec.toNat_ofInt]
  omega

/-- Settles O49: a lane sum adds four samples, each in its channel's range. -/
theorem lanesNeverWrap : Obligations.LanesNeverWrap := by
  intro count s inv inside
  refine ⟨laneSum_mem inv s.ioRead, ?_⟩
  rcases Nat.lt_or_ge (s.pace.counter + 1) s.pace.divisor with closed | opened
  · exact ⟨_, _, exec_render_closed inside closed, rfl, nofun⟩
  · refine ⟨_, _, exec_render_open inside opened, rfl, fun b hb => ?_⟩
    obtain ⟨l, i, rfl⟩ := exists_lane_of_mem_pcmChunk hb
    exact pcmByte_le (laneSum_mem inv ..)

end Sys2Proof.Machine
end

section
/-! The pacing gate and the register file write (spec/46_pacing_gate.md R401, R402, R405): a tick from a counter below the
divisor counts modulo the divisor and answers whether the count is 0, so a row of ticks does too. -/

namespace Sys2Proof.Machine

/-! ### The gate (R401) -/

theorem exec_tick (s : State) : exec .tick s =
    .next { s with pace := s.pace.tick.2, result := .bool s.pace.tick.1 } := rfl

theorem exec_tick_closed {s : State} (closed : s.pace.counter + 1 < s.pace.divisor) : exec .tick s =
    .next { s with pace := { s.pace with counter := s.pace.counter + 1 }, result := .bool false } := by
  rw [exec_tick, tick_closed closed]

theorem exec_tick_open {s : State} (opened : s.pace.divisor ≤ s.pace.counter + 1) : exec .tick s =
    .next { s with pace := { s.pace with counter := 0 }, result := .bool true } := by
  rw [exec_tick, tick_open opened]

/-- The state with the gate counted up by `k` modulo its divisor, and the answer of the last of the `k` ticks. -/
def State.counted (s : State) (k : Nat) : State :=
  let count := (s.pace.counter + k) % s.pace.divisor
  { s with pace := { s.pace with counter := count }, result := .bool (decide (count = 0)) }

/-- On a counter below the divisor the tick counts modulo the divisor. -/
theorem exec_tick_counted {s : State} (below : s.pace.counter < s.pace.divisor) :
    exec .tick s = .next (s.counted 1) := by
  rcases Nat.lt_or_ge (s.pace.counter + 1) s.pace.divisor with closed | opened
  · simp [exec_tick_closed closed, State.counted, Nat.mod_eq_of_lt closed]
  · have full : s.pace.counter + 1 = s.pace.divisor := Nat.le_antisymm below opened
    simp [exec_tick_open opened, State.counted, full]

theorem counted_below {s : State} (h : 0 < s.pace.divisor) (k : Nat) :
    (s.counted k).pace.counter < (s.counted k).pace.divisor :=
  Nat.mod_lt _ h

theorem counted_counted (s : State) (j k : Nat) : (s.counted j).counted k = s.counted (j + k) := by
  simp only [State.counted, Nat.mod_add_mod, Nat.add_assoc]

theorem execAll_cons {i : Instr} {s t : State} (h : exec i s = .next t) (l : List Instr) :
    execAll (i :: l) s = execAll l t := by
  rw [execAll, h]

/-- A row of ticks counts as many up as there are ticks. -/
theorem execAll_ticks {s : State} (below : s.pace.counter < s.pace.divisor) (k : Nat) :
    execAll (List.replicate (k + 1) .tick) s = .next (s.counted (k + 1)) := by
  induction k generalizing s with
  | zero => exact execAll_cons (exec_tick_counted below) []
  | succ k ih =>
    calc execAll (List.replicate (k + 1 + 1) .tick) s
      _ = execAll (List.replicate (k + 1) .tick) (s.counted 1) := execAll_cons (exec_tick_counted below) _
      _ = .next ((s.counted 1).counted (k + 1)) := ih (counted_below (Nat.zero_lt_of_lt below) 1)
      _ = .next (s.counted (k + 1 + 1)) := by rw [counted_counted, Nat.add_comm 1]

/-- Settles O37: from counter 0 the count of a row of ticks is its length modulo the divisor. -/
theorem tickOpensOncePerDivisor : Obligations.TickOpensOncePerDivisor := by
  refine ⟨rfl, fun s => ⟨exec_tick_closed, exec_tick_open⟩, fun s k start divisor row => ?_⟩
  obtain ⟨k, rfl⟩ := Nat.exists_eq_add_of_le' row
  have below : s.pace.counter < s.pace.divisor := by omega
  rw [execAll_ticks below, State.counted, start, Nat.zero_add]

/-! ### The divisor and the register file (R402, R405) -/

theorem exec_setSpeed_outside {n : BitVec 32} (s : State) (h : n.toInt ≤ 0) :
    exec (.setSpeed n) s = .next { s with result := .fault .invalidArgument } :=
  if_pos h

theorem exec_setSpeed {n : BitVec 32} (s : State) (h : 0 < n.toInt) : exec (.setSpeed n) s =
    .next { s with pace := { counter := 0, divisor := n.toInt.toNat }, result := .none } :=
  if_neg (Int.not_le.mpr h)

theorem exec_mirrorWrite_outside {r : BitVec 32} (d : Byte) (s : State) (h : 0x7F < r.toNat) :
    exec (.mirrorWrite r d) s = .next { s with result := .fault .invalidArgument } :=
  if_pos h

theorem exec_mirrorWrite {r : BitVec 32} (d : Byte) (s : State) (h : r.toNat ≤ 0x7F) :
    exec (.mirrorWrite r d) s = .next { s.ioStore r.toNat d with result := .none } :=
  if_neg (Nat.not_lt.mpr h)

/-- Settles O38: inside their domains the one writes the gate and the other one byte of the register file. -/
theorem setSpeedAndMirrorWriteStore : Obligations.SetSpeedAndMirrorWriteStore := by
  refine ⟨fun n s => ⟨rfl, exec_setSpeed_outside s, fun h => ?speed⟩,
    fun r d s => ⟨rfl, exec_mirrorWrite_outside d s, fun h => ?mirror⟩⟩
  case speed => exact ⟨_, exec_setSpeed s h, Int.toNat_of_nonneg h.le, rfl, rfl⟩
  case mirror => exact ⟨_, exec_mirrorWrite d s h, ioRead_ioStore s d (Nat.lt_succ_of_le h), rfl⟩

end Sys2Proof.Machine
end

section
/-! Faults and refusals (spec/60_exceptions.md R411 to R414, R417). `exec_ends` gives the four ways a call can end, each with
its condition; here each condition is shown to force its way, and a fault to leave all but the result. -/

namespace Sys2Proof.Machine

/-! ### From the condition to the ending -/

/-- `load` has no operand in its word (30_encoding.md R121), so none is outside a domain. -/
theorem load_inDomain (s : State) : ¬ OutOfDomain .load s := by
  simp [OutOfDomain, Instr.wellFormed, bankInRange]

theorem exec_without_cartridge {i : Instr} {s : State} (needs : needsCart i = true) (none : s.cart = none) :
    exec i s = .refused .noCartridge := by
  have ends := exec_ends i s
  generalize exec i s = out at ends
  cases ends with
  | noCartridge => rfl
  | invalidArgument cart | completes cart => exact absurd none (cart needs)
  | invalidCartridge load => nomatch load ▸ needs

theorem exec_outside_domain {i : Instr} {s : State} (cart : needsCart i = true → s.cart ≠ none) (outside : OutOfDomain i s) :
    exec i s = .next { s with result := .fault .invalidArgument } := by
  have ends := exec_ends i s
  generalize exec i s = out at ends
  cases ends with
  | noCartridge needs none => exact absurd none (cart needs)
  | invalidArgument => rfl
  | invalidCartridge load => exact absurd (load ▸ outside) (load_inDomain s)
  | completes _ inside => exact absurd outside inside

theorem exec_load_undefined_size {s : State} (size : byteAt s.inputs.bytes s.config.hdrRomSize ∉ romSizeBytes) :
    exec .load s = .next { s with result := .fault .invalidCartridge } := by
  change execLoad s = _
  rw [execLoad, (romBanks_eq_none_iff _).mpr size, raise]

/-! ### From the ending to the condition -/

/-- A fault replaces the result alone, and each of the two has one cause. -/
theorem exec_fault_cases {i : Instr} {s t : State} {f : Fault} (h : exec i s = .next t) (fault : t.result = .fault f) :
    t = { s with result := .fault f } ∧
      (f = .invalidArgument ∧ OutOfDomain i s ∨
       f = .invalidCartridge ∧ i = .load ∧ byteAt s.inputs.bytes s.config.hdrRomSize ∉ romSizeBytes) := by
  cases h ▸ exec_ends i s with
  | invalidArgument _ outside => cases fault; exact ⟨rfl, .inl ⟨rfl, outside⟩⟩
  | invalidCartridge load size => cases fault; exact ⟨rfl, .inr ⟨rfl, load, size⟩⟩
  | completes _ _ _ done => exact absurd fault (done.noFault f)

/-! ### The statements -/

/-- Settles O8: the frame of a fault, from the ways a call can end with one. -/
theorem faultLeavesTheStateUnchanged : Obligations.FaultLeavesTheStateUnchanged :=
  fun _ _ _ _ h fault => (exec_fault_cases h fault).1

/-- Settles O9: of the two faults, the operand check alone raises InvalidArgument, and it raises no other. -/
theorem invalidArgumentExactlyOutsideTheDomain : Obligations.InvalidArgumentExactlyOutsideTheDomain := by
  intro i s cart
  constructor
  · rintro ⟨t, h, fault⟩
    obtain ⟨-, ⟨-, outside⟩ | ⟨other, -⟩⟩ := exec_fault_cases h fault
    · exact outside
    · nomatch other
  · exact fun outside => ⟨_, exec_outside_domain cart outside, rfl⟩

/-- Settles O10: the check for a cartridge comes first, so the operands do not matter (60_exceptions.md R417). -/
theorem refusedExactlyWithoutCartridge : Obligations.RefusedExactlyWithoutCartridge := by
  intro i s r
  constructor
  · intro h
    cases h ▸ exec_ends i s with
    | noCartridge needs none => exact ⟨needs, none, rfl⟩
  · rintro ⟨needs, none, rfl⟩
    exact exec_without_cartridge needs none

/-- Settles O13: of the two faults, `load` on an undefined ROM size byte alone raises InvalidCartridge. -/
theorem invalidCartridgeExactlyForUndefinedRomSize : Obligations.InvalidCartridgeExactlyForUndefinedRomSize := by
  intro i s
  constructor
  · intro h
    obtain ⟨-, ⟨other, -⟩ | ⟨-, load, size⟩⟩ := exec_fault_cases h rfl
    · nomatch other
    · exact ⟨load, size⟩
  · rintro ⟨rfl, size⟩
    exact exec_load_undefined_size size

end Sys2Proof.Machine
end
